-- ==== Sys2Proof/Word.lean ====
section
/-! DEFINITION. The types the spec's values have: bytes, 16-bit words, register numbers, the framebuffer
(spec/00_scope.md R6, R8, R9). Nothing here computes. -/

namespace Sys2Proof

/-- An 8-bit unsigned value: a general register, a timer, a memory byte (R6 V_WIDTH, TIMER_WIDTH). -/
abbrev Byte := BitVec 8

/-- A 16-bit unsigned value: PC, I, a return address, an opcode (R6 PC_WIDTH, I_WIDTH, OPCODE_WIDTH). -/
abbrev Word := BitVec 16

/-- A 12-bit address field nnn (R92). -/
abbrev Addr := BitVec 12

/-- The number of a general register V0..VF (R20): a 4-bit field value i selects Vi. -/
abbrev Reg := Fin 16

/-- VF, the ordinary register that some instructions also write as a flag (R22). -/
abbrev Reg.VF : Reg := 15

/-- V0, the implicit operand of BNNN (R157). -/
abbrev Reg.V0 : Reg := 0

/-- The sixteen register numbers in increasing order (R20). -/
abbrev Reg.all : List Reg := [0, 1, 2, 3, 4, 5, 6, 7, 8, 9, 10, 11, 12, 13, 14, 15]

/-- A key code 0..15 (R6 KEY_CODES). -/
abbrev Key := Fin 16

/-- The framebuffer FB (R33): 32 rows of 64 one-bit cells. Row r holds the cells FB[64*r] .. FB[64*r + 63], and
bit c of row r is cell (c, r) = FB[c + 64*r]. -/
abbrev FrameBuffer := Vector (BitVec 64) 32

/-- MEM_SIZE (R6): the addresses are 0x000 .. 0xFFF. -/
abbrev memSize : Nat := 4096

/-- The number of framebuffer cells, 64 x 32 (R6, R33). -/
abbrev fbSize : Nat := 2048

/-- PC_RESET and PROG_BASE (R6). -/
abbrev progBase : Nat := 0x200

/-- MAX_PROGRAM (R6). -/
abbrev maxProgram : Nat := 3584

end Sys2Proof
end

