-- ==== Sys2Proof/Config.lean ====
section
/-! DEFINITION. What an implementation fixes and what nobody fixes: the parameters of spec/00_scope.md R7 and the free
values of spec/10_state.md R55. The default values of the parameters stand in Machine/Defaults.lean. -/

namespace Sys2Proof.Config

/-- INIT_STATE (R7, D3): whether registers and memory start at zero or hold no value until they are written. -/
inductive InitState where
  | zero
  | unwritten
  deriving DecidableEq, Repr

/-- SYS_POLICY (R7, R99, D4): whether 0NNN faults as an unknown word or does nothing. -/
inductive SysPolicy where
  | fault
  | nop
  deriving DecidableEq, Repr

/-- SHIFT_SRC (R7, D7): the register 8XY6 and 8XYE shift. -/
inductive ShiftSrc where
  | vx
  | vy
  deriving DecidableEq, Repr

/-- PLOT_ALIAS (R7, R252, D14): where a plot lands whose wrapped coordinate is outside the grid. -/
inductive PlotAlias where
  | linear
  | fault
  deriving DecidableEq, Repr

/-- The parameters of R7 that a rule of the machine reads. "The model takes these configuration parameters as arguments":
a State carries them unchanged (log entry 1), so that everything said of every state holds for every choice of them.
TONE_FREQ is `toneFreq` below. -/
structure Params where
  /-- SPEED: loop iterations of one cycle (R130, R135). -/
  speed : Nat
  /-- STACK_CAPACITY, at least 1 (R30, D2). -/
  stackCapacity : Nat
  /-- FONT: the 80 bytes at 0x000-0x04F after reset (R70, R72, D29). -/
  font : Vector Byte 80
  initState : InitState
  sysPolicy : SysPolicy
  shiftSrc : ShiftSrc
  /-- FLAG_LAST: whether the flag or the result is written last when both go to VF (R128, D8). -/
  flagLast : Bool
  plotAlias : PlotAlias
  deriving DecidableEq, Repr

/-- TONE_FREQ (R7: OPEN; N2, D28). No rule reads it and no value is sourced, so it has none here. R7 types it "frequency in
Hz" only; that it is a whole number of Hz is the model's choice (DESIGN CHOICE, log entry 2). -/
opaque toneFreq : Nat

/-- `draw_rand()` (R55, R193, D18): the byte of the n-th environment draw. A free value: nothing constrains it (log entry 3). -/
opaque randDraw : Nat → Byte

/-- `draw_key(k)` (R55, R280, R281, D17): the key state the n-th environment draw gives for a code k > 15.
A free value: nothing constrains it (log entry 3). -/
opaque keyDraw : Nat → Byte → Bool

end Sys2Proof.Config
end

