-- ==== Sys2Proof/Syntax.lean ====
section
/-! DEFINITION. The 34 instructions of spec/opcode_table.json, one constructor a row, in the table's order
(spec/30_encoding.md R96). The fields are those of R92. -/

namespace Sys2Proof

/-- An instruction. x and y are register numbers, nn an 8-bit immediate, nnn a 12-bit address, and n the sprite height of
DXYN, a count that Instr.wf bounds by 15 (R93). SYS 0NNN is not one of the 34 (INDEX.md, R99): the decoder reports it apart. -/
inductive Instr where
  | cls
  | ret
  | jp (nnn : Addr)
  | call (nnn : Addr)
  | seImm (x : Reg) (nn : Byte)
  | sneImm (x : Reg) (nn : Byte)
  | seReg (x y : Reg)
  | ldImm (x : Reg) (nn : Byte)
  | addImm (x : Reg) (nn : Byte)
  | ldReg (x y : Reg)
  | orReg (x y : Reg)
  | andReg (x y : Reg)
  | xorReg (x y : Reg)
  | addReg (x y : Reg)
  | subReg (x y : Reg)
  | shr (x y : Reg)
  | subn (x y : Reg)
  | shl (x y : Reg)
  | sneReg (x y : Reg)
  | ldI (nnn : Addr)
  | jpV0 (nnn : Addr)
  | rnd (x : Reg) (nn : Byte)
  | drw (x y : Reg) (n : Nat)
  | skp (x : Reg)
  | sknp (x : Reg)
  | ldVxDT (x : Reg)
  | ldVxK (x : Reg)
  | ldDTVx (x : Reg)
  | ldSTVx (x : Reg)
  | addIVx (x : Reg)
  | ldFVx (x : Reg)
  | ldBVx (x : Reg)
  | ldMemVx (x : Reg)
  | ldVxMem (x : Reg)
  deriving DecidableEq, Repr

end Sys2Proof
end

