-- ==== Sys2Proof/WellFormed.lean ====
section
/-! DEFINITION. The checks on what comes from outside the machine: an instruction as a term, the parameters, a program.
Register numbers, immediates and addresses are bounded by their types (spec/30_encoding.md R92, R93). -/

namespace Sys2Proof

/-- "n is a count from 0 to 15" (R93): the one field the type does not bound. Every other term is well formed. -/
def Instr.wf : Instr → Bool
  | .drw _ _ n => n < 16
  | .cls | .ret | .jp _ | .call _ | .seImm _ _ | .sneImm _ _ | .seReg _ _ | .ldImm _ _ | .addImm _ _ | .ldReg _ _
  | .orReg _ _ | .andReg _ _ | .xorReg _ _ | .addReg _ _ | .subReg _ _ | .shr _ _ | .subn _ _ | .shl _ _ | .sneReg _ _
  | .ldI _ | .jpV0 _ | .rnd _ _ | .skp _ | .sknp _ | .ldVxDT _ | .ldVxK _ | .ldDTVx _ | .ldSTVx _ | .addIVx _
  | .ldFVx _ | .ldBVx _ | .ldMemVx _ | .ldVxMem _ => true

/-- "STACK_CAPACITY: natural number >= 1" (R7). -/
def Config.Params.wf (p : Config.Params) : Bool := 1 ≤ p.stackCapacity

/-- "`program` of length at most 3584" (R50). -/
def programWf (program : List Byte) : Bool := program.length ≤ maxProgram

end Sys2Proof
end

