-- ==== Sys2Proof/Decode.lean ====
section
/-! DEFINITION. From bits to instructions and back (spec/30_encoding.md): the fields of R92, the opcode map of R96 to R99,
the encoder written from the formats of R94, and the rows of spec/opcode_table.json. -/

namespace Sys2Proof

/-- w[hi:lo], "the unsigned number held in bits hi down to lo inclusive" (00_scope.md R8). -/
def bits (w : Word) (hi lo : Nat) : Nat := w.toNat / 2 ^ lo % 2 ^ (hi - lo + 1)

/-- op = w[15:12], "selects the family" (R92). -/
def fieldOp (w : Word) : Nat := bits w 15 12

/-- x = w[11:8] (R92). -/
def fieldX (w : Word) : Reg := Fin.ofNat 16 (bits w 11 8)

/-- y = w[7:4] (R92). -/
def fieldY (w : Word) : Reg := Fin.ofNat 16 (bits w 7 4)

/-- n = w[3:0] (R92). -/
def fieldN (w : Word) : Nat := bits w 3 0

/-- nn = w[7:0] (R92). -/
def fieldNN (w : Word) : Byte := BitVec.ofNat 8 (bits w 7 0)

/-- nnn = w[11:0] (R92). -/
def fieldNNN (w : Word) : Addr := BitVec.ofNat 12 (bits w 11 0)

/-- What a word decodes to (R95, R99): one of the 34 instructions, `SYS nnn` (only under SYS_POLICY = nop), or Unknown.
Unknown is the decoder's rejection by name: the step answers it with UnknownOpcode. -/
inductive Decoded where
  | instr (i : Instr)
  | sys (nnn : Addr)
  | unknown
  deriving DecidableEq, Repr

/-- Family 0: the whole word is compared (R97); any other word is Unknown or SYS, as SYS_POLICY says (R99). -/
def decode0 (pol : Config.SysPolicy) (w : Word) : Decoded :=
  if w = 0x00E0#16 then .instr .cls
  else if w = 0x00EE#16 then .instr .ret
  else match pol with
    | .fault => .unknown
    | .nop => .sys (fieldNNN w)

/-- Family 8: the selector is n (R96, R97). -/
def decode8 (w : Word) (n : Nat) : Decoded :=
  match n with
  | 0x0 => .instr (.ldReg (fieldX w) (fieldY w))
  | 0x1 => .instr (.orReg (fieldX w) (fieldY w))
  | 0x2 => .instr (.andReg (fieldX w) (fieldY w))
  | 0x3 => .instr (.xorReg (fieldX w) (fieldY w))
  | 0x4 => .instr (.addReg (fieldX w) (fieldY w))
  | 0x5 => .instr (.subReg (fieldX w) (fieldY w))
  | 0x6 => .instr (.shr (fieldX w) (fieldY w))
  | 0x7 => .instr (.subn (fieldX w) (fieldY w))
  | 0xE => .instr (.shl (fieldX w) (fieldY w))
  | _ => .unknown

/-- Family E: the selector is nn (R96, R97). -/
def decodeE (w : Word) : Decoded :=
  if fieldNN w = 0x9E#8 then .instr (.skp (fieldX w))
  else if fieldNN w = 0xA1#8 then .instr (.sknp (fieldX w))
  else .unknown

/-- Family F: the selector is nn (R96, R97). -/
def decodeF (w : Word) : Decoded :=
  if fieldNN w = 0x07#8 then .instr (.ldVxDT (fieldX w))
  else if fieldNN w = 0x0A#8 then .instr (.ldVxK (fieldX w))
  else if fieldNN w = 0x15#8 then .instr (.ldDTVx (fieldX w))
  else if fieldNN w = 0x18#8 then .instr (.ldSTVx (fieldX w))
  else if fieldNN w = 0x1E#8 then .instr (.addIVx (fieldX w))
  else if fieldNN w = 0x29#8 then .instr (.ldFVx (fieldX w))
  else if fieldNN w = 0x33#8 then .instr (.ldBVx (fieldX w))
  else if fieldNN w = 0x55#8 then .instr (.ldMemVx (fieldX w))
  else if fieldNN w = 0x65#8 then .instr (.ldVxMem (fieldX w))
  else .unknown

/-- The opcode map by high nibble (R96). A nibble is below 16, so the last arm is never reached. -/
def decodeFamily (pol : Config.SysPolicy) (w : Word) (op : Nat) : Decoded :=
  match op with
  | 0x0 => decode0 pol w
  | 0x1 => .instr (.jp (fieldNNN w))
  | 0x2 => .instr (.call (fieldNNN w))
  | 0x3 => .instr (.seImm (fieldX w) (fieldNN w))
  | 0x4 => .instr (.sneImm (fieldX w) (fieldNN w))
  | 0x5 => if fieldN w = 0 then .instr (.seReg (fieldX w) (fieldY w)) else .unknown
  | 0x6 => .instr (.ldImm (fieldX w) (fieldNN w))
  | 0x7 => .instr (.addImm (fieldX w) (fieldNN w))
  | 0x8 => decode8 w (fieldN w)
  | 0x9 => if fieldN w = 0 then .instr (.sneReg (fieldX w) (fieldY w)) else .unknown
  | 0xA => .instr (.ldI (fieldNNN w))
  | 0xB => .instr (.jpV0 (fieldNNN w))
  | 0xC => .instr (.rnd (fieldX w) (fieldNN w))
  | 0xD => .instr (.drw (fieldX w) (fieldY w) (fieldN w))
  | 0xE => decodeE w
  | 0xF => decodeF w
  | _ => .unknown

/-- Decoding, total on every word (R95). -/
def decode (pol : Config.SysPolicy) (w : Word) : Decoded := decodeFamily pol w (fieldOp w)

/-- "opcode = (mem[A] << 8) | mem[A+1]": the byte at the lower address is bits 15..8 (20_memory.md R67, R90). -/
def wordOfBytes (hi lo : Byte) : Word := BitVec.ofNat 16 (hi.toNat * 256 + lo.toNat)

/-- The byte of a word that stands at the lower address (R67). -/
def highByte (w : Word) : Byte := BitVec.ofNat 8 (bits w 15 8)

/-- The byte of a word that stands at the higher address (R67). -/
def lowByte (w : Word) : Byte := BitVec.ofNat 8 (bits w 7 0)

/-- Decode the first opcode of a run of bytes and leave the rest (R91: "exactly one 16-bit opcode, two bytes").
Fewer than two bytes hold no opcode. -/
def decodeBytes (pol : Config.SysPolicy) : List Byte → Option (Decoded × List Byte)
  | hi :: lo :: rest => some (decode pol (wordOfBytes hi lo), rest)
  | _ => none

/-- A word from its four nibbles, bit 15 first (R94). -/
def assemble (op x y n : Nat) : Word := BitVec.ofNat 16 (op * 4096 + x * 256 + y * 16 + n)

/-- Format A, `oooo NNNN NNNN NNNN` (R94). -/
def formatA (op : Nat) (nnn : Addr) : Word := BitVec.ofNat 16 (op * 4096 + nnn.toNat)

/-- Formats XK and X, `oooo XXXX KKKK KKKK` with K an immediate or a fixed selector (R94). -/
def formatXK (op : Nat) (x : Reg) (nn : Byte) : Word := BitVec.ofNat 16 (op * 4096 + x.val * 256 + nn.toNat)

/-- Formats XY and XYN, `oooo XXXX YYYY NNNN` with N a literal or a fixed selector (R94). -/
def formatXYN (op : Nat) (x y : Reg) (n : Nat) : Word := assemble op x.val y.val n

/-- The word of an instruction, from the formats of R94 and the encodings of R96 (the syntax table of R101). -/
def encode : Instr → Word
  | .cls => 0x00E0#16
  | .ret => 0x00EE#16
  | .jp nnn => formatA 0x1 nnn
  | .call nnn => formatA 0x2 nnn
  | .seImm x nn => formatXK 0x3 x nn
  | .sneImm x nn => formatXK 0x4 x nn
  | .seReg x y => formatXYN 0x5 x y 0x0
  | .ldImm x nn => formatXK 0x6 x nn
  | .addImm x nn => formatXK 0x7 x nn
  | .ldReg x y => formatXYN 0x8 x y 0x0
  | .orReg x y => formatXYN 0x8 x y 0x1
  | .andReg x y => formatXYN 0x8 x y 0x2
  | .xorReg x y => formatXYN 0x8 x y 0x3
  | .addReg x y => formatXYN 0x8 x y 0x4
  | .subReg x y => formatXYN 0x8 x y 0x5
  | .shr x y => formatXYN 0x8 x y 0x6
  | .subn x y => formatXYN 0x8 x y 0x7
  | .shl x y => formatXYN 0x8 x y 0xE
  | .sneReg x y => formatXYN 0x9 x y 0x0
  | .ldI nnn => formatA 0xA nnn
  | .jpV0 nnn => formatA 0xB nnn
  | .rnd x nn => formatXK 0xC x nn
  | .drw x y n => formatXYN 0xD x y n
  | .skp x => formatXK 0xE x 0x9E#8
  | .sknp x => formatXK 0xE x 0xA1#8
  | .ldVxDT x => formatXK 0xF x 0x07#8
  | .ldVxK x => formatXK 0xF x 0x0A#8
  | .ldDTVx x => formatXK 0xF x 0x15#8
  | .ldSTVx x => formatXK 0xF x 0x18#8
  | .addIVx x => formatXK 0xF x 0x1E#8
  | .ldFVx x => formatXK 0xF x 0x29#8
  | .ldBVx x => formatXK 0xF x 0x33#8
  | .ldMemVx x => formatXK 0xF x 0x55#8
  | .ldVxMem x => formatXK 0xF x 0x65#8

/-- One row of spec/opcode_table.json: a word is of the row when its bits under the mask are the pattern. -/
structure OpcodeRow where
  pattern : Word
  mask : Word
  deriving DecidableEq, Repr

/-- Whether a word is of a row of the table. -/
def OpcodeRow.fits (r : OpcodeRow) (w : Word) : Prop := w &&& r.mask = r.pattern

/-- The row of the instruction's mnemonic, copied from the "match" and "mask" of spec/opcode_table.json: a second,
independent transcription of the map that decode and encode are held against. -/
def Instr.row : Instr → OpcodeRow
  | .cls => ⟨0x00E0#16, 0xFFFF#16⟩
  | .ret => ⟨0x00EE#16, 0xFFFF#16⟩
  | .jp _ => ⟨0x1000#16, 0xF000#16⟩
  | .call _ => ⟨0x2000#16, 0xF000#16⟩
  | .seImm _ _ => ⟨0x3000#16, 0xF000#16⟩
  | .sneImm _ _ => ⟨0x4000#16, 0xF000#16⟩
  | .seReg _ _ => ⟨0x5000#16, 0xF00F#16⟩
  | .ldImm _ _ => ⟨0x6000#16, 0xF000#16⟩
  | .addImm _ _ => ⟨0x7000#16, 0xF000#16⟩
  | .ldReg _ _ => ⟨0x8000#16, 0xF00F#16⟩
  | .orReg _ _ => ⟨0x8001#16, 0xF00F#16⟩
  | .andReg _ _ => ⟨0x8002#16, 0xF00F#16⟩
  | .xorReg _ _ => ⟨0x8003#16, 0xF00F#16⟩
  | .addReg _ _ => ⟨0x8004#16, 0xF00F#16⟩
  | .subReg _ _ => ⟨0x8005#16, 0xF00F#16⟩
  | .shr _ _ => ⟨0x8006#16, 0xF00F#16⟩
  | .subn _ _ => ⟨0x8007#16, 0xF00F#16⟩
  | .shl _ _ => ⟨0x800E#16, 0xF00F#16⟩
  | .sneReg _ _ => ⟨0x9000#16, 0xF00F#16⟩
  | .ldI _ => ⟨0xA000#16, 0xF000#16⟩
  | .jpV0 _ => ⟨0xB000#16, 0xF000#16⟩
  | .rnd _ _ => ⟨0xC000#16, 0xF000#16⟩
  | .drw _ _ _ => ⟨0xD000#16, 0xF000#16⟩
  | .skp _ => ⟨0xE09E#16, 0xF0FF#16⟩
  | .sknp _ => ⟨0xE0A1#16, 0xF0FF#16⟩
  | .ldVxDT _ => ⟨0xF007#16, 0xF0FF#16⟩
  | .ldVxK _ => ⟨0xF00A#16, 0xF0FF#16⟩
  | .ldDTVx _ => ⟨0xF015#16, 0xF0FF#16⟩
  | .ldSTVx _ => ⟨0xF018#16, 0xF0FF#16⟩
  | .addIVx _ => ⟨0xF01E#16, 0xF0FF#16⟩
  | .ldFVx _ => ⟨0xF029#16, 0xF0FF#16⟩
  | .ldBVx _ => ⟨0xF033#16, 0xF0FF#16⟩
  | .ldMemVx _ => ⟨0xF055#16, 0xF0FF#16⟩
  | .ldVxMem _ => ⟨0xF065#16, 0xF0FF#16⟩

/-- The bytes, lowest address first, of the 16-bit word whose bits are w's low nbits, bit 0 the least significant bit
of the word: the layout of R67. An instruction is one word (R91), so bits from 16 on have no place in it. -/
def tableBytes (nbits w : Nat) : List Byte :=
  [highByte (BitVec.ofNat 16 (w % 2 ^ nbits)), lowByte (BitVec.ofNat 16 (w % 2 ^ nbits))]

/-- What the decoder reads from an instruction whose bits are w, numbered as spec/opcode_table.json numbers them; none
where it rejects the word (Unknown, the default SYS_POLICY). -/
def decodeTableWord (nbits w : Nat) : Option Instr :=
  match decodeBytes .fault (tableBytes nbits w) with
  | some (.instr i, _) => some i
  | _ => none

end Sys2Proof
end

