-- ==== Sys2Proof/Machine/Memory.lean ====
section
/-! DEFINITION. The 4096-byte memory as a list of cells in one canonical form (spec/20_memory.md R60, R63, R75): addresses
strictly rising, no entry equal to what an unlisted address reads as. -/

namespace Sys2Proof.Machine.Memory

/-- What an address that nothing has written since the reset reads as: the font byte at 0x000-0x04F, elsewhere 0, or no
value under INIT_STATE = unwritten (R70, 10_state.md R44). -/
def resetByte (p : Config.Params) (a : Nat) : Option Byte :=
  if h : a < 80 then some p.font[a]
  else match p.initState with
    | .zero => some 0
    | .unwritten => none

/-- The byte listed for an address, if any. -/
def find : List Host.Cell → Nat → Option Byte
  | [], _ => none
  | (k, b) :: m, a => if k = a then some b else find m a

/-- The byte at an address: "the most recent write to that address, or the reset value if nothing has written it" (R75). -/
def get (p : Config.Params) (m : List Host.Cell) (a : Nat) : Option Byte :=
  match find m a with
  | some b => some b
  | none => resetByte p a

/-- List a byte at its place in the rising order, replacing the entry of the same address. -/
def insert (a : Nat) (b : Byte) : List Host.Cell → List Host.Cell
  | [] => [(a, b)]
  | (k, c) :: m =>
    if a < k then (a, b) :: (k, c) :: m
    else if a = k then (a, b) :: m
    else (k, c) :: insert a b m

/-- Unlist an address. -/
def erase (a : Nat) : List Host.Cell → List Host.Cell
  | [] => []
  | (k, c) :: m => if k = a then erase a m else (k, c) :: erase a m

/-- Write one byte (R10 MemWrite), keeping the canonical form. -/
def set (p : Config.Params) (a : Nat) (b : Byte) (m : List Host.Cell) : List Host.Cell :=
  if resetByte p a = some b then erase a m else insert a b m

/-- Write bytes at consecutive increasing addresses (R68). -/
def setAll (p : Config.Params) : Nat → List Byte → List Host.Cell → List Host.Cell
  | _, [], m => m
  | a, b :: bs, m => setAll p (a + 1) bs (set p a b m)

/-- The canonical form: rising addresses below 4096, no entry that says what an unlisted address says anyway. -/
def wf (p : Config.Params) (m : List Host.Cell) : Bool :=
  decide (m.Pairwise fun c d => c.1 < d.1) && m.all fun c => decide (c.1 < memSize) && decide (resetByte p c.1 ≠ some c.2)

end Sys2Proof.Machine.Memory
end

