-- ==== Sys2Proof/Machine/State.lean ====
section
/-! DEFINITION. The state of the core and of what stands beside it (spec/10_state.md), the outcomes of a step, and the
state right after reset. -/

namespace Sys2Proof.Machine

/-- The fault kinds of the hardware (60_exceptions.md R310). Raising one is no stop of the model: the step takes it and
answers the state with the fault latched (R312). -/
inductive FaultKind where
  | unknownOpcode
  | stackOverflow
  | stackUnderflow
  | memoryOutOfBounds
  | plotOutOfRange
  deriving DecidableEq, Repr

/-- A fault record (kind, pc, opcode, addr) (R35). -/
structure FaultRecord where
  kind : FaultKind
  /-- The fetch address A of the faulting step. -/
  pc : Word
  /-- The word, or none when the fetch itself faulted. -/
  opcode : Option Word
  /-- The first out-of-range address for MemoryOutOfBounds, else none. -/
  addr : Option Nat
  deriving DecidableEq, Repr

/-- The registers that hold no value at reset under INIT_STATE = unwritten (R41). -/
inductive RegName where
  | v (x : Reg)
  | i
  | dt
  | st
  deriving DecidableEq, Repr

/-- What ReadBeforeWrite names: a register or a memory byte (R311). -/
inductive Location where
  | reg (r : RegName)
  | mem (a : Nat)
  deriving DecidableEq, Repr

/-- Why the model stops with a fault. -/
inductive Fault where
  /-- R311 (a): under INIT_STATE = unwritten an instruction, or its fetch, read what nothing has written. Raised by every
  meaning that reads and by the fetch; never under INIT_STATE = zero, so never on a run from State.reset. Safe: the
  model stops where the reference goes on. -/
  | readBeforeWrite (l : Location)
  deriving DecidableEq, Repr

/-- Why the model refuses. -/
inductive Refusal where
  /-- Raised by an arm of exec that has no meaning yet; no arm does. Safe. -/
  | notModelled (mnemonic : String)
  /-- R50, R311 (b): a Reset with a program longer than 3584 bytes "has no meaning and the model refuses it". Raised by the
  Reset transaction. Safe. -/
  | programTooLong (length : Nat)
  /-- R343: "A `Cycle()` before any `Reset` has no meaning and is refused." Raised by the Cycle transaction. Safe. -/
  | cycleBeforeReset
  deriving DecidableEq, Repr

/-- Where the core stands between and within transactions (R130; log entry 6). -/
inductive Phase where
  /-- No Reset has been issued yet (R343). -/
  | awaitingReset
  /-- Between transactions: the only place a key event or a Reset can arrive (R52, R317). -/
  | idle
  /-- Within a cycle, this many iterations of its loop still to run (R130). -/
  | cycle (left : Nat)
  deriving DecidableEq, Repr

/-- What the host can ask (R50, R51, R52). -/
inductive Transaction where
  | reset (program : List Byte)
  | cycle
  | keyDown (k : Key)
  | keyUp (k : Key)
  deriving DecidableEq, Repr

/-- What a completed cycle emits (R53). -/
inductive Output where
  | toneStart
  | toneStop
  | repaint (fb : FrameBuffer)
  deriving DecidableEq, Repr

/-- "ToneStart(TONE_FREQ)" (R53): the frequency a tone command carries. -/
def Output.frequency : Output → Option Nat
  | .toneStart => some Config.toneFreq
  | .toneStop | .repaint _ => none

/-- The whole state: plain data. -/
structure State where
  /-- The parameters, carried unchanged (R7, R39; log entry 1). -/
  params : Config.Params
  /-- V0..VF (R20). -/
  v : Vector Byte 16
  /-- The index register I (R29). -/
  i : Word
  /-- The program counter (R25). -/
  pc : Word
  /-- The call stack, "a stack with its top at the end" (R30). -/
  stack : List Word
  /-- The delay timer DT (R31). -/
  dt : Byte
  /-- The sound timer ST (R32). -/
  st : Byte
  /-- The framebuffer FB (R33). -/
  fb : FrameBuffer
  /-- The execution-mode flag (R34). -/
  paused : Bool
  /-- The key-wait latch (R34). -/
  waitReg : Option Reg
  /-- The fault latch (R35). -/
  fault : Option FaultRecord
  /-- Memory (R60), listing what differs from Memory.resetByte. -/
  mem : List Host.Cell
  /-- The key levels KEYS (R52). -/
  keys : BitVec 16
  /-- The registers that hold no value yet (R41): empty under INIT_STATE = zero (log entry 4). -/
  unwritten : List RegName
  phase : Phase
  /-- The transactions the host has issued and the core has not yet taken, oldest first; the host goes on with Cycle()
  (R51; log entry 7). -/
  inbox : List Transaction
  /-- What the latest transaction has emitted, in order (R53; log entry 8). -/
  outputs : List Output
  /-- How many environment draws have been taken (R55; log entry 3): the model's own, not the spec's. -/
  draws : Nat
  deriving DecidableEq, Repr

/-- What a meaning answers: a next state, a stop or a refusal. -/
abbrev Result := Host.Outcome State Fault Refusal

/-- The state right after Reset with the empty program and the default parameters (R40 to R44, 70_reset_and_hazards.md R340;
log entries 10 and 11). -/
def State.reset : State where
  params := defaultParams
  v := Vector.replicate 16 0
  i := 0
  pc := 0x200
  stack := []
  dt := 0
  st := 0
  fb := Vector.replicate 32 0
  paused := false
  waitReg := none
  fault := none
  mem := []
  keys := 0
  unwritten := []
  phase := .idle
  inbox := []
  outputs := []
  draws := 0

end Sys2Proof.Machine
end

