-- ==== Sys2Proof/Machine/Ops.lean ====
section
/-! DEFINITION. The named operations over registers, memory, stack and framebuffer, and taking a fault, which every meaning
is written with (spec/00_scope.md R10). -/

namespace Sys2Proof.Machine

/-- The cell FB[k] (R33): cell (cx, cy) is k = cx + 64*cy. There is no cell from 2048 on. -/
def cellOf (fb : FrameBuffer) (k : Nat) : Bool := (fb[k / 64]?.getD 0).getLsbD (k % 64)

/-- The framebuffer with cell k turned over, `FB[k] <- FB[k] ^ 1` (R251). -/
def flipCell (k : Nat) (fb : FrameBuffer) : FrameBuffer :=
  if h : k / 64 < 32 then fb.set (k / 64) (fb[k / 64] ^^^ BitVec.twoPow 64 (k % 64)) else fb

namespace State

/-- V[x] as an instruction reads it; none where the register holds no value yet (R20, R41). -/
def getV (s : State) (x : Reg) : Option Byte :=
  if RegName.v x ∈ s.unwritten then none else some s.v[x.val]

/-- I as an instruction reads it (R29, R41). -/
def getI (s : State) : Option Word := if RegName.i ∈ s.unwritten then none else some s.i

/-- DT as an instruction reads it (R31, R41). -/
def getDT (s : State) : Option Byte := if RegName.dt ∈ s.unwritten then none else some s.dt

/-- ST (R32, R41). No instruction reads it. -/
def getST (s : State) : Option Byte := if RegName.st ∈ s.unwritten then none else some s.st

/-- From now on the register holds a value. -/
def markWritten (r : RegName) (s : State) : State :=
  { s with unwritten := s.unwritten.filter fun q => decide (q ≠ r) }

/-- V[x] <- b. "No general register is hardwired" (R21). -/
def setV (x : Reg) (b : Byte) (s : State) : State :=
  { s.markWritten (.v x) with v := s.v.set x.val b }

/-- I <- w. -/
def setI (w : Word) (s : State) : State := { s.markWritten .i with i := w }

/-- DT <- b. -/
def setDT (b : Byte) (s : State) : State := { s.markWritten .dt with dt := b }

/-- ST <- b. -/
def setST (b : Byte) (s : State) : State := { s.markWritten .st with st := b }

/-- Write several registers in order. -/
def setVs : List (Reg × Byte) → State → State
  | [], s => s
  | (x, b) :: l, s => setVs l (s.setV x b)

/-- The byte at an address; none where it holds no value yet (R60, R44). -/
def byte (s : State) (a : Nat) : Option Byte := Memory.get s.params s.mem a

/-- Write bytes at consecutive increasing addresses from `base` (R68). -/
def setBytes (base : Nat) (bs : List Byte) (s : State) : State :=
  { s with mem := Memory.setAll s.params base bs s.mem }

/-- The cell FB[k] of the state's framebuffer (R33). -/
def cell (s : State) (k : Nat) : Bool := cellOf s.fb k

/-- PC <- w. -/
def setPC (w : Word) (s : State) : State := { s with pc := w }

/-- The advance of the fetch, PC <- trunc_16(A + 2) (R90, R25). -/
def advance (s : State) : State := { s with pc := s.pc + 2 }

/-- A, "the address the current instruction was fetched from": while an instruction executes, PC is trunc_16(A + 2) (R11). -/
def fetchAddr (s : State) : Word := s.pc - 2

/-- `if c then PC <- trunc_16(PC + 2)`: a conditional skip (R158). -/
def skipIf (c : Bool) (s : State) : State := if c then { s with pc := s.pc + 2 } else s

/-- Push(v) (R30): v goes to the end of the stack, its top. -/
def push (w : Word) (s : State) : State := { s with stack := s.stack ++ [w] }

/-- The stack without its top (R30). -/
def dropTop (s : State) : State := { s with stack := s.stack.dropLast }

/-- FB <- fb (R33). -/
def setFB (fb : FrameBuffer) (s : State) : State := { s with fb := fb }

/-- `paused <- 1`, `waitReg <- x` (R34): a key-wait begins. -/
def waitForKey (x : Reg) (s : State) : State := { s with paused := true, waitReg := some x }

/-- `paused <- 0`, `waitReg <- none` (R34): a key-wait ends. -/
def endWait (s : State) : State := { s with paused := false, waitReg := none }

/-- KEYS <- ks (R52). -/
def setKeys (ks : BitVec 16) (s : State) : State := { s with keys := ks }

/-- The outputs of the transaction under way (R53). -/
def setOutputs (o : List Output) (s : State) : State := { s with outputs := o }

/-- Where the core stands in its transactions (R130). -/
def setPhase (p : Phase) (s : State) : State := { s with phase := p }

/-- An environment draw has been taken (R55). -/
def tookDraw (s : State) : State := { s with draws := s.draws + 1 }

/-- TAKING A FAULT (R312): latch the record and end the cycle; the latch is what halts the core (see `halted`). There is no
handler, vector or saved state, and no return (R314): the one way out is Reset (Cycle.lean, afterReset). -/
def raise (kind : FaultKind) (pc : Word) (opcode : Option Word) (addr : Option Nat) (s : State) : State :=
  { s with fault := some ⟨kind, pc, opcode, addr⟩, phase := .idle }

/-- A fault of the execute stage: the record holds A and the word of the running instruction (R123, R313; log entry 9). -/
def raiseIn (i : Instr) (kind : FaultKind) (addr : Option Nat) (s : State) : State :=
  s.raise kind s.fetchAddr (some (encode i)) addr

/-- "Once `fault != none` the core is halted" (R35). -/
def halted (s : State) : Bool := s.fault.isSome

end State

end Sys2Proof.Machine
end

