-- ==== Sys2Proof/Machine/Operands.lean ====
section
/-! DEFINITION. Reading operands: each operation reads, binds what it read and goes on (spec/40_execution.md R126), or stops
the model where nothing has been written yet (60_exceptions.md R311). -/

namespace Sys2Proof.Machine

/-- The location holds no value (R41, R44). -/
def HoldsNoValue (s : State) : Location → Prop
  | .reg (.v x) => s.getV x = none
  | .reg .i => s.getI = none
  | .reg .dt => s.getDT = none
  | .reg .st => s.getST = none
  | .mem a => s.byte a = none

/-- `let a = V[x]`. -/
def withV (x : Reg) (s : State) (k : Byte → Result) : Result :=
  match s.getV x with
  | some a => k a
  | none => .fault (.readBeforeWrite (.reg (.v x)))

/-- `let base = I`. -/
def withI (s : State) (k : Word → Result) : Result :=
  match s.getI with
  | some a => k a
  | none => .fault (.readBeforeWrite (.reg .i))

/-- `DT` as a source. -/
def withDT (s : State) (k : Byte → Result) : Result :=
  match s.getDT with
  | some a => k a
  | none => .fault (.readBeforeWrite (.reg .dt))

/-- The values of several registers, read in order. -/
def withVs : List Reg → State → (List (Reg × Byte) → Result) → Result
  | [], _, k => k []
  | x :: xs, s, k => withV x s fun a => withVs xs s fun l => k ((x, a) :: l)

/-- MemRead(addr, 1) at an address already known to be in range (R10, R63). -/
def withByte (a : Nat) (s : State) (k : Byte → Result) : Result :=
  match s.byte a with
  | some b => k b
  | none => .fault (.readBeforeWrite (.mem a))

/-- n bytes from consecutive increasing addresses (R68). -/
def withBytes : Nat → Nat → State → (List Byte → Result) → Result
  | _, 0, _, k => k []
  | a, n + 1, s, k => withByte a s fun b => withBytes (a + 1) n s fun bs => k (b :: bs)

/-- The range test of a memory-accessing instruction (43_index_memory.md, 44_display.md R253): the n addresses from `base`
on must all be below 4096, "no wrap" (R62, R63); else MemoryOutOfBounds with "the first out-of-range address",
max(base, 4096), and nothing has been read or written (R123). -/
def checkRange (i : Instr) (base n : Nat) (s : State) (k : Result) : Result :=
  if 0 < n ∧ memSize < base + n then .next (s.raiseIn i .memoryOutOfBounds (some (max base memSize))) else k

/-- Whether key `code` is down: its level for a code 0..15, a free draw for any other (R280, R286; log entry 3). -/
def withKey (code : Byte) (s : State) (k : Bool → State → Result) : Result :=
  if code.toNat ≤ 15 then k (s.keys.getLsbD code.toNat) s
  else k (Config.keyDraw s.draws code) s.tookDraw

/-- V0..Vx inclusive (R224, R225). -/
def regsUpTo (x : Reg) : List Reg := Reg.all.filter fun r => decide (r ≤ x)

/-- The register 8XY6 and 8XYE shift (R190, R192, SHIFT_SRC). -/
def shiftReg (s : State) (x y : Reg) : Reg :=
  match s.params.shiftSrc with
  | .vx => x
  | .vy => y

end Sys2Proof.Machine
end

