-- ==== Sys2Proof/Machine/Cycle.lean ====
section
/-! DEFINITION. Around the instructions: the end of a cycle, key events and reset (spec/40_execution.md R130 to R138,
10_state.md R50 to R54, 70_reset_and_hazards.md R340 to R343). -/

namespace Sys2Proof.Machine

namespace State

/-- One timer's decrement, "a timer at 0 stays 0" (R132). -/
def countDown (b : Byte) : Byte := if b = 0 then 0 else b - 1

/-- The timer tick: only while not paused (R132). A timer that holds no value yet counts as the 0 it has in R344 and goes on
holding none (log entry 5). -/
def tick (s : State) : State :=
  if s.paused then s else { s with dt := countDown s.dt, st := countDown s.st }

/-- The tone command: ToneStart if ST > 0, else ToneStop (R133). -/
def toneCommand (s : State) : Output := if s.st = 0 then .toneStop else .toneStart

/-- The end of a cycle whose steps did not fault: tick, tone command, repaint (R130, R132 to R134). -/
def endCycle (s : State) : State :=
  (s.tick.setOutputs [s.tick.toneCommand, .repaint s.fb]).setPhase .idle

/-- The start of `cycle()` on a core that is not halted: SPEED iterations lie ahead (R130). -/
def startCycle (s : State) : State := (s.setOutputs []).setPhase (.cycle s.params.speed)

/-- `KEYS[k] <- 1` (R52); a key event emits nothing. -/
def keyLevelUp (k : Key) (s : State) : State := (s.setKeys (s.keys ||| BitVec.twoPow 16 k.val)).setOutputs []

/-- `KeyDown(k)`: the level is set, and a pending key-wait of a core that is not halted completes (R52, R136, R312). -/
def keyDown (k : Key) (s : State) : State :=
  let t := s.keyLevelUp k
  if t.halted then t
  else if t.paused then
    match t.waitReg with
    | some x => (t.setV x (BitVec.ofNat 8 k.val)).endWait
    | none => t.endWait
  else t

/-- `KeyUp(k)`: "sets `KEYS[k] <- 0` and does nothing else" (R52). -/
def keyUp (k : Key) (s : State) : State :=
  (s.setKeys (s.keys &&& ~~~BitVec.twoPow 16 k.val)).setOutputs []

/-- The registers that hold no value right after reset (R41). -/
def unwrittenAtReset (p : Config.Params) : List RegName :=
  match p.initState with
  | .zero => []
  | .unwritten => Reg.all.map .v ++ [.i, .dt, .st]

/-- The reset sequence with a program that fits (R340). Font and zero fill are what an unlisted address reads as
(Memory.resetByte), so only the program is listed. It keeps the parameters, what the host has still to ask (the inbox) and
the environment's draw count; everything else the core held is discarded (R342). -/
def afterReset (program : List Byte) (s : State) : State where
  params := s.params
  v := Vector.replicate 16 0
  i := 0
  pc := 0x200
  stack := []
  dt := 0
  st := 0
  fb := Vector.replicate 32 0
  paused := false
  waitReg := none
  fault := none
  mem := Memory.setAll s.params progBase program []
  keys := 0
  unwritten := unwrittenAtReset s.params
  phase := .idle
  inbox := s.inbox
  outputs := []
  draws := s.draws

/-- A core no Reset has reached yet (R343; log entry 16). -/
def beforeReset (p : Config.Params) : State :=
  { State.reset with params := p, unwritten := unwrittenAtReset p, phase := .awaitingReset }

/-- The numeric codes of R310, "Code 0 means no fault". -/
def faultCode (s : State) : Nat :=
  match s.fault with
  | none => 0
  | some ⟨.unknownOpcode, _, _, _⟩ => 1
  | some ⟨.stackOverflow, _, _, _⟩ => 2
  | some ⟨.stackUnderflow, _, _, _⟩ => 3
  | some ⟨.memoryOutOfBounds, _, _, _⟩ => 4
  | some ⟨.plotOutOfRange, _, _, _⟩ => 5

/-- What the host may read between transactions (R54). -/
def status (s : State) : Option FaultRecord × Bool × FrameBuffer := (s.fault, s.paused, s.fb)

end State

/-- `Reset(program)`: refused when the program is longer than 3584 bytes (R50). -/
def doReset (program : List Byte) (s : State) : Result :=
  if programWf program then .next (s.afterReset program) else .refused (.programTooLong program.length)

/-- `Cycle()` begins: refused before any Reset (R343); no effect and no output on a halted core (R130, R312). -/
def doCycle (s : State) : Result :=
  match s.phase with
  | .awaitingReset => .refused .cycleBeforeReset
  | .idle | .cycle _ => if s.halted then .next (s.setOutputs []) else .next s.startCycle

/-- One transaction of the host (R50 to R52). -/
def transact (t : Transaction) (s : State) : Result :=
  match t with
  | .reset program => doReset program s
  | .cycle => doCycle s
  | .keyDown k => .next (s.keyDown k)
  | .keyUp k => .next (s.keyUp k)

/-- The core takes the host's oldest transaction; a host with nothing else to ask asks for a cycle (R51, log entry 7). -/
def takeTransaction (s : State) : Result :=
  match s.inbox with
  | t :: ts => transact t { s with inbox := ts }
  | [] => transact .cycle s

end Sys2Proof.Machine
end

