-- ==== Sys2Proof/Machine/Flags.lean ====
section
/-! DEFINITION. The values VF is given as a flag, and the order of the two writes (spec/10_state.md R24, 40_execution.md R128). -/

namespace Sys2Proof.Machine

/-- "That value is 1 or 0" (R24). -/
def flagByte (c : Bool) : Byte := if c then 1 else 0

/-- 8XY4: the 9-bit sum exceeds 255 (R188). -/
def carryFlag (a b : Byte) : Byte := flagByte (decide (255 < a.toNat + b.toNat))

/-- 8XY5 and 8XY7: no borrow, minuend >= subtrahend (R189, R191). -/
def noBorrowFlag (minuend subtrahend : Byte) : Byte := flagByte (decide (subtrahend.toNat ≤ minuend.toNat))

/-- 8XY6: bit 0, the bit shifted out (R190). -/
def shrFlag (v : Byte) : Byte := flagByte (v.getLsbD 0)

/-- 8XYE: bit 7, the bit shifted out (R192). -/
def shlFlag (v : Byte) : Byte := flagByte (v.getLsbD 7)

/-- `write_result_and_flag(x, r, f)` (42_alu.md, R128): both are computed already; FLAG_LAST says which VF keeps when x = F. -/
def writeResultAndFlag (x : Reg) (r f : Byte) (s : State) : State :=
  if s.params.flagLast then (s.setV x r).setV .VF f else (s.setV .VF f).setV x r

end Sys2Proof.Machine
end

