-- ==== Sys2Proof/Machine/Alu.lean ====
section
/-! DEFINITION. Register arithmetic and logic (spec/42_alu.md): every result is reduced modulo 256 (R194). -/

namespace Sys2Proof.Machine

/-- R180 LD Vx, nn. -/
def execLdImm (x : Reg) (nn : Byte) (s : State) : Result := .next (s.setV x nn)

/-- R181 ADD Vx, nn: no flag. -/
def execAddImm (x : Reg) (nn : Byte) (s : State) : Result := withV x s fun a => .next (s.setV x (a + nn))

/-- R182 LD Vx, Vy. -/
def execLdReg (x y : Reg) (s : State) : Result := withV y s fun b => .next (s.setV x b)

/-- R183 OR Vx, Vy. -/
def execOrReg (x y : Reg) (s : State) : Result := withV x s fun a => withV y s fun b => .next (s.setV x (a ||| b))

/-- R184 AND Vx, Vy. -/
def execAndReg (x y : Reg) (s : State) : Result := withV x s fun a => withV y s fun b => .next (s.setV x (a &&& b))

/-- R185 XOR Vx, Vy. -/
def execXorReg (x y : Reg) (s : State) : Result := withV x s fun a => withV y s fun b => .next (s.setV x (a ^^^ b))

/-- R188 ADD Vx, Vy. -/
def execAddReg (x y : Reg) (s : State) : Result :=
  withV x s fun a => withV y s fun b => .next (writeResultAndFlag x (a + b) (carryFlag a b) s)

/-- R189 SUB Vx, Vy. -/
def execSubReg (x y : Reg) (s : State) : Result :=
  withV x s fun a => withV y s fun b => .next (writeResultAndFlag x (a - b) (noBorrowFlag a b) s)

/-- R190 SHR Vx, the source register chosen by SHIFT_SRC. -/
def execShr (x y : Reg) (s : State) : Result :=
  withV (shiftReg s x y) s fun v => .next (writeResultAndFlag x (v >>> 1) (shrFlag v) s)

/-- R191 SUBN Vx, Vy. -/
def execSubn (x y : Reg) (s : State) : Result :=
  withV x s fun a => withV y s fun b => .next (writeResultAndFlag x (b - a) (noBorrowFlag b a) s)

/-- R192 SHL Vx, the source register chosen by SHIFT_SRC. -/
def execShl (x y : Reg) (s : State) : Result :=
  withV (shiftReg s x y) s fun v => .next (writeResultAndFlag x (v <<< 1) (shlFlag v) s)

/-- R193 RND Vx, nn: one environment draw an execution, a free value (log entry 3). -/
def execRnd (x : Reg) (nn : Byte) (s : State) : Result :=
  .next (s.tookDraw.setV x (Config.randDraw s.draws &&& nn))

end Sys2Proof.Machine
end

