-- ==== Sys2Proof/Machine/Control.lean ====
section
/-! DEFINITION. Control transfer (spec/41_control_flow.md). PC is already A + 2 when a meaning runs (R122). -/

namespace Sys2Proof.Machine

/-- R150 RET. -/
def execRet (s : State) : Result :=
  match s.stack.getLast? with
  | some a => .next (s.dropTop.setPC a)
  | none => .next (s.raiseIn .ret .stackUnderflow none)

/-- R151 JP nnn. -/
def execJp (nnn : Addr) (s : State) : Result := .next (s.setPC (nnn.setWidth 16))

/-- R152 CALL nnn. -/
def execCall (nnn : Addr) (s : State) : Result :=
  if s.stack.length < s.params.stackCapacity then .next ((s.push s.pc).setPC (nnn.setWidth 16))
  else .next (s.raiseIn (.call nnn) .stackOverflow none)

/-- R153 SE Vx, nn. -/
def execSeImm (x : Reg) (nn : Byte) (s : State) : Result := withV x s fun a => .next (s.skipIf (a == nn))

/-- R154 SNE Vx, nn. -/
def execSneImm (x : Reg) (nn : Byte) (s : State) : Result := withV x s fun a => .next (s.skipIf (a != nn))

/-- R155 SE Vx, Vy. -/
def execSeReg (x y : Reg) (s : State) : Result := withV x s fun a => withV y s fun b => .next (s.skipIf (a == b))

/-- R156 SNE Vx, Vy. -/
def execSneReg (x y : Reg) (s : State) : Result := withV x s fun a => withV y s fun b => .next (s.skipIf (a != b))

/-- R157 JP V0, nnn: "the sum is not masked to 12 bits". -/
def execJpV0 (nnn : Addr) (s : State) : Result :=
  withV .V0 s fun a => .next (s.setPC (nnn.setWidth 16 + a.setWidth 16))

end Sys2Proof.Machine
end

