-- ==== Sys2Proof/Machine/Display.lean ====
section
/-! DEFINITION. The framebuffer engine (spec/44_display.md): clear, XOR-plot sprite draw, collision. -/

namespace Sys2Proof.Machine

/-- R250 CLS. -/
def execCls (s : State) : Result := .next (s.setFB (Vector.replicate 32 0))

/-- The wrap of one coordinate: "one subtraction, only when strictly greater" (R252). The arms for a negative coordinate
are never taken, since coordinates are sums of unsigned values (log entry 15). -/
def wrapOnce (dim c : Nat) : Nat := if dim < c then c - dim else c

/-- `plotIndex(X, Y)` (R252): the framebuffer index of a raw coordinate pair, none for OUT. -/
def plotIndex (mode : Config.PlotAlias) (X Y : Nat) : Option Nat :=
  let wx := wrapOnce 64 X
  let wy := wrapOnce 32 Y
  match mode with
  | .linear => if wx + 64 * wy < fbSize then some (wx + 64 * wy) else none
  | .fault => if wx < 64 ∧ wy < 32 then some (wx + 64 * wy) else none

/-- P of R251 for one sprite row r: the columns c whose bit (7 - c) is 1, "most-significant bit first". -/
def rowPoints (r : Nat) (b : Byte) : List (Nat × Nat) :=
  ([0, 1, 2, 3, 4, 5, 6, 7].filter fun c => b.getLsbD (7 - c)).map fun c => (r, c)

/-- P of R251: the (row, column) of every set bit, the rows numbered from r on. -/
def spritePoints : Nat → List Byte → List (Nat × Nat)
  | _, [] => []
  | r, b :: bs => rowPoints r b ++ spritePoints (r + 1) bs

/-- The framebuffer index, or none for OUT, of every plot of a sprite at (X0, Y0) (R251). -/
def spritePlots (mode : Config.PlotAlias) (X0 Y0 : Nat) (rows : List Byte) : List (Option Nat) :=
  (spritePoints 0 rows).map fun p => plotIndex mode (X0 + p.2) (Y0 + p.1)

/-- The plots one after another: each turns its cell over, and one that finds its cell set is a collision, which no later
plot clears (R251, R254). -/
def plotCells : List Nat → FrameBuffer → Bool → FrameBuffer × Bool
  | [], fb, hit => (fb, hit)
  | k :: ks, fb, hit => plotCells ks (flipCell k fb) (hit || cellOf fb k)

/-- R251 DRW Vx, Vy, n: coordinates and I are read first; then the sprite's range, its bytes, and every plot are tested; then
VF and the cells are written. -/
def execDrw (x y : Reg) (n : Nat) (s : State) : Result :=
  withV x s fun a => withV y s fun b => withI s fun w =>
    checkRange (.drw x y n) w.toNat n s (withBytes w.toNat n s fun rows =>
      let plots := spritePlots s.params.plotAlias a.toNat b.toNat rows
      if plots.any Option.isNone then .next (s.raiseIn (.drw x y n) .plotOutOfRange none)
      else
        let drawn := plotCells (plots.filterMap id) s.fb false
        .next ((s.setV .VF (flagByte drawn.2)).setFB drawn.1))

end Sys2Proof.Machine
end

