-- ==== Sys2Proof/Machine/IndexMemory.lean ====
section
/-! DEFINITION. The index register and memory transfer (spec/43_index_memory.md). Addresses are exact integers (R62); I after
each transfer is the I before it (R226). -/

namespace Sys2Proof.Machine

/-- R220 LD I, nnn. -/
def execLdI (nnn : Addr) (s : State) : Result := .next (s.setI (nnn.setWidth 16))

/-- R221 ADD I, Vx: wraps only at 16 bits. -/
def execAddIVx (x : Reg) (s : State) : Result :=
  withV x s fun a => withI s fun w => .next (s.setI (w + a.setWidth 16))

/-- R222 LD F, Vx: glyph address 5 * (Vx & 0xF). -/
def execLdFVx (x : Reg) (s : State) : Result :=
  withV x s fun a => .next (s.setI (BitVec.ofNat 16 (5 * (a.toNat % 16))))

/-- The three decimal digits of a byte, hundreds first (R223). -/
def bcdDigits (v : Byte) : List Byte :=
  [BitVec.ofNat 8 (v.toNat / 100), BitVec.ofNat 8 (v.toNat / 10 % 10), BitVec.ofNat 8 (v.toNat % 10)]

/-- R223 LD B, Vx. -/
def execLdBVx (x : Reg) (s : State) : Result :=
  withV x s fun a => withI s fun w =>
    checkRange (.ldBVx x) w.toNat 3 s (.next (s.setBytes w.toNat (bcdDigits a)))

/-- R224 LD [I], Vx: the range test comes before the registers are read. -/
def execLdMemVx (x : Reg) (s : State) : Result :=
  withI s fun w =>
    checkRange (.ldMemVx x) w.toNat (x.val + 1) s
      (withVs (regsUpTo x) s fun l => .next (s.setBytes w.toNat (l.map Prod.snd)))

/-- R225 LD Vx, [I]. -/
def execLdVxMem (x : Reg) (s : State) : Result :=
  withI s fun w =>
    checkRange (.ldVxMem x) w.toNat (x.val + 1) s
      (withBytes w.toNat (x.val + 1) s fun bs => .next (s.setVs ((regsUpTo x).zip bs)))

end Sys2Proof.Machine
end

