-- ==== Sys2Proof/Machine/TimersKeys.lean ====
section
/-! DEFINITION. Timers and keypad (spec/45_timers_keys.md). The tick, the tone gate and the end of a key-wait are Cycle.lean's. -/

namespace Sys2Proof.Machine

/-- R280 SKP Vx. -/
def execSkp (x : Reg) (s : State) : Result := withV x s fun a => withKey a s fun p t => .next (t.skipIf p)

/-- R281 SKNP Vx. -/
def execSknp (x : Reg) (s : State) : Result := withV x s fun a => withKey a s fun p t => .next (t.skipIf (!p))

/-- R282 LD Vx, DT. -/
def execLdVxDT (x : Reg) (s : State) : Result := withDT s fun d => .next (s.setV x d)

/-- R283 LD Vx, K: the key-wait begins; V[x] is written when the key arrives (R136). -/
def execLdVxK (x : Reg) (s : State) : Result := .next (s.waitForKey x)

/-- R284 LD DT, Vx. -/
def execLdDTVx (x : Reg) (s : State) : Result := withV x s fun a => .next (s.setDT a)

/-- R285 LD ST, Vx. -/
def execLdSTVx (x : Reg) (s : State) : Result := withV x s fun a => .next (s.setST a)

end Sys2Proof.Machine
end

