-- ==== Sys2Proof/Machine/Run.lean ====
section
/-! DEFINITION. Fetch, decode and execute (spec/40_execution.md R120), the loop of a cycle (R130), and the storing of a word
where the next fetch finds it. Step.lean only calls these. -/

namespace Sys2Proof.Machine

/-- The address a fetch at A faults with (R90): A itself, or A + 1 when only the second byte is out of range. -/
def fetchFaultAddr (a : Nat) : Nat := if memSize ≤ a then a else a + 1

/-- The fetch (R90): both bytes must be in range, else MemoryOutOfBounds with PC still at A; then PC <- trunc_16(A + 2). -/
def fetch (s : State) (k : Word → State → Result) : Result :=
  if memSize ≤ s.pc.toNat + 1 then
    .next (s.raise .memoryOutOfBounds s.pc none (some (fetchFaultAddr s.pc.toNat)))
  else withByte s.pc.toNat s fun hi => withByte (s.pc.toNat + 1) s fun lo => k (wordOfBytes hi lo) s.advance

/-- `step()` (R120): one instruction. An Unknown word faults with PC at A + 2 (R100); SYS nnn "has no effect beyond the PC
advance" (R99). -/
def runInstruction (s : State) : Result :=
  fetch s fun w t =>
    match decode t.params.sysPolicy w with
    | .instr i => exec i t
    | .sys _ => .next t
    | .unknown => .next (t.raise .unknownOpcode t.fetchAddr (some w) none)

/-- One iteration of the cycle's loop, `left` iterations coming after it: nothing while paused, else one instruction (R131). -/
def iteration (left : Nat) (s : State) : Result :=
  if s.paused then .next (s.setPhase (.cycle left)) else runInstruction (s.setPhase (.cycle left))

/-- The rest of a cycle in one go: `left` iterations, unless one faults, then the tick and the outputs (R130). -/
def finishCycle : Nat → State → Result
  | 0, s => .next s.endCycle
  | left + 1, s =>
    match iteration left s with
    | .next t => if t.halted then .next t else finishCycle left t
    | .fault r => .fault r
    | .refused r => .refused r

/-- `cycle()` (R130) as the one atomic transaction the spec calls it. The machine's step takes it apart. -/
def cycle (s : State) : Result :=
  if s.halted then .next (s.setOutputs []) else finishCycle s.params.speed s.startCycle

/-- The next thing the machine does, by its phase: take a transaction, run an iteration, or end the cycle. A halted core
within a cycle, which no run reaches, ends it at once ("if fault != none then return", R130; log entry 17). -/
def advanceMachine (s : State) : Result :=
  match s.phase with
  | .awaitingReset | .idle => takeTransaction s
  | .cycle 0 => if s.halted then .next (s.setPhase .idle) else .next s.endCycle
  | .cycle (left + 1) => if s.halted then .next (s.setPhase .idle) else iteration left s

/-- Where a fetch can take place: PC itself, or the entry point when two bytes at PC do not fit (log entry 11). -/
def fetchablePC (pc : Word) : Word := if memSize ≤ pc.toNat + 1 then 0x200 else pc

/-- A phase whose next step runs an iteration: the running cycle if it has iterations left, else a new one. -/
def runningPhase (p : Config.Params) : Phase → Phase
  | .cycle (left + 1) => .cycle (left + 1)
  | .cycle 0 | .idle | .awaitingReset => .cycle (max p.speed 1)

/-- s with a word's two bytes where the next fetch finds them, and the next step that fetch: within a cycle, not paused,
not halted (log entry 11). -/
def storeFetchBytes (bytes : List Byte) (s : State) : State :=
  { s.setBytes (fetchablePC s.pc).toNat bytes with
    pc := fetchablePC s.pc
    phase := runningPhase s.params s.phase
    paused := false
    waitReg := none
    fault := none }

end Sys2Proof.Machine
end

