-- ==== Sys2Proof/Machine/Step.lean ====
section
/-! DEFINITION. The machine's step, and an instruction placed where it fetches. -/

namespace Sys2Proof.Machine

/-- One step of the machine (log entry 6): between transactions it takes one, within a cycle it runs one iteration of the
loop of R130, at its end it ticks and emits. -/
def step (s : State) : Host.Outcome State Fault Refusal := advanceMachine s

/-- s with the instruction whose bits are w, numbered as the opcode table numbers them, stored where step fetches next. -/
def State.withFetchWord (s : State) (nbits w : Nat) : State := storeFetchBytes (tableBytes nbits w) s

end Sys2Proof.Machine
end

