-- ==== Sys2Proof/Safety.lean ====
section
/-! DEFINITION. What a good state is and what claims are stated with: the invariant of the machine, what an instruction leaves
alone (spec/40_execution.md R127), the register tables of 10_state.md R23, the plots of a sprite, the idle state of R140. -/

namespace Sys2Proof.Machine

/-- A piece of state an instruction may write. -/
inductive Part where
  | v (x : Reg)
  | i
  | dt
  | st
  | pc
  | stack
  | fb
  /-- paused and waitReg (R34). -/
  | keyWait
  | byte (a : Nat)
  /-- The count of environment draws taken (R55). -/
  | draws
  deriving DecidableEq, Repr

/-- The frame rule (R127): t is s except in the listed parts. The fault latch, the phase, the parameters, the key levels,
the inbox and the outputs are no parts: they are the same. -/
structure SameOutside (ps : List Part) (s t : State) : Prop where
  v : ∀ x, Part.v x ∉ ps → t.getV x = s.getV x
  i : Part.i ∉ ps → t.getI = s.getI
  dt : Part.dt ∉ ps → t.getDT = s.getDT ∧ t.dt = s.dt
  st : Part.st ∉ ps → t.getST = s.getST ∧ t.st = s.st
  pc : Part.pc ∉ ps → t.pc = s.pc
  stack : Part.stack ∉ ps → t.stack = s.stack
  fb : Part.fb ∉ ps → t.fb = s.fb
  keyWait : Part.keyWait ∉ ps → t.paused = s.paused ∧ t.waitReg = s.waitReg
  byte : ∀ a, Part.byte a ∉ ps → t.byte a = s.byte a
  draws : Part.draws ∉ ps → t.draws = s.draws
  fault : t.fault = s.fault
  phase : t.phase = s.phase
  params : t.params = s.params
  keys : t.keys = s.keys
  inbox : t.inbox = s.inbox
  outputs : t.outputs = s.outputs

/-- The word with number n decodes to i, whatever SYS_POLICY is. -/
def Encodes (n : Nat) (i : Instr) : Prop := ∀ pol, decode pol (BitVec.ofNat 16 n) = .instr i

/-- An execute-stage fault of i in s (R123, R313): the record (kind, A, the word, addr) is latched and the cycle is over;
every other piece of state is as it was. -/
def FaultsWith (i : Instr) (s : State) (kind : FaultKind) (addr : Option Nat) : Prop :=
  exec i s = .next { s with fault := some ⟨kind, s.pc - 2, some (encode i), addr⟩, phase := .idle }

/-- What Vx and VF hold after an instruction that writes the result r and the flag f (R128). -/
def ResultAndFlag (x : Reg) (r f : Byte) (s t : State) : Prop :=
  (x ≠ .VF → t.getV x = some r ∧ t.getV .VF = some f) ∧
  (x = .VF → t.getV .VF = some (if s.params.flagLast then f else r))

/-- The column "writes" of R23, with what FX0A writes when the key arrives left out. -/
def writesV : Instr → List Reg
  | .ldImm x _ | .addImm x _ | .ldReg x _ | .orReg x _ | .andReg x _ | .xorReg x _ | .rnd x _ | .ldVxDT x => [x]
  | .addReg x _ | .subReg x _ | .subn x _ | .shr x _ | .shl x _ => [x, .VF]
  | .drw _ _ _ => [.VF]
  | .ldVxMem x => regsUpTo x
  | .seImm _ _ | .sneImm _ _ | .seReg _ _ | .sneReg _ _ | .jpV0 _ | .skp _ | .sknp _ | .ldVxK _ | .ldDTVx _ | .ldSTVx _
  | .addIVx _ | .ldFVx _ | .ldBVx _ | .ldMemVx _ | .cls | .ret | .jp _ | .call _ | .ldI _ => []

/-- The column "reads" of R23. -/
def readsV (p : Config.Params) : Instr → List Reg
  | .seImm x _ | .sneImm x _ | .addImm x _ | .skp x | .sknp x | .ldDTVx x | .ldSTVx x | .addIVx x | .ldFVx x | .ldBVx x => [x]
  | .seReg x y | .sneReg x y | .orReg x y | .andReg x y | .xorReg x y | .addReg x y | .subReg x y | .subn x y | .drw x y _ => [x, y]
  | .ldReg _ y => [y]
  | .shr x y | .shl x y => if p.shiftSrc = .vy then [y] else [x]
  | .jpV0 _ => [.V0]
  | .ldMemVx x => regsUpTo x
  | .ldImm _ _ | .rnd _ _ | .ldVxDT _ | .ldVxK _ | .ldVxMem _ | .cls | .ret | .jp _ | .call _ | .ldI _ => []

/-- The instructions that read I (R29). -/
def readsI : Instr → Bool
  | .drw _ _ _ | .addIVx _ | .ldBVx _ | .ldMemVx _ | .ldVxMem _ => true
  | .seImm _ _ | .sneImm _ _ | .seReg _ _ | .sneReg _ _ | .jpV0 _ | .skp _ | .sknp _ | .ldImm _ _ | .addImm _ _ | .ldReg _ _
  | .orReg _ _ | .andReg _ _ | .xorReg _ _ | .addReg _ _ | .subReg _ _ | .subn _ _ | .shr _ _ | .shl _ _ | .rnd _ _ | .ldVxDT _
  | .ldVxK _ | .ldDTVx _ | .ldSTVx _ | .ldFVx _ | .cls | .ret | .jp _ | .call _ | .ldI _ => false

/-- How many bytes from I on an instruction reads (R61): the rows of a sprite (R253), the block of FX65 (R225). -/
def bytesRead : Instr → Nat
  | .drw _ _ n => n
  | .ldVxMem x => x.val + 1
  | .seImm _ _ | .sneImm _ _ | .seReg _ _ | .sneReg _ _ | .jpV0 _ | .skp _ | .sknp _ | .ldImm _ _ | .addImm _ _ | .ldReg _ _
  | .orReg _ _ | .andReg _ _ | .xorReg _ _ | .addReg _ _ | .subReg _ _ | .subn _ _ | .shr _ _ | .shl _ _ | .rnd _ _ | .ldVxDT _
  | .ldVxK _ | .ldDTVx _ | .ldSTVx _ | .addIVx _ | .ldFVx _ | .ldBVx _ | .ldMemVx _ | .cls | .ret | .jp _ | .call _
  | .ldI _ => 0

/-- A set bit of the sprite with rows row 0 .. row (n - 1), drawn at (X0, Y0), plots the framebuffer cell k (R251). -/
def Plotted (mode : Config.PlotAlias) (X0 Y0 n : Nat) (row : Nat → Byte) (k : Nat) : Prop :=
  ∃ r c, r < n ∧ c < 8 ∧ (row r).getLsbD (7 - c) = true ∧ plotIndex mode (X0 + c) (Y0 + r) = some k

/-- A set bit of the sprite plots to OUT (R251). -/
def PlotsOut (mode : Config.PlotAlias) (X0 Y0 n : Nat) (row : Nat → Byte) : Prop :=
  ∃ r c, r < n ∧ c < 8 ∧ (row r).getLsbD (7 - c) = true ∧ plotIndex mode (X0 + c) (Y0 + r) = none

/-- The bytes at PC and PC + 1 are in range, hold values and form the word w (R90). -/
def WordAtPC (s : State) (w : Word) : Prop :=
  s.pc.toNat + 1 < memSize ∧
  ∃ hi lo, s.byte s.pc.toNat = some hi ∧ s.byte (s.pc.toNat + 1) = some lo ∧ w = wordOfBytes hi lo

/-- The next step of the machine runs an instruction, with `left` iterations of the cycle after it (R120's precondition). -/
def ReadyToRun (s : State) (left : Nat) : Prop := s.phase = .cycle (left + 1) ∧ s.paused = false ∧ s.fault = none

/-- The next step of t runs the word w as R120 says: exec of the instruction it decodes to, with PC two further and one
iteration of the cycle used up; nothing but that for SYS (R99); the latch for an Unknown word (R100). -/
def RunsWord (t : State) (left : Nat) (w : Word) : Prop :=
  match decode t.params.sysPolicy w with
  | .instr i => step t = exec i { t with pc := t.pc + 2, phase := .cycle left }
  | .sys _ => step t = .next { t with pc := t.pc + 2, phase := .cycle left }
  | .unknown => step t = .next { t with pc := t.pc + 2, fault := some ⟨.unknownOpcode, t.pc, some w, none⟩, phase := .idle }

/-- The byte at an address once n bytes, `value 0` and so on, have been stored from `base` on (R68, R75). -/
def byteAfterStore (base n : Nat) (value : Nat → Option Byte) (s : State) (a : Nat) : Option Byte :=
  if base ≤ a ∧ a < base + n then value (a - base) else s.byte a

/-- The idle state of R140: "fault = none, paused = 0, and the word at PC is `1NNN` with nnn = PC". -/
def IdleState (s : State) : Prop :=
  s.fault = none ∧ s.paused = false ∧ WordAtPC s (BitVec.ofNat 16 (0x1000 + s.pc.toNat))

/-- The architectural state R140 says an idle state keeps: registers, memory, stack, framebuffer. -/
def SameButTimers (s t : State) : Prop :=
  (∀ x, t.getV x = s.getV x) ∧ t.getI = s.getI ∧ t.pc = s.pc ∧ t.stack = s.stack ∧ t.fb = s.fb ∧ t.mem = s.mem ∧
  t.paused = s.paused ∧ t.waitReg = s.waitReg ∧ t.fault = s.fault ∧ t.params = s.params ∧ t.keys = s.keys ∧
  t.unwritten = s.unwritten ∧ t.inbox = s.inbox ∧ t.draws = s.draws

/-- What a fault record may look like (R35, R310): the address is there exactly for MemoryOutOfBounds and out of range, and
only MemoryOutOfBounds can come without a word. -/
def RecordOk (r : FaultRecord) : Prop :=
  (r.addr.isSome ↔ r.kind = .memoryOutOfBounds) ∧ (∀ a, r.addr = some a → memSize ≤ a) ∧
  (r.opcode = none → r.kind = .memoryOutOfBounds)

/-- The invariant of the machine. -/
structure MachineInv (s : State) : Prop where
  /-- Memory keeps its canonical form. -/
  mem : Memory.wf s.params s.mem = true
  /-- "paused = 1 exactly when waitReg != none" (R34). -/
  keyWait : s.paused = s.waitReg.isSome
  /-- "0 <= d <= STACK_CAPACITY" (R30). -/
  depth : s.stack.length ≤ s.params.stackCapacity
  /-- A return address is some CALL's A + 2, and a fetch at A >= 0xFFF faults (R150, R28). -/
  returns : ∀ a ∈ s.stack, a.toNat ≤ 0x1000
  /-- "The largest value any instruction can write to PC is 0x10FE" (R28). -/
  pc : s.pc.toNat ≤ 0x10FE
  /-- A cycle is never under way on a halted core, and never with more than SPEED iterations to run (R130). -/
  phase : ∀ n, s.phase = .cycle n → n ≤ s.params.speed ∧ s.fault = none
  /-- Under INIT_STATE = zero every register holds a value (R41). -/
  unwritten : s.params.initState = .zero → s.unwritten = []
  record : ∀ r, s.fault = some r → RecordOk r

end Sys2Proof.Machine
end

