-- ==== Sys2Proof/Certificates/Slice0/Obligations.lean ====
section
/-! DEFINITION. The statements for the provers: what the numbered rules of spec/ say of the decoder, the instructions, the
cycle, the key events and the reset. `Encodes n i` says that the word n decodes to i; `SameOutside ps s t` that t is s but for
the parts ps; `FaultsWith i s kind addr` that i in s latches that fault and changes nothing else (Safety.lean). -/

open Sys2Proof Sys2Proof.Machine

/-! ### Encoding -/

/-- Words of the spec's own examples (95_test_vectors.md Part 1 and 2.1) decode to the instructions they stand for. -/
def Obligations.DecodesWordsOfTheSpec : Prop :=
  decode .fault 0x1234#16 = .instr (.jp 0x234#12) ∧ decode .fault 0x600A#16 = .instr (.ldImm 0 0x0A#8) ∧
  decode .fault 0x8014#16 = .instr (.addReg 0 1) ∧ decode .fault 0xF30A#16 = .instr (.ldVxK 3) ∧
  decode .fault 0xD0F1#16 = .instr (.drw 0 15 1) ∧ decode .fault 0x00EE#16 = .instr .ret ∧
  decode .fault 0xE2A1#16 = .instr (.sknp 2) ∧ decode .fault 0xF265#16 = .instr (.ldVxMem 2) ∧
  decode .fault 0x5001#16 = .unknown ∧ decode .fault 0x01E0#16 = .unknown ∧ decode .nop 0x0123#16 = .sys 0x123#12

/-- Decoding the word of a well-formed instruction gives the instruction back, every operand at every value its field
admits (R92, R94, R96). -/
def Obligations.DecodeOfEncodeIsTheInstruction : Prop :=
  ∀ (pol : Config.SysPolicy) (i : Instr), i.wf = true → decode pol (encode i) = .instr i

/-- The word a well-formed instruction was decoded from is its encoding: no two words mean the same (R95). -/
def Obligations.EncodeOfDecodedWordIsTheWord : Prop :=
  ∀ (pol : Config.SysPolicy) (w : Word) (i : Instr), decode pol w = .instr i → i.wf = true ∧ encode i = w

/-- The decoder agrees with spec/opcode_table.json, row by row (R96): a word decodes to an instruction of a row exactly
when its bits under the row's mask are the row's pattern, and no word fits two rows. -/
def Obligations.DecoderAgreesWithTheOpcodeTable : Prop :=
  (∀ pol w (i : Instr), decode pol w = .instr i → i.row.fits w) ∧
  (∀ pol w (i : Instr), i.row.fits w → ∃ j : Instr, decode pol w = .instr j ∧ j.row = i.row) ∧
  (∀ w (i j : Instr), i.row.fits w → j.row.fits w → i.row = j.row)

/-- R97: sub-selectors are matched exactly, and families without one decode every word. Under the default SYS_POLICY a word
is Unknown exactly when its sub-selector is no listed one. -/
def Obligations.SubSelectorsMatchExactly : Prop :=
  ∀ w : Word, decode .fault w = .unknown ↔
    ((fieldOp w = 0 ∧ w ≠ 0x00E0#16 ∧ w ≠ 0x00EE#16) ∨
     ((fieldOp w = 5 ∨ fieldOp w = 9) ∧ fieldN w ≠ 0) ∨
     (fieldOp w = 8 ∧ fieldN w ∉ [0, 1, 2, 3, 4, 5, 6, 7, 0xE]) ∨
     (fieldOp w = 0xE ∧ fieldNN w ∉ [0x9E#8, 0xA1#8]) ∨
     (fieldOp w = 0xF ∧ fieldNN w ∉ [0x07#8, 0x0A#8, 0x15#8, 0x18#8, 0x1E#8, 0x29#8, 0x33#8, 0x55#8, 0x65#8]))

/-- R99: a family-0 word other than 00E0 and 00EE faults under SYS_POLICY = fault and is SYS nnn under SYS_POLICY = nop,
where it does nothing beyond the PC advance. -/
def Obligations.FamilyZeroFollowsSysPolicy : Prop :=
  ∀ w : Word, fieldOp w = 0 → w ≠ 0x00E0#16 → w ≠ 0x00EE#16 →
    decode .fault w = .unknown ∧ decode .nop w = .sys (fieldNNN w) ∧
    ∀ s left, ReadyToRun s left → WordAtPC s w → s.params.sysPolicy = .nop →
      step s = .next { s with pc := s.pc + 2, phase := .cycle left }

/-! ### One step -/

/-- R120: when the bytes at PC decode to an instruction i, the step is exec of i with PC at A + 2 (R25) and one iteration of
the cycle used up (R130). -/
def Obligations.StepRunsTheDecodedInstruction : Prop :=
  ∀ s left w i, ReadyToRun s left → WordAtPC s w → decode s.params.sysPolicy w = .instr i →
    step s = exec i { s with pc := s.pc + 2, phase := .cycle left }

/-- R90, R313: a fetch at A >= 0xFFF faults with PC still A, no opcode in the record, and the first address of the two that
is out of range; everything else is as before the step. -/
def Obligations.FetchOutOfRangeFaultsPrecisely : Prop :=
  ∀ s left, ReadyToRun s left → 4096 ≤ s.pc.toNat + 1 →
    step s = .next { s with
      fault := some ⟨.memoryOutOfBounds, s.pc, none, some (if 4096 ≤ s.pc.toNat then s.pc.toNat else s.pc.toNat + 1)⟩
      phase := .idle }

/-- R100: an Unknown word changes nothing but PC, which is A + 2; the record holds A and the opcode. -/
def Obligations.UnknownWordFaultsWithoutEffect : Prop :=
  ∀ s left w, ReadyToRun s left → WordAtPC s w → decode s.params.sysPolicy w = .unknown →
    step s = .next { s with pc := s.pc + 2, fault := some ⟨.unknownOpcode, s.pc, some w, none⟩, phase := .idle }

/-! ### Control transfer -/

/-- R150 RET. -/
def Obligations.RetPopsTheReturnAddress : Prop :=
  Encodes 0x00EE .ret ∧
  (∀ s l a, s.stack = l ++ [a] →
    ∃ t, exec .ret s = .next t ∧ t.pc = a ∧ t.stack = l ∧ SameOutside [.pc, .stack] s t) ∧
  (∀ s, s.stack = [] → FaultsWith .ret s .stackUnderflow none)

/-- R151 JP nnn. -/
def Obligations.JpSetsPC : Prop :=
  ∀ nnn : Addr, Encodes (0x1000 + nnn.toNat) (.jp nnn) ∧
    ∀ s, ∃ t, exec (.jp nnn) s = .next t ∧ t.pc.toNat = nnn.toNat ∧ SameOutside [.pc] s t

/-- R152 CALL nnn: PC, already A + 2, is pushed; at depth STACK_CAPACITY nothing is and StackOverflow is raised. -/
def Obligations.CallPushesTheReturnAddress : Prop :=
  ∀ nnn : Addr, Encodes (0x2000 + nnn.toNat) (.call nnn) ∧
    (∀ s, s.stack.length < s.params.stackCapacity →
      ∃ t, exec (.call nnn) s = .next t ∧ t.pc.toNat = nnn.toNat ∧ t.stack = s.stack ++ [s.pc] ∧
        SameOutside [.pc, .stack] s t) ∧
    (∀ s, s.stack.length = s.params.stackCapacity → FaultsWith (.call nnn) s .stackOverflow none)

/-- "calling at address A pushes the post-increment PC (A+2) and jumping there; a subsequent return pops exactly that value"
(R152, 95_test_vectors.md S7): a call and a return bring PC back to A + 2 and leave the stack as it was. -/
def Obligations.ReturnUndoesCall : Prop :=
  ∀ (nnn : Addr) (s : State) (pc' : Word), s.stack.length < s.params.stackCapacity →
    ∃ t u, exec (.call nnn) s = .next t ∧ exec .ret { t with pc := pc' } = .next u ∧ u = s

/-- R153 and R154: the skips on an immediate; R154's condition is the exact negation of R153's. -/
def Obligations.SkipsOnImmediate : Prop :=
  ∀ (x : Reg) (nn : Byte), Encodes (0x3000 + x.val * 256 + nn.toNat) (.seImm x nn) ∧
    Encodes (0x4000 + x.val * 256 + nn.toNat) (.sneImm x nn) ∧
    ∀ s a, s.getV x = some a →
      (∃ t, exec (.seImm x nn) s = .next t ∧ t.pc = (if a = nn then s.pc + 2 else s.pc) ∧ SameOutside [.pc] s t) ∧
      (∃ t, exec (.sneImm x nn) s = .next t ∧ t.pc = (if a ≠ nn then s.pc + 2 else s.pc) ∧ SameOutside [.pc] s t)

/-- R155 and R156: the skips on two registers. A low nibble other than 0 is Unknown. -/
def Obligations.SkipsOnRegisters : Prop :=
  ∀ x y : Reg, Encodes (0x5000 + x.val * 256 + y.val * 16) (.seReg x y) ∧
    Encodes (0x9000 + x.val * 256 + y.val * 16) (.sneReg x y) ∧
    (∀ pol n, 0 < n → n < 16 → decode pol (BitVec.ofNat 16 (0x5000 + x.val * 256 + y.val * 16 + n)) = .unknown ∧
      decode pol (BitVec.ofNat 16 (0x9000 + x.val * 256 + y.val * 16 + n)) = .unknown) ∧
    ∀ s a b, s.getV x = some a → s.getV y = some b →
      (∃ t, exec (.seReg x y) s = .next t ∧ t.pc = (if a = b then s.pc + 2 else s.pc) ∧ SameOutside [.pc] s t) ∧
      (∃ t, exec (.sneReg x y) s = .next t ∧ t.pc = (if a ≠ b then s.pc + 2 else s.pc) ∧ SameOutside [.pc] s t)

/-- R157 JP V0, nnn: the sum is exact, never masked or wrapped. -/
def Obligations.JpV0AddsV0 : Prop :=
  ∀ nnn : Addr, Encodes (0xB000 + nnn.toNat) (.jpV0 nnn) ∧
    ∀ s a, s.getV 0 = some a →
      ∃ t, exec (.jpV0 nnn) s = .next t ∧ t.pc.toNat = nnn.toNat + a.toNat ∧ SameOutside [.pc] s t

/-! ### Register arithmetic and logic -/

/-- R180 and R181: load and add an immediate; no flag. -/
def Obligations.ImmediateLoadAndAdd : Prop :=
  ∀ (x : Reg) (nn : Byte), Encodes (0x6000 + x.val * 256 + nn.toNat) (.ldImm x nn) ∧
    Encodes (0x7000 + x.val * 256 + nn.toNat) (.addImm x nn) ∧
    (∀ s, ∃ t, exec (.ldImm x nn) s = .next t ∧ t.getV x = some nn ∧ SameOutside [.v x] s t) ∧
    (∀ s a, s.getV x = some a →
      ∃ t, exec (.addImm x nn) s = .next t ∧ t.getV x = some (BitVec.ofNat 8 ((a.toNat + nn.toNat) % 256)) ∧
        SameOutside [.v x] s t)

/-- R182 to R185: copy, OR, AND, XOR; no flag. The bits of the results are stated one by one. -/
def Obligations.CopyAndLogic : Prop :=
  ∀ x y : Reg, Encodes (0x8000 + x.val * 256 + y.val * 16) (.ldReg x y) ∧
    Encodes (0x8001 + x.val * 256 + y.val * 16) (.orReg x y) ∧
    Encodes (0x8002 + x.val * 256 + y.val * 16) (.andReg x y) ∧
    Encodes (0x8003 + x.val * 256 + y.val * 16) (.xorReg x y) ∧
    (∀ s b, s.getV y = some b →
      ∃ t, exec (.ldReg x y) s = .next t ∧ t.getV x = some b ∧ SameOutside [.v x] s t) ∧
    (∀ s a b, s.getV x = some a → s.getV y = some b →
      (∃ t r, exec (.orReg x y) s = .next t ∧ t.getV x = some r ∧ SameOutside [.v x] s t ∧
        ∀ k < 8, r.getLsbD k = (a.getLsbD k || b.getLsbD k)) ∧
      (∃ t r, exec (.andReg x y) s = .next t ∧ t.getV x = some r ∧ SameOutside [.v x] s t ∧
        ∀ k < 8, r.getLsbD k = (a.getLsbD k && b.getLsbD k)) ∧
      (∃ t r, exec (.xorReg x y) s = .next t ∧ t.getV x = some r ∧ SameOutside [.v x] s t ∧
        ∀ k < 8, r.getLsbD k = (a.getLsbD k ^^ b.getLsbD k)))

/-- R188 ADD Vx, Vy, with the order of the two writes of R128. -/
def Obligations.AddSetsCarry : Prop :=
  ∀ x y : Reg, Encodes (0x8004 + x.val * 256 + y.val * 16) (.addReg x y) ∧
    ∀ s a b, s.getV x = some a → s.getV y = some b →
      ∃ t, exec (.addReg x y) s = .next t ∧
        ResultAndFlag x (BitVec.ofNat 8 ((a.toNat + b.toNat) % 256)) (if a.toNat + b.toNat > 255 then 1 else 0) s t ∧
        SameOutside [.v x, .v .VF] s t

/-- R189 SUB and R191 SUBN: the flag is no borrow, set on equality, and the result is the difference modulo 256. -/
def Obligations.SubtractsSetNoBorrow : Prop :=
  ∀ x y : Reg, Encodes (0x8005 + x.val * 256 + y.val * 16) (.subReg x y) ∧
    Encodes (0x8007 + x.val * 256 + y.val * 16) (.subn x y) ∧
    ∀ s a b, s.getV x = some a → s.getV y = some b →
      (∃ t, exec (.subReg x y) s = .next t ∧
        ResultAndFlag x (BitVec.ofInt 8 ((a.toNat : Int) - b.toNat)) (if a.toNat ≥ b.toNat then 1 else 0) s t ∧
        SameOutside [.v x, .v .VF] s t) ∧
      (∃ t, exec (.subn x y) s = .next t ∧
        ResultAndFlag x (BitVec.ofInt 8 ((b.toNat : Int) - a.toNat)) (if b.toNat ≥ a.toNat then 1 else 0) s t ∧
        SameOutside [.v x, .v .VF] s t)

/-- R190 SHR and R192 SHL, for both values of SHIFT_SRC. -/
def Obligations.ShiftsKeepTheBitShiftedOut : Prop :=
  ∀ x y : Reg, Encodes (0x8006 + x.val * 256 + y.val * 16) (.shr x y) ∧
    Encodes (0x800E + x.val * 256 + y.val * 16) (.shl x y) ∧
    ∀ s v, s.getV (if s.params.shiftSrc = .vx then x else y) = some v →
      (∃ t, exec (.shr x y) s = .next t ∧
        ResultAndFlag x (BitVec.ofNat 8 (v.toNat / 2)) (BitVec.ofNat 8 (v.toNat % 2)) s t ∧
        SameOutside [.v x, .v .VF] s t) ∧
      (∃ t, exec (.shl x y) s = .next t ∧
        ResultAndFlag x (BitVec.ofNat 8 (v.toNat * 2 % 256)) (BitVec.ofNat 8 (v.toNat / 128)) s t ∧
        SameOutside [.v x, .v .VF] s t)

/-- R193 RND: the draw, whatever it is, masked; two executions take two draws. The value of a draw is a free value (log entry 3). -/
def Obligations.RndMasksTheDraw : Prop :=
  ∀ (x : Reg) (nn : Byte), Encodes (0xC000 + x.val * 256 + nn.toNat) (.rnd x nn) ∧
    ∀ s, ∃ t, exec (.rnd x nn) s = .next t ∧ t.getV x = some (Config.randDraw s.draws &&& nn) ∧
      t.draws = s.draws + 1 ∧ (nn = 0 → t.getV x = some 0) ∧ SameOutside [.v x, .draws] s t

/-! ### Index register and memory transfer -/

/-- R220, R221, R222: the three writers of I. -/
def Obligations.IndexRegisterWriters : Prop :=
  (∀ nnn : Addr, Encodes (0xA000 + nnn.toNat) (.ldI nnn) ∧
    ∀ s, ∃ t w, exec (.ldI nnn) s = .next t ∧ t.getI = some w ∧ w.toNat = nnn.toNat ∧ SameOutside [.i] s t) ∧
  ∀ x : Reg, Encodes (0xF01E + x.val * 256) (.addIVx x) ∧ Encodes (0xF029 + x.val * 256) (.ldFVx x) ∧
    ∀ s a, s.getV x = some a →
      (∀ w, s.getI = some w →
        ∃ t w', exec (.addIVx x) s = .next t ∧ t.getI = some w' ∧ w'.toNat = (w.toNat + a.toNat) % 65536 ∧
          SameOutside [.i] s t) ∧
      (∃ t w', exec (.ldFVx x) s = .next t ∧ t.getI = some w' ∧ w'.toNat = 5 * (a &&& 0x0F#8).toNat ∧
        SameOutside [.i] s t)

/-- R223 LD B, Vx. -/
def Obligations.BcdStoresThreeDigits : Prop :=
  ∀ x : Reg, Encodes (0xF033 + x.val * 256) (.ldBVx x) ∧
    ∀ s a w, s.getV x = some a → s.getI = some w →
      (w.toNat + 2 < 4096 →
        ∃ t, exec (.ldBVx x) s = .next t ∧
          t.byte w.toNat = some (BitVec.ofNat 8 (a.toNat / 100)) ∧
          t.byte (w.toNat + 1) = some (BitVec.ofNat 8 (a.toNat / 10 % 10)) ∧
          t.byte (w.toNat + 2) = some (BitVec.ofNat 8 (a.toNat % 10)) ∧
          SameOutside [.byte w.toNat, .byte (w.toNat + 1), .byte (w.toNat + 2)] s t) ∧
      (4096 ≤ w.toNat + 2 → FaultsWith (.ldBVx x) s .memoryOutOfBounds (some (max w.toNat 4096)))

/-- R224 LD [I], Vx: V0..Vx go to the x + 1 bytes from I on, and no other byte and no register changes. -/
def Obligations.BlockStoreWritesTheRange : Prop :=
  ∀ x : Reg, Encodes (0xF055 + x.val * 256) (.ldMemVx x) ∧
    ∀ s w, s.getI = some w →
      (w.toNat + x.val < 4096 → (∀ r ≤ x, (s.getV r).isSome) →
        ∃ t, exec (.ldMemVx x) s = .next t ∧ (∀ r ≤ x, t.byte (w.toNat + r.val) = s.getV r) ∧
          SameOutside ((List.range (x.val + 1)).map fun j => .byte (w.toNat + j)) s t) ∧
      (4096 ≤ w.toNat + x.val → FaultsWith (.ldMemVx x) s .memoryOutOfBounds (some (max w.toNat 4096)))

/-- R225 LD Vx, [I]: V0..Vx get the x + 1 bytes from I on, and no other register and no byte changes. -/
def Obligations.BlockLoadReadsTheRange : Prop :=
  ∀ x : Reg, Encodes (0xF065 + x.val * 256) (.ldVxMem x) ∧
    ∀ s w, s.getI = some w →
      (w.toNat + x.val < 4096 → (∀ j ≤ x.val, (s.byte (w.toNat + j)).isSome) →
        ∃ t, exec (.ldVxMem x) s = .next t ∧ (∀ r ≤ x, t.getV r = s.byte (w.toNat + r.val)) ∧
          SameOutside ((regsUpTo x).map .v) s t) ∧
      (4096 ≤ w.toNat + x.val → FaultsWith (.ldVxMem x) s .memoryOutOfBounds (some (max w.toNat 4096)))

/-- R224 and R225 together: what a block store put in memory, a block load of as many registers brings back. -/
def Obligations.BlockLoadUndoesBlockStore : Prop :=
  ∀ (x : Reg) (s : State) (w : Word), s.getI = some w → w.toNat + x.val < 4096 → (∀ r ≤ x, (s.getV r).isSome) →
    ∃ t, exec (.ldMemVx x) s = .next t ∧
      ∀ u : State, u.getI = some w → u.params = t.params → u.mem = t.mem →
        ∃ v, exec (.ldVxMem x) u = .next v ∧ ∀ r ≤ x, v.getV r = s.getV r

/-! ### Framebuffer -/

/-- R250 CLS. -/
def Obligations.ClsClearsEveryCell : Prop :=
  Encodes 0x00E0 .cls ∧
    ∀ s, ∃ t, exec .cls s = .next t ∧ (∀ k, t.cell k = false) ∧ SameOutside [.fb] s t

/-- R251, R253, R254: a draw whose rows are in range and whose set bits all plot to cells turns over exactly the cells they
plot to, and VF is 1 exactly when one of those was set. -/
def Obligations.DrawTurnsOverThePlottedCells : Prop :=
  ∀ (x y : Reg) (n : Nat), n ≤ 15 → Encodes (0xD000 + x.val * 256 + y.val * 16 + n) (.drw x y n) ∧
    ∀ (s : State) (a b : Byte) (w : Word) (row : Nat → Byte),
      s.getV x = some a → s.getV y = some b → s.getI = some w → (n = 0 ∨ w.toNat + n ≤ 4096) →
      (∀ r < n, s.byte (w.toNat + r) = some (row r)) →
      ¬ PlotsOut s.params.plotAlias a.toNat b.toNat n row →
      ∃ t, exec (.drw x y n) s = .next t ∧
        (∀ k, t.cell k ≠ s.cell k ↔ Plotted s.params.plotAlias a.toNat b.toNat n row k) ∧
        (t.getV .VF = some 1 ∨ t.getV .VF = some 0) ∧
        (t.getV .VF = some 1 ↔
          ∃ k, Plotted s.params.plotAlias a.toNat b.toNat n row k ∧ s.cell k = true) ∧
        SameOutside [.v .VF, .fb] s t

/-- R251, R316: a row address out of range raises MemoryOutOfBounds, whatever the plots; otherwise a set bit that plots to
OUT raises PlotOutOfRange. Either way no register, VF included, and no cell changes. -/
def Obligations.DrawFaultsBeforeAnyChange : Prop :=
  ∀ (x y : Reg) (n : Nat) (s : State) (a b : Byte) (w : Word),
    s.getV x = some a → s.getV y = some b → s.getI = some w →
    (0 < n → 4096 ≤ w.toNat + n - 1 → FaultsWith (.drw x y n) s .memoryOutOfBounds (some (max w.toNat 4096))) ∧
    (∀ row : Nat → Byte, w.toNat + n ≤ 4096 → (∀ r < n, s.byte (w.toNat + r) = some (row r)) →
      PlotsOut s.params.plotAlias a.toNat b.toNat n row → FaultsWith (.drw x y n) s .plotOutOfRange none)

/-- R255 (the two tables) and R256, of the plot index of R252 over the raw coordinates a draw can reach; and where a plot that
is not OUT lands under PLOT_ALIAS = fault: at the wrapped coordinates, wx + 64*wy (R252). -/
def Obligations.PlotIndexLandsWhereTheTablesSay : Prop :=
  ∀ X Y : Nat, X ≤ 262 → Y ≤ 269 →
    (X ≤ 63 → Y ≤ 31 → plotIndex .linear X Y = some (X + 64 * Y)) ∧
    ((X = 64 ∨ X = 128) → Y ≤ 30 → plotIndex .linear X Y = some (64 * (Y + 1))) ∧
    (65 ≤ X → X ≤ 127 → Y ≤ 31 → plotIndex .linear X Y = some (X - 64 + 64 * Y)) ∧
    (129 ≤ X → Y + (X - 64) / 64 ≤ 31 → plotIndex .linear X Y = some ((X - 64) % 64 + 64 * (Y + (X - 64) / 64))) ∧
    (33 ≤ Y → Y ≤ 63 → plotIndex .linear X Y = plotIndex .linear X (Y - 32)) ∧
    (Y = 32 ∨ 64 ≤ Y → plotIndex .linear X Y = none) ∧
    (Y = 31 → (X = 64 ∨ X = 128 ∨ 129 ≤ X) → plotIndex .linear X Y = none) ∧
    (Y = 30 → 192 ≤ X → plotIndex .linear X Y = none) ∧
    (Y = 29 → 256 ≤ X → plotIndex .linear X Y = none) ∧
    (plotIndex .fault X Y = none ↔ X = 64 ∨ X = 128 ∨ 129 ≤ X ∨ Y = 32 ∨ 64 ≤ Y) ∧
    (X ≤ 63 → Y ≤ 31 → plotIndex .fault X Y = some (X + 64 * Y)) ∧
    (65 ≤ X → X ≤ 127 → Y ≤ 31 → plotIndex .fault X Y = some (X - 64 + 64 * Y)) ∧
    (33 ≤ Y → Y ≤ 63 → plotIndex .fault X Y = plotIndex .fault X (Y - 32))

/-- R258: no two plots of one draw reach the same cell, under either PLOT_ALIAS. -/
def Obligations.PlotsOfOneDrawAreDistinct : Prop :=
  ∀ (mode : Config.PlotAlias) (X0 Y0 r c r' c' k : Nat), X0 < 256 → Y0 < 256 → r < 15 → r' < 15 → c < 8 → c' < 8 →
    plotIndex mode (X0 + c) (Y0 + r) = some k → plotIndex mode (X0 + c') (Y0 + r') = some k → r = r' ∧ c = c'

/-- R257: executing the same draw again, with FB, I, the bytes, the parameters, Vx and Vy as the first draw left them and
nothing asked of the rest, does not fault and restores the framebuffer, and then VF is 1 exactly when the first draw turned
at least one cell on. -/
def Obligations.DrawingTwiceRestoresTheFramebuffer : Prop :=
  ∀ (x y : Reg) (n : Nat) (s t t' : State), n ≤ 15 → x ≠ .VF → y ≠ .VF → s.fault = none →
    exec (.drw x y n) s = .next t → t.fault = none →
    t'.fb = t.fb → t'.params = t.params → t'.getI = t.getI → (∀ a, t'.byte a = t.byte a) →
    t'.getV x = t.getV x → t'.getV y = t.getV y →
    ∃ u, exec (.drw x y n) t' = .next u ∧ u.fault = t'.fault ∧ (∀ k, u.cell k = s.cell k) ∧
      (u.getV .VF = some 1 ∨ u.getV .VF = some 0) ∧
      (u.getV .VF = some 1 ↔ ∃ k, s.cell k = false ∧ t.cell k = true)

/-! ### Timers and keypad -/

/-- R280 and R281: SKP and SKNP. For a code above 15 the answer is a free draw (log entry 3), and a draw is taken. -/
def Obligations.KeySkips : Prop :=
  ∀ x : Reg, Encodes (0xE09E + x.val * 256) (.skp x) ∧ Encodes (0xE0A1 + x.val * 256) (.sknp x) ∧
    ∀ s a, s.getV x = some a →
      (a.toNat ≤ 15 →
        (∃ t, exec (.skp x) s = .next t ∧ t.pc = (if s.keys.getLsbD a.toNat then s.pc + 2 else s.pc) ∧
          SameOutside [.pc] s t) ∧
        (∃ t, exec (.sknp x) s = .next t ∧ t.pc = (if s.keys.getLsbD a.toNat then s.pc else s.pc + 2) ∧
          SameOutside [.pc] s t)) ∧
      (15 < a.toNat →
        (∃ t, exec (.skp x) s = .next t ∧ t.pc = (if Config.keyDraw s.draws a then s.pc + 2 else s.pc) ∧
          t.draws = s.draws + 1 ∧ SameOutside [.pc, .draws] s t) ∧
        (∃ t, exec (.sknp x) s = .next t ∧ t.pc = (if Config.keyDraw s.draws a then s.pc else s.pc + 2) ∧
          t.draws = s.draws + 1 ∧ SameOutside [.pc, .draws] s t))

/-- R282, R284, R285: FX07, FX15, FX18. -/
def Obligations.TimerMoves : Prop :=
  ∀ x : Reg, Encodes (0xF007 + x.val * 256) (.ldVxDT x) ∧ Encodes (0xF015 + x.val * 256) (.ldDTVx x) ∧
    Encodes (0xF018 + x.val * 256) (.ldSTVx x) ∧
    (∀ s d, s.getDT = some d →
      ∃ t, exec (.ldVxDT x) s = .next t ∧ t.getV x = some d ∧ SameOutside [.v x] s t) ∧
    (∀ s a, s.getV x = some a →
      (∃ t, exec (.ldDTVx x) s = .next t ∧ t.getDT = some a ∧ SameOutside [.dt] s t) ∧
      (∃ t, exec (.ldSTVx x) s = .next t ∧ t.getST = some a ∧ SameOutside [.st] s t))

/-- R283 FX0A: the wait begins, and Vx is not written. -/
def Obligations.KeyWaitBegins : Prop :=
  ∀ x : Reg, Encodes (0xF00A + x.val * 256) (.ldVxK x) ∧
    ∀ s, ∃ t, exec (.ldVxK x) s = .next t ∧ t.paused = true ∧ t.waitReg = some x ∧ SameOutside [.keyWait] s t

/-! ### Rules over all instructions -/

/-- R127 with the write column of R23: no instruction changes a general register its row does not name. -/
def Obligations.OnlyNamedRegistersChange : Prop :=
  ∀ i s t, exec i s = .next t → ∀ r, r ∉ writesV i → t.getV r = s.getV r

/-- R127, R29 to R33, R61: each other piece of state is changed only by the instructions whose rules name it, and none
changes the parameters, the key levels, the host's inbox or the outputs. -/
def Obligations.OtherStateChangesOnlyByItsInstructions : Prop :=
  ∀ i s t, exec i s = .next t →
    ((∀ nnn, i ≠ .ldI nnn) → (∀ x, i ≠ .addIVx x) → (∀ x, i ≠ .ldFVx x) → t.getI = s.getI) ∧
    ((∀ nnn, i ≠ .call nnn) → i ≠ .ret → t.stack = s.stack) ∧
    ((∀ x, i ≠ .ldDTVx x) → t.getDT = s.getDT) ∧
    ((∀ x, i ≠ .ldSTVx x) → t.getST = s.getST) ∧
    (i ≠ .cls → (∀ x y n, i ≠ .drw x y n) → t.fb = s.fb) ∧
    ((∀ x, i ≠ .ldBVx x) → (∀ x, i ≠ .ldMemVx x) → ∀ a, t.byte a = s.byte a) ∧
    ((∀ x, i ≠ .ldVxK x) → t.paused = s.paused ∧ t.waitReg = s.waitReg) ∧
    ((∀ x nn, i ≠ .rnd x nn) → (∀ x, i ≠ .skp x) → (∀ x, i ≠ .sknp x) → t.draws = s.draws) ∧
    t.params = s.params ∧ t.keys = s.keys ∧ t.inbox = s.inbox ∧ t.outputs = s.outputs

/-- R26: PC after an instruction that does not fault. PC is A + 2 when it runs, so A + 4 after a skip is s.pc + 2. For a key
code above 15 the condition is a free draw, indexed by the model's own counter (log entry 3). -/
def Obligations.PcAfterEachInstruction : Prop :=
  ∀ i s t, s.fault = none → exec i s = .next t → t.fault = none →
    match i with
    | .jp nnn => t.pc.toNat = nnn.toNat
    | .call nnn => t.pc.toNat = nnn.toNat ∧ t.stack = s.stack ++ [s.pc]
    | .ret => s.stack.getLast? = some t.pc
    | .jpV0 nnn => ∃ a, s.getV 0 = some a ∧ t.pc.toNat = nnn.toNat + a.toNat
    | .seImm x nn => t.pc = if s.getV x = some nn then s.pc + 2 else s.pc
    | .sneImm x nn => t.pc = if s.getV x = some nn then s.pc else s.pc + 2
    | .seReg x y => t.pc = if s.getV x = s.getV y then s.pc + 2 else s.pc
    | .sneReg x y => t.pc = if s.getV x = s.getV y then s.pc else s.pc + 2
    | .skp x => ∃ a, s.getV x = some a ∧
      t.pc = if (if a.toNat ≤ 15 then s.keys.getLsbD a.toNat else Config.keyDraw s.draws a) then s.pc + 2 else s.pc
    | .sknp x => ∃ a, s.getV x = some a ∧
      t.pc = if (if a.toNat ≤ 15 then s.keys.getLsbD a.toNat else Config.keyDraw s.draws a) then s.pc else s.pc + 2
    | .cls | .ldImm _ _ | .addImm _ _ | .ldReg _ _ | .orReg _ _ | .andReg _ _ | .xorReg _ _ | .addReg _ _ | .subReg _ _
    | .shr _ _ | .subn _ _ | .shl _ _ | .ldI _ | .rnd _ _ | .drw _ _ _ | .ldVxDT _ | .ldVxK _ | .ldDTVx _ | .ldSTVx _
    | .addIVx _ | .ldFVx _ | .ldBVx _ | .ldMemVx _ | .ldVxMem _ => t.pc = s.pc

/-- R123, R313, R316: an execute-stage fault comes only from the six instructions that have one, each with its own kinds, and
leaves every value as after the fetch, with A and the word in the record. -/
def Obligations.ExecuteFaultsArePreciseAndListed : Prop :=
  ∀ i s t r, s.fault = none → exec i s = .next t → t.fault = some r →
    t = { s with fault := some r, phase := .idle } ∧ r.pc = s.pc - 2 ∧ r.opcode = some (encode i) ∧
    match i with
    | .call _ => r.kind = .stackOverflow
    | .ret => r.kind = .stackUnderflow
    | .ldBVx _ | .ldMemVx _ | .ldVxMem _ => r.kind = .memoryOutOfBounds
    | .drw _ _ _ => r.kind = .memoryOutOfBounds ∨ r.kind = .plotOutOfRange
    | .cls | .jp _ | .seImm _ _ | .sneImm _ _ | .seReg _ _ | .ldImm _ _ | .addImm _ _ | .ldReg _ _ | .orReg _ _
    | .andReg _ _ | .xorReg _ _ | .addReg _ _ | .subReg _ _ | .shr _ _ | .subn _ _ | .shl _ _ | .sneReg _ _ | .ldI _
    | .jpV0 _ | .rnd _ _ | .skp _ | .sknp _ | .ldVxDT _ | .ldVxK _ | .ldDTVx _ | .ldSTVx _ | .addIVx _ | .ldFVx _ => False

/-- R41, R44, R311: an instruction that reads a location nothing has written stops the model, and so does a fetch. The
locations are the registers of the read column of R23, I (R29), DT (FX07), and the bytes of a sprite (R253) and of FX65
(R225) whose range is good. FX55 tests its range before it reads V0..Vx (R224), so for those its range must be good too.
Which of several such locations is named is the model's choice (log entry 4); the one named holds no value. -/
def Obligations.ReadBeforeWriteStops : Prop :=
  (∀ i s,
    ((∃ r ∈ readsV s.params i, s.getV r = none) ∧
        (∀ x w, i = .ldMemVx x → s.getI = some w → w.toNat + x.val < 4096)) ∨
      (readsI i = true ∧ s.getI = none) ∨
      ((∃ x, i = .ldVxDT x) ∧ s.getDT = none) ∨
      (∃ w, s.getI = some w ∧ w.toNat + bytesRead i ≤ 4096 ∧ ∃ j < bytesRead i, s.byte (w.toNat + j) = none) →
    ∃ l, HoldsNoValue s l ∧ exec i s = .fault (.readBeforeWrite l)) ∧
  ∀ s left, ReadyToRun s left → s.pc.toNat + 1 < 4096 →
    s.byte s.pc.toNat = none ∨ s.byte (s.pc.toNat + 1) = none →
    ∃ a, (a = s.pc.toNat ∨ a = s.pc.toNat + 1) ∧ s.byte a = none ∧ step s = .fault (.readBeforeWrite (.mem a))

/-- Under INIT_STATE = zero the machine never stops with a fault of the model (R311: those are "not a fault of the hardware"):
every hardware fault is a next state, and a refusal is a refused transaction. -/
def Obligations.MachineStopsOnlyOnARefusedTransaction : Prop :=
  ∀ s, s.params.initState = .zero → s.unwritten = [] →
    (∃ t, step s = .next t) ∨
    (∃ program rest, s.inbox = .reset program :: rest ∧ 3584 < program.length ∧
      step s = .refused (.programTooLong program.length)) ∨
    (s.phase = .awaitingReset ∧ (s.inbox = [] ∨ ∃ rest, s.inbox = .cycle :: rest) ∧ step s = .refused .cycleBeforeReset)

/-! ### The cycle -/

/-- R130: the machine's steps from the start of a Cycle() transaction on do what `cycle()` does in one go, within SPEED + 2
steps, whether the host has asked for the cycle or has asked for nothing. -/
def Obligations.StepsOfACycleAreTheCycle : Prop :=
  ∀ s rest, s.phase = .idle → (s.inbox = .cycle :: rest ∨ (s.inbox = [] ∧ rest = [])) →
    ∃ n, n ≤ s.params.speed + 2 ∧ core.run n s = cycle { s with inbox := rest }

/-- R131: an iteration that begins paused runs no step: only the count of iterations left goes down. -/
def Obligations.PausedIterationRunsNoStep : Prop :=
  ∀ s left, s.phase = .cycle (left + 1) → s.paused = true → s.fault = none →
    step s = .next (s.setPhase (.cycle left))

/-- R132, R133, R134: at the end of a cycle's steps the timers tick if the core is not paused, then one tone command by the
ticked ST and one repaint with the framebuffer go out, paused or not. For a timer that holds no value, that it ticks and
sounds by its field and goes on holding none is the model's choice (log entry 5). -/
def Obligations.CycleEndTicksAndEmits : Prop :=
  ∀ s, s.phase = .cycle 0 → s.fault = none →
    ∃ t, step s = .next t ∧
      t.dt.toNat = (if s.paused then s.dt.toNat else s.dt.toNat - 1) ∧
      t.st.toNat = (if s.paused then s.st.toNat else s.st.toNat - 1) ∧
      t.outputs = [if 0 < t.st.toNat then .toneStart else .toneStop, .repaint s.fb] ∧ t.phase = .idle ∧
      Output.frequency .toneStart = some Config.toneFreq ∧
      (s.paused = true → t.dt = s.dt ∧ t.st = s.st) ∧
      (∀ x, t.getV x = s.getV x) ∧ t.getI = s.getI ∧ t.pc = s.pc ∧ t.stack = s.stack ∧ t.fb = s.fb ∧
      t.paused = s.paused ∧ t.waitReg = s.waitReg ∧ t.fault = s.fault ∧ t.params = s.params ∧ t.keys = s.keys ∧
      t.unwritten = s.unwritten ∧ t.inbox = s.inbox ∧ t.draws = s.draws ∧ ∀ a, t.byte a = s.byte a

/-- R138: every cycle of a core that waits for a key runs no step, keeps the timers and everything else, and emits the tone
command by the frozen ST and the repaint. For an ST that holds no value, the tone command by its field is the model's choice
(log entry 5). -/
def Obligations.PausedCycleOnlyEmits : Prop :=
  ∀ s, s.phase = .idle → s.paused = true → s.fault = none →
    cycle s = .next (s.setOutputs [if s.st = 0 then .toneStop else .toneStart, .repaint s.fb])

/-- R135: "With SPEED = 0 a cycle runs no step but still ticks the timers (if not paused) and emits both outputs."
Everything else, I, stack, memory and FB among it, is as before. For a timer that holds no value, that it ticks and sounds by
its field is the model's choice (log entry 5). -/
def Obligations.SpeedZeroCycleTicksAndEmits : Prop :=
  ∀ s, s.params.speed = 0 → s.phase = .idle → s.fault = none →
    ∃ t, cycle s = .next t ∧ t = { s with dt := t.dt, st := t.st, outputs := t.outputs } ∧
      t.dt.toNat = (if s.paused then s.dt.toNat else s.dt.toNat - 1) ∧
      t.st.toNat = (if s.paused then s.st.toNat else s.st.toNat - 1) ∧
      t.outputs = [if 0 < t.st.toNat then .toneStart else .toneStop, .repaint s.fb]

/-- R312: while a fault is latched, Cycle() has no effect and emits nothing, KeyDown changes only KEYS, and only Reset clears
the latch: any other transaction keeps it. What the host reads of it: the code of its kind (R310, "Code 0 means no fault") and
the status, which is fault, paused and FB (R54). -/
def Obligations.HaltedCoreStaysHalted : Prop :=
  (∀ s r, s.fault = some r → s.phase = .idle →
    transact .cycle s = .next (s.setOutputs []) ∧
    (∀ k, ∃ t, transact (.keyDown k) s = .next t ∧ t = (s.setKeys t.keys).setOutputs [] ∧
      ∀ j < 16, t.keys.getLsbD j = (s.keys.getLsbD j || decide (j = k.val))) ∧
    (∀ k, ∃ t, transact (.keyUp k) s = .next t ∧ t = (s.setKeys t.keys).setOutputs []) ∧
    (∀ program, program.length ≤ 3584 →
      ∃ t, transact (.reset program) s = .next t ∧ t.fault = none ∧ t.faultCode = 0 ∧ t.status.1 = none) ∧
    (∀ x t, (∀ program, x ≠ .reset program) → transact x s = .next t →
      t.faultCode = s.faultCode ∧ t.status = (some r, s.paused, s.fb))) ∧
  ∀ s : State, s.status = (s.fault, s.paused, s.fb) ∧ (s.faultCode = 0 ↔ s.fault = none) ∧
    ∀ r, s.fault = some r → s.faultCode = match r.kind with
      | .unknownOpcode => 1
      | .stackOverflow => 2
      | .stackUnderflow => 3
      | .memoryOutOfBounds => 4
      | .plotOutOfRange => 5

/-- R140: from an idle state (a jump to itself at PC) the core's next steps, and its next whole cycles, leave every register,
memory byte, stack entry and framebuffer cell unchanged; only DT and ST go on changing, by the tick. For a timer that holds no
value, that it ticks by its field and goes on holding none is the model's choice (log entry 5). -/
def Obligations.IdleStateStaysIdle : Prop :=
  (∀ s left, IdleState s → s.phase = .cycle (left + 1) → step s = .next (s.setPhase (.cycle left))) ∧
  (∀ s, IdleState s → s.phase = .idle →
    ∃ t, cycle s = .next t ∧ IdleState t ∧ SameButTimers s t ∧ t.phase = .idle ∧
      t.dt.toNat = s.dt.toNat - 1 ∧ t.st.toNat = s.st.toNat - 1)

/-! ### Key events, reset, the machine as a whole -/

/-- R136: KeyDown(k) sets KEYS[k]. On a core that waits for a key and is not halted it writes k to the latched register and
ends the wait, PC and every other piece of state as before; on a halted core or one that does not wait nothing else changes.
A key event emits nothing (R53). -/
def Obligations.KeyDownCompletesTheWait : Prop :=
  ∀ s k,
    (∀ x, s.fault = none → s.paused = true → s.waitReg = some x →
      ∃ t, transact (.keyDown k) s = .next t ∧ t.getV x = some (BitVec.ofNat 8 k.val) ∧
        (∀ r, r ≠ x → t.getV r = s.getV r) ∧ (∀ q, q ≠ .v x → (q ∈ t.unwritten ↔ q ∈ s.unwritten)) ∧
        (∀ j < 16, t.keys.getLsbD j = (s.keys.getLsbD j || decide (j = k.val))) ∧
        t = { s with
          v := t.v, unwritten := t.unwritten, keys := t.keys, paused := false, waitReg := none, outputs := [] }) ∧
    (s.fault ≠ none ∨ s.paused = false →
      ∃ t, transact (.keyDown k) s = .next t ∧ t = (s.setKeys t.keys).setOutputs [] ∧
        ∀ j < 16, t.keys.getLsbD j = (s.keys.getLsbD j || decide (j = k.val)))

/-- R52, R137: a KeyUp only clears its level: it ends no wait and touches the core not at all. A second KeyDown after the
one that ended a wait only sets its level, since that one has cleared `paused`. -/
def Obligations.OtherKeyEventsChangeOnlyLevels : Prop :=
  ∀ s k,
    (∃ t, transact (.keyUp k) s = .next t ∧ t = (s.setKeys t.keys).setOutputs [] ∧
      ∀ j < 16, t.keys.getLsbD j = (s.keys.getLsbD j && decide (j ≠ k.val))) ∧
    (∀ x k', s.fault = none → s.paused = true → s.waitReg = some x →
      ∃ t u, transact (.keyDown k) s = .next t ∧ transact (.keyDown k') t = .next u ∧
        u = (t.setKeys u.keys).setOutputs [] ∧ u.getV x = some (BitVec.ofNat 8 k.val))

/-- R317, R52: within a cycle the machine takes no transaction: whatever the host has asked for waits, and the key levels
stand. Between cycles, and before any Reset, its step takes the oldest transaction the host has issued, whichever it is (R50
to R52). That the host's transactions stand in an inbox is the model's choice (log entries 6 and 7). -/
def Obligations.NoTransactionLandsWithinACycle : Prop :=
  (∀ s t n, s.phase = .cycle n → step s = .next t → t.inbox = s.inbox ∧ t.keys = s.keys) ∧
  ∀ s x rest, (s.phase = .idle ∨ s.phase = .awaitingReset) → s.inbox = x :: rest →
    step s = transact x { s with inbox := rest }

/-- R340, R342: Reset with a program of at most 3584 bytes, at any time, leaves the values of R40 to R44 under the core's own
INIT_STATE, with font and program in memory, and what it leaves does not depend on what the core held (R44, R70, R71). That the host's inbox and the count of draws are kept
is the model's choice (log entries 3 and 7). -/
def Obligations.ResetLeavesTheResetState : Prop :=
  ∀ s program, program.length ≤ 3584 →
    ∃ t, transact (.reset program) s = .next t ∧ t.pc = 0x200 ∧ t.stack = [] ∧ t.paused = false ∧ t.waitReg = none ∧
      t.fault = none ∧ (∀ k, t.cell k = false) ∧ t.keys = 0 ∧ t.outputs = [] ∧
      (∀ j : Fin 80, t.byte j.val = some s.params.font[j.val]) ∧
      (∀ j, j < program.length → t.byte (0x200 + j) = program[j]?) ∧
      (s.params.initState = .zero →
        (∀ x, t.getV x = some 0) ∧ t.getI = some 0 ∧ t.getDT = some 0 ∧ t.getST = some 0 ∧
        ∀ a, 80 ≤ a → a < 4096 → (a < 0x200 ∨ 0x200 + program.length ≤ a) → t.byte a = some 0) ∧
      (s.params.initState = .unwritten →
        (∀ x, t.getV x = none) ∧ t.getI = none ∧ t.getDT = none ∧ t.getST = none ∧
        ∀ a, 80 ≤ a → a < 4096 → (a < 0x200 ∨ 0x200 + program.length ≤ a) → t.byte a = none) ∧
      (∀ s', s'.params = s.params →
        transact (.reset program) s' = .next { t with inbox := s'.inbox, draws := s'.draws })

/-- R50 and R343: what is refused. -/
def Obligations.RefusedTransactions : Prop :=
  (∀ s program, 3584 < program.length → transact (.reset program) s = .refused (.programTooLong program.length)) ∧
  (∀ s, s.phase = .awaitingReset → transact .cycle s = .refused .cycleBeforeReset)

/-- R40 to R44 for the machine's own reset state, which is Reset with the empty program under the default parameters (log
entry 10). -/
def Obligations.ResetStateHoldsTheResetValues : Prop :=
  State.reset.pc = 0x200 ∧ (∀ x, State.reset.getV x = some 0) ∧ State.reset.getI = some 0 ∧
  State.reset.getDT = some 0 ∧ State.reset.getST = some 0 ∧ State.reset.stack = [] ∧ State.reset.paused = false ∧
  State.reset.waitReg = none ∧ State.reset.fault = none ∧ (∀ k, State.reset.cell k = false) ∧
  (∀ j : Fin 80, State.reset.byte j.val = some State.reset.params.font[j.val]) ∧
  ∀ a, 80 ≤ a → a < 4096 → State.reset.byte a = some 0

/-- The reset state meets the invariant of the machine. -/
def Obligations.InvariantHoldsAtReset : Prop := MachineInv State.reset

/-- Every step keeps the invariant: memory stays canonical, paused agrees with waitReg (R34), the stack keeps its bound (R30),
PC stays at most 0x10FE (R28), a latched record keeps its shape (R35). -/
def Obligations.EveryStepKeepsTheInvariant : Prop :=
  ∀ s t, MachineInv s → step s = .next t → MachineInv t

/-- R7, R39: the parameters are no state: no step changes one. -/
def Obligations.ParametersNeverChange : Prop :=
  ∀ s t, step s = .next t → t.params = s.params

/-- R20, R21: V0 to VF are 16 separate cells: a register reads what was last written to it, and no other name reaches it. -/
def Obligations.RegistersAreSeparateCells : Prop :=
  ∀ (s : State) (x y : Reg) (nn : Byte) (a : Byte), s.getV y = some a →
    ∃ t u, exec (.ldImm x nn) s = .next t ∧ exec (.ldReg y y) t = .next u ∧
      u.getV y = some (if y = x then nn else a) ∧ ∀ z, z ≠ x → u.getV z = s.getV z

/-- R78, R346: the fetch of the very next instruction sees the bytes that FX55 or FX33 has just stored, at PC, at PC + 1 or at
both, as it sees the bytes they have left alone: the step after the store runs the word that stands there. -/
def Obligations.FetchSeesTheStoreBefore : Prop :=
  ∀ (s : State) (w : Word) (x : Reg) (left : Nat), ReadyToRun s left → s.getI = some w → s.pc.toNat + 1 < 4096 →
    (w.toNat + x.val < 4096 → (∀ r ≤ x, (s.getV r).isSome) →
      ∃ t, exec (.ldMemVx x) s = .next t ∧ ∀ hi lo,
        byteAfterStore w.toNat (x.val + 1) (fun j => s.getV (Fin.ofNat 16 j)) s s.pc.toNat = some hi →
        byteAfterStore w.toNat (x.val + 1) (fun j => s.getV (Fin.ofNat 16 j)) s (s.pc.toNat + 1) = some lo →
        t.pc = s.pc ∧ RunsWord t left (wordOfBytes hi lo)) ∧
    (w.toNat + 2 < 4096 → ∀ a, s.getV x = some a →
      ∃ t, exec (.ldBVx x) s = .next t ∧ ∀ hi lo,
        byteAfterStore w.toNat 3 (fun j => some (BitVec.ofNat 8 (a.toNat / 10 ^ (2 - j) % 10))) s s.pc.toNat = some hi →
        byteAfterStore w.toNat 3 (fun j => some (BitVec.ofNat 8 (a.toNat / 10 ^ (2 - j) % 10))) s (s.pc.toNat + 1) = some lo →
        t.pc = s.pc ∧ RunsWord t left (wordOfBytes hi lo))
end

