-- ==== Sys2Proof/Laws/Memory.lean ====
section
/-! SUPPORT. The laws of memory: a read after a write, and the canonical form that every write keeps. -/

namespace Sys2Proof.Machine.Memory

theorem find_insert (m : List Host.Cell) (a a' : Nat) (b : Byte) :
    find (insert a b m) a' = if a' = a then some b else find m a' := by
  induction m with
  | nil => simp only [insert, find, eq_comm]
  | cons c m ih =>
    obtain ⟨k, c⟩ := c
    unfold insert
    split
    · simp only [find, eq_comm]
    · split
      · subst_vars
        by_cases h : k = a'
        · simp [find, h]
        · simp [find, h, Ne.symm h]
      · simp only [find, ih]
        by_cases h : k = a'
        · subst h; simp [show ¬ k = a by omega]
        · simp [h]

theorem find_erase (m : List Host.Cell) (a a' : Nat) :
    find (erase a m) a' = if a' = a then none else find m a' := by
  induction m with
  | nil => simp [erase, find]
  | cons c m ih =>
    obtain ⟨k, c⟩ := c
    by_cases hk : k = a
    · subst hk; by_cases h : k = a'
      · subst h; simp [erase, ih]
      · simp [erase, ih, find, h]
    · by_cases h : k = a'
      · subst h; simp [erase, find, hk]
      · simp [erase, find, hk, h, ih]

/-- A read after a write: the byte written there, and every other address as before (R75). -/
@[simp] theorem get_set (p : Config.Params) (m : List Host.Cell) (a a' : Nat) (b : Byte) :
    get p (set p a b m) a' = if a' = a then some b else get p m a' := by
  unfold get set
  by_cases hr : resetByte p a = some b
  · simp only [hr, if_true, find_erase]
    by_cases h : a' = a
    · subst h; simp [hr]
    · simp [h]
  · simp only [hr, if_false, find_insert]
    by_cases h : a' = a <;> simp [h]

/-- A read after writes at consecutive addresses. -/
theorem get_setAll (p : Config.Params) (bs : List Byte) (m : List Host.Cell) (a a' : Nat) :
    get p (setAll p a bs m) a' = if a ≤ a' ∧ a' < a + bs.length then bs[a' - a]? else get p m a' := by
  induction bs generalizing a m with
  | nil => rw [if_neg (by simp only [List.length_nil]; omega)]; rfl
  | cons b bs ih =>
    rw [setAll, ih, get_set]
    by_cases h1 : a' = a
    · subst h1; simp
    · by_cases h2 : a + 1 ≤ a' ∧ a' < a + 1 + bs.length
      · obtain ⟨d, rfl⟩ : ∃ d, a' = a + 1 + d := ⟨a' - (a + 1), by omega⟩
        rw [if_pos h2, if_pos (by simp only [List.length_cons]; omega), show a + 1 + d - (a + 1) = d by omega,
          show a + 1 + d - a = d + 1 by omega, List.getElem?_cons_succ]
      · rw [if_neg h2, if_neg h1, if_neg (by simp only [List.length_cons]; omega)]

theorem mem_insert {a : Nat} {b : Byte} {m : List Host.Cell} {c : Host.Cell} (h : c ∈ insert a b m) :
    c = (a, b) ∨ c ∈ m := by
  induction m with
  | nil => simpa [insert] using h
  | cons d m ih =>
    unfold insert at h
    split at h
    · simpa using h
    · split at h
      · rcases List.mem_cons.mp h with h | h <;> simp [h]
      · rcases List.mem_cons.mp h with h | h
        · simp [h]
        · rcases ih h with h | h <;> simp [h]

theorem mem_erase {a : Nat} {m : List Host.Cell} {c : Host.Cell} (h : c ∈ erase a m) : c ∈ m := by
  induction m with
  | nil => cases h
  | cons d m ih =>
    unfold erase at h
    split at h
    · exact List.mem_cons_of_mem _ (ih h)
    · rcases List.mem_cons.mp h with h | h
      · simp [h]
      · exact List.mem_cons_of_mem _ (ih h)

theorem pairwise_insert {m : List Host.Cell} (a : Nat) (b : Byte) (h : m.Pairwise fun c d => c.1 < d.1) :
    (insert a b m).Pairwise fun c d => c.1 < d.1 := by
  induction m with
  | nil => simp [insert]
  | cons d m ih =>
    obtain ⟨k, c⟩ := d
    rw [List.pairwise_cons] at h
    unfold insert
    split
    · rename_i hk
      refine List.pairwise_cons.mpr ⟨fun x hx => ?_, List.pairwise_cons.mpr h⟩
      rcases List.mem_cons.mp hx with rfl | hx
      · exact hk
      · exact Nat.lt_trans hk (h.1 x hx)
    · split
      · rename_i hk; subst hk
        exact List.pairwise_cons.mpr h
      · refine List.pairwise_cons.mpr ⟨fun x hx => ?_, ih h.2⟩
        rcases mem_insert hx with rfl | hx
        · show k < a; omega
        · exact h.1 x hx

theorem pairwise_erase {m : List Host.Cell} (a : Nat) (h : m.Pairwise fun c d => c.1 < d.1) :
    (erase a m).Pairwise fun c d => c.1 < d.1 := by
  induction m with
  | nil => simp [erase]
  | cons d m ih =>
    rw [List.pairwise_cons] at h
    unfold erase
    split
    · exact ih h.2
    · exact List.pairwise_cons.mpr ⟨fun x hx => h.1 x (mem_erase hx), ih h.2⟩

theorem wf_iff (p : Config.Params) (m : List Host.Cell) :
    wf p m = true ↔
      (m.Pairwise fun c d => c.1 < d.1) ∧ ∀ c ∈ m, c.1 < memSize ∧ resetByte p c.1 ≠ some c.2 := by
  simp [wf]

/-- Writing one byte in range keeps the canonical form. -/
theorem wf_set {p : Config.Params} {m : List Host.Cell} {a : Nat} {b : Byte} (ha : a < memSize) (h : wf p m = true) :
    wf p (set p a b m) = true := by
  rw [wf_iff] at h ⊢
  unfold set
  split
  · exact ⟨pairwise_erase a h.1, fun c hc => h.2 c (mem_erase hc)⟩
  · rename_i hr
    refine ⟨pairwise_insert a b h.1, fun c hc => ?_⟩
    rcases mem_insert hc with rfl | hc
    · exact ⟨ha, hr⟩
    · exact h.2 c hc

/-- Writing bytes in range keeps the canonical form. -/
theorem wf_setAll {p : Config.Params} (bs : List Byte) {m : List Host.Cell} {a : Nat} (ha : a + bs.length ≤ memSize)
    (h : wf p m = true) : wf p (setAll p a bs m) = true := by
  induction bs generalizing a m with
  | nil => exact h
  | cons b bs ih =>
    simp only [List.length_cons] at ha
    exact ih (by omega) (wf_set (by omega) h)

/-- The empty list is canonical: nothing has been written. -/
@[simp] theorem wf_nil (p : Config.Params) : wf p [] = true := rfl

end Sys2Proof.Machine.Memory
end

