-- ==== Sys2Proof/Laws/State.lean ====
section
/-! SUPPORT. The small lemmas of State's updates: one per field per update, true by rfl; then the accessors over the updates. -/

namespace Sys2Proof.Machine.State

@[simp] theorem markWritten_params (s : State) (r : RegName) : (s.markWritten r).params = s.params := rfl
@[simp] theorem markWritten_v (s : State) (r : RegName) : (s.markWritten r).v = s.v := rfl
@[simp] theorem markWritten_i (s : State) (r : RegName) : (s.markWritten r).i = s.i := rfl
@[simp] theorem markWritten_pc (s : State) (r : RegName) : (s.markWritten r).pc = s.pc := rfl
@[simp] theorem markWritten_stack (s : State) (r : RegName) : (s.markWritten r).stack = s.stack := rfl
@[simp] theorem markWritten_dt (s : State) (r : RegName) : (s.markWritten r).dt = s.dt := rfl
@[simp] theorem markWritten_st (s : State) (r : RegName) : (s.markWritten r).st = s.st := rfl
@[simp] theorem markWritten_fb (s : State) (r : RegName) : (s.markWritten r).fb = s.fb := rfl
@[simp] theorem markWritten_paused (s : State) (r : RegName) : (s.markWritten r).paused = s.paused := rfl
@[simp] theorem markWritten_waitReg (s : State) (r : RegName) : (s.markWritten r).waitReg = s.waitReg := rfl
@[simp] theorem markWritten_fault (s : State) (r : RegName) : (s.markWritten r).fault = s.fault := rfl
@[simp] theorem markWritten_mem (s : State) (r : RegName) : (s.markWritten r).mem = s.mem := rfl
@[simp] theorem markWritten_keys (s : State) (r : RegName) : (s.markWritten r).keys = s.keys := rfl
@[simp] theorem markWritten_unwritten (s : State) (r : RegName) : (s.markWritten r).unwritten = s.unwritten.filter fun q => decide (q ≠ r) := rfl
@[simp] theorem markWritten_phase (s : State) (r : RegName) : (s.markWritten r).phase = s.phase := rfl
@[simp] theorem markWritten_inbox (s : State) (r : RegName) : (s.markWritten r).inbox = s.inbox := rfl
@[simp] theorem markWritten_outputs (s : State) (r : RegName) : (s.markWritten r).outputs = s.outputs := rfl
@[simp] theorem markWritten_draws (s : State) (r : RegName) : (s.markWritten r).draws = s.draws := rfl

@[simp] theorem setV_params (s : State) (x : Reg) (b : Byte) : (s.setV x b).params = s.params := rfl
@[simp] theorem setV_v (s : State) (x : Reg) (b : Byte) : (s.setV x b).v = s.v.set x.val b := rfl
@[simp] theorem setV_i (s : State) (x : Reg) (b : Byte) : (s.setV x b).i = s.i := rfl
@[simp] theorem setV_pc (s : State) (x : Reg) (b : Byte) : (s.setV x b).pc = s.pc := rfl
@[simp] theorem setV_stack (s : State) (x : Reg) (b : Byte) : (s.setV x b).stack = s.stack := rfl
@[simp] theorem setV_dt (s : State) (x : Reg) (b : Byte) : (s.setV x b).dt = s.dt := rfl
@[simp] theorem setV_st (s : State) (x : Reg) (b : Byte) : (s.setV x b).st = s.st := rfl
@[simp] theorem setV_fb (s : State) (x : Reg) (b : Byte) : (s.setV x b).fb = s.fb := rfl
@[simp] theorem setV_paused (s : State) (x : Reg) (b : Byte) : (s.setV x b).paused = s.paused := rfl
@[simp] theorem setV_waitReg (s : State) (x : Reg) (b : Byte) : (s.setV x b).waitReg = s.waitReg := rfl
@[simp] theorem setV_fault (s : State) (x : Reg) (b : Byte) : (s.setV x b).fault = s.fault := rfl
@[simp] theorem setV_mem (s : State) (x : Reg) (b : Byte) : (s.setV x b).mem = s.mem := rfl
@[simp] theorem setV_keys (s : State) (x : Reg) (b : Byte) : (s.setV x b).keys = s.keys := rfl
@[simp] theorem setV_unwritten (s : State) (x : Reg) (b : Byte) : (s.setV x b).unwritten = s.unwritten.filter fun q => decide (q ≠ .v x) := rfl
@[simp] theorem setV_phase (s : State) (x : Reg) (b : Byte) : (s.setV x b).phase = s.phase := rfl
@[simp] theorem setV_inbox (s : State) (x : Reg) (b : Byte) : (s.setV x b).inbox = s.inbox := rfl
@[simp] theorem setV_outputs (s : State) (x : Reg) (b : Byte) : (s.setV x b).outputs = s.outputs := rfl
@[simp] theorem setV_draws (s : State) (x : Reg) (b : Byte) : (s.setV x b).draws = s.draws := rfl

@[simp] theorem setI_params (s : State) (w : Word) : (s.setI w).params = s.params := rfl
@[simp] theorem setI_v (s : State) (w : Word) : (s.setI w).v = s.v := rfl
@[simp] theorem setI_i (s : State) (w : Word) : (s.setI w).i = w := rfl
@[simp] theorem setI_pc (s : State) (w : Word) : (s.setI w).pc = s.pc := rfl
@[simp] theorem setI_stack (s : State) (w : Word) : (s.setI w).stack = s.stack := rfl
@[simp] theorem setI_dt (s : State) (w : Word) : (s.setI w).dt = s.dt := rfl
@[simp] theorem setI_st (s : State) (w : Word) : (s.setI w).st = s.st := rfl
@[simp] theorem setI_fb (s : State) (w : Word) : (s.setI w).fb = s.fb := rfl
@[simp] theorem setI_paused (s : State) (w : Word) : (s.setI w).paused = s.paused := rfl
@[simp] theorem setI_waitReg (s : State) (w : Word) : (s.setI w).waitReg = s.waitReg := rfl
@[simp] theorem setI_fault (s : State) (w : Word) : (s.setI w).fault = s.fault := rfl
@[simp] theorem setI_mem (s : State) (w : Word) : (s.setI w).mem = s.mem := rfl
@[simp] theorem setI_keys (s : State) (w : Word) : (s.setI w).keys = s.keys := rfl
@[simp] theorem setI_unwritten (s : State) (w : Word) : (s.setI w).unwritten = s.unwritten.filter fun q => decide (q ≠ .i) := rfl
@[simp] theorem setI_phase (s : State) (w : Word) : (s.setI w).phase = s.phase := rfl
@[simp] theorem setI_inbox (s : State) (w : Word) : (s.setI w).inbox = s.inbox := rfl
@[simp] theorem setI_outputs (s : State) (w : Word) : (s.setI w).outputs = s.outputs := rfl
@[simp] theorem setI_draws (s : State) (w : Word) : (s.setI w).draws = s.draws := rfl

@[simp] theorem setDT_params (s : State) (b : Byte) : (s.setDT b).params = s.params := rfl
@[simp] theorem setDT_v (s : State) (b : Byte) : (s.setDT b).v = s.v := rfl
@[simp] theorem setDT_i (s : State) (b : Byte) : (s.setDT b).i = s.i := rfl
@[simp] theorem setDT_pc (s : State) (b : Byte) : (s.setDT b).pc = s.pc := rfl
@[simp] theorem setDT_stack (s : State) (b : Byte) : (s.setDT b).stack = s.stack := rfl
@[simp] theorem setDT_dt (s : State) (b : Byte) : (s.setDT b).dt = b := rfl
@[simp] theorem setDT_st (s : State) (b : Byte) : (s.setDT b).st = s.st := rfl
@[simp] theorem setDT_fb (s : State) (b : Byte) : (s.setDT b).fb = s.fb := rfl
@[simp] theorem setDT_paused (s : State) (b : Byte) : (s.setDT b).paused = s.paused := rfl
@[simp] theorem setDT_waitReg (s : State) (b : Byte) : (s.setDT b).waitReg = s.waitReg := rfl
@[simp] theorem setDT_fault (s : State) (b : Byte) : (s.setDT b).fault = s.fault := rfl
@[simp] theorem setDT_mem (s : State) (b : Byte) : (s.setDT b).mem = s.mem := rfl
@[simp] theorem setDT_keys (s : State) (b : Byte) : (s.setDT b).keys = s.keys := rfl
@[simp] theorem setDT_unwritten (s : State) (b : Byte) : (s.setDT b).unwritten = s.unwritten.filter fun q => decide (q ≠ .dt) := rfl
@[simp] theorem setDT_phase (s : State) (b : Byte) : (s.setDT b).phase = s.phase := rfl
@[simp] theorem setDT_inbox (s : State) (b : Byte) : (s.setDT b).inbox = s.inbox := rfl
@[simp] theorem setDT_outputs (s : State) (b : Byte) : (s.setDT b).outputs = s.outputs := rfl
@[simp] theorem setDT_draws (s : State) (b : Byte) : (s.setDT b).draws = s.draws := rfl

@[simp] theorem setST_params (s : State) (b : Byte) : (s.setST b).params = s.params := rfl
@[simp] theorem setST_v (s : State) (b : Byte) : (s.setST b).v = s.v := rfl
@[simp] theorem setST_i (s : State) (b : Byte) : (s.setST b).i = s.i := rfl
@[simp] theorem setST_pc (s : State) (b : Byte) : (s.setST b).pc = s.pc := rfl
@[simp] theorem setST_stack (s : State) (b : Byte) : (s.setST b).stack = s.stack := rfl
@[simp] theorem setST_dt (s : State) (b : Byte) : (s.setST b).dt = s.dt := rfl
@[simp] theorem setST_st (s : State) (b : Byte) : (s.setST b).st = b := rfl
@[simp] theorem setST_fb (s : State) (b : Byte) : (s.setST b).fb = s.fb := rfl
@[simp] theorem setST_paused (s : State) (b : Byte) : (s.setST b).paused = s.paused := rfl
@[simp] theorem setST_waitReg (s : State) (b : Byte) : (s.setST b).waitReg = s.waitReg := rfl
@[simp] theorem setST_fault (s : State) (b : Byte) : (s.setST b).fault = s.fault := rfl
@[simp] theorem setST_mem (s : State) (b : Byte) : (s.setST b).mem = s.mem := rfl
@[simp] theorem setST_keys (s : State) (b : Byte) : (s.setST b).keys = s.keys := rfl
@[simp] theorem setST_unwritten (s : State) (b : Byte) : (s.setST b).unwritten = s.unwritten.filter fun q => decide (q ≠ .st) := rfl
@[simp] theorem setST_phase (s : State) (b : Byte) : (s.setST b).phase = s.phase := rfl
@[simp] theorem setST_inbox (s : State) (b : Byte) : (s.setST b).inbox = s.inbox := rfl
@[simp] theorem setST_outputs (s : State) (b : Byte) : (s.setST b).outputs = s.outputs := rfl
@[simp] theorem setST_draws (s : State) (b : Byte) : (s.setST b).draws = s.draws := rfl

@[simp] theorem setBytes_params (s : State) (a : Nat) (bs : List Byte) : (s.setBytes a bs).params = s.params := rfl
@[simp] theorem setBytes_v (s : State) (a : Nat) (bs : List Byte) : (s.setBytes a bs).v = s.v := rfl
@[simp] theorem setBytes_i (s : State) (a : Nat) (bs : List Byte) : (s.setBytes a bs).i = s.i := rfl
@[simp] theorem setBytes_pc (s : State) (a : Nat) (bs : List Byte) : (s.setBytes a bs).pc = s.pc := rfl
@[simp] theorem setBytes_stack (s : State) (a : Nat) (bs : List Byte) : (s.setBytes a bs).stack = s.stack := rfl
@[simp] theorem setBytes_dt (s : State) (a : Nat) (bs : List Byte) : (s.setBytes a bs).dt = s.dt := rfl
@[simp] theorem setBytes_st (s : State) (a : Nat) (bs : List Byte) : (s.setBytes a bs).st = s.st := rfl
@[simp] theorem setBytes_fb (s : State) (a : Nat) (bs : List Byte) : (s.setBytes a bs).fb = s.fb := rfl
@[simp] theorem setBytes_paused (s : State) (a : Nat) (bs : List Byte) : (s.setBytes a bs).paused = s.paused := rfl
@[simp] theorem setBytes_waitReg (s : State) (a : Nat) (bs : List Byte) : (s.setBytes a bs).waitReg = s.waitReg := rfl
@[simp] theorem setBytes_fault (s : State) (a : Nat) (bs : List Byte) : (s.setBytes a bs).fault = s.fault := rfl
@[simp] theorem setBytes_mem (s : State) (a : Nat) (bs : List Byte) : (s.setBytes a bs).mem = Memory.setAll s.params a bs s.mem := rfl
@[simp] theorem setBytes_keys (s : State) (a : Nat) (bs : List Byte) : (s.setBytes a bs).keys = s.keys := rfl
@[simp] theorem setBytes_unwritten (s : State) (a : Nat) (bs : List Byte) : (s.setBytes a bs).unwritten = s.unwritten := rfl
@[simp] theorem setBytes_phase (s : State) (a : Nat) (bs : List Byte) : (s.setBytes a bs).phase = s.phase := rfl
@[simp] theorem setBytes_inbox (s : State) (a : Nat) (bs : List Byte) : (s.setBytes a bs).inbox = s.inbox := rfl
@[simp] theorem setBytes_outputs (s : State) (a : Nat) (bs : List Byte) : (s.setBytes a bs).outputs = s.outputs := rfl
@[simp] theorem setBytes_draws (s : State) (a : Nat) (bs : List Byte) : (s.setBytes a bs).draws = s.draws := rfl

@[simp] theorem setPC_params (s : State) (w : Word) : (s.setPC w).params = s.params := rfl
@[simp] theorem setPC_v (s : State) (w : Word) : (s.setPC w).v = s.v := rfl
@[simp] theorem setPC_i (s : State) (w : Word) : (s.setPC w).i = s.i := rfl
@[simp] theorem setPC_pc (s : State) (w : Word) : (s.setPC w).pc = w := rfl
@[simp] theorem setPC_stack (s : State) (w : Word) : (s.setPC w).stack = s.stack := rfl
@[simp] theorem setPC_dt (s : State) (w : Word) : (s.setPC w).dt = s.dt := rfl
@[simp] theorem setPC_st (s : State) (w : Word) : (s.setPC w).st = s.st := rfl
@[simp] theorem setPC_fb (s : State) (w : Word) : (s.setPC w).fb = s.fb := rfl
@[simp] theorem setPC_paused (s : State) (w : Word) : (s.setPC w).paused = s.paused := rfl
@[simp] theorem setPC_waitReg (s : State) (w : Word) : (s.setPC w).waitReg = s.waitReg := rfl
@[simp] theorem setPC_fault (s : State) (w : Word) : (s.setPC w).fault = s.fault := rfl
@[simp] theorem setPC_mem (s : State) (w : Word) : (s.setPC w).mem = s.mem := rfl
@[simp] theorem setPC_keys (s : State) (w : Word) : (s.setPC w).keys = s.keys := rfl
@[simp] theorem setPC_unwritten (s : State) (w : Word) : (s.setPC w).unwritten = s.unwritten := rfl
@[simp] theorem setPC_phase (s : State) (w : Word) : (s.setPC w).phase = s.phase := rfl
@[simp] theorem setPC_inbox (s : State) (w : Word) : (s.setPC w).inbox = s.inbox := rfl
@[simp] theorem setPC_outputs (s : State) (w : Word) : (s.setPC w).outputs = s.outputs := rfl
@[simp] theorem setPC_draws (s : State) (w : Word) : (s.setPC w).draws = s.draws := rfl

@[simp] theorem advance_params (s : State) : (s.advance).params = s.params := rfl
@[simp] theorem advance_v (s : State) : (s.advance).v = s.v := rfl
@[simp] theorem advance_i (s : State) : (s.advance).i = s.i := rfl
@[simp] theorem advance_pc (s : State) : (s.advance).pc = s.pc + 2 := rfl
@[simp] theorem advance_stack (s : State) : (s.advance).stack = s.stack := rfl
@[simp] theorem advance_dt (s : State) : (s.advance).dt = s.dt := rfl
@[simp] theorem advance_st (s : State) : (s.advance).st = s.st := rfl
@[simp] theorem advance_fb (s : State) : (s.advance).fb = s.fb := rfl
@[simp] theorem advance_paused (s : State) : (s.advance).paused = s.paused := rfl
@[simp] theorem advance_waitReg (s : State) : (s.advance).waitReg = s.waitReg := rfl
@[simp] theorem advance_fault (s : State) : (s.advance).fault = s.fault := rfl
@[simp] theorem advance_mem (s : State) : (s.advance).mem = s.mem := rfl
@[simp] theorem advance_keys (s : State) : (s.advance).keys = s.keys := rfl
@[simp] theorem advance_unwritten (s : State) : (s.advance).unwritten = s.unwritten := rfl
@[simp] theorem advance_phase (s : State) : (s.advance).phase = s.phase := rfl
@[simp] theorem advance_inbox (s : State) : (s.advance).inbox = s.inbox := rfl
@[simp] theorem advance_outputs (s : State) : (s.advance).outputs = s.outputs := rfl
@[simp] theorem advance_draws (s : State) : (s.advance).draws = s.draws := rfl

@[simp] theorem push_params (s : State) (w : Word) : (s.push w).params = s.params := rfl
@[simp] theorem push_v (s : State) (w : Word) : (s.push w).v = s.v := rfl
@[simp] theorem push_i (s : State) (w : Word) : (s.push w).i = s.i := rfl
@[simp] theorem push_pc (s : State) (w : Word) : (s.push w).pc = s.pc := rfl
@[simp] theorem push_stack (s : State) (w : Word) : (s.push w).stack = s.stack ++ [w] := rfl
@[simp] theorem push_dt (s : State) (w : Word) : (s.push w).dt = s.dt := rfl
@[simp] theorem push_st (s : State) (w : Word) : (s.push w).st = s.st := rfl
@[simp] theorem push_fb (s : State) (w : Word) : (s.push w).fb = s.fb := rfl
@[simp] theorem push_paused (s : State) (w : Word) : (s.push w).paused = s.paused := rfl
@[simp] theorem push_waitReg (s : State) (w : Word) : (s.push w).waitReg = s.waitReg := rfl
@[simp] theorem push_fault (s : State) (w : Word) : (s.push w).fault = s.fault := rfl
@[simp] theorem push_mem (s : State) (w : Word) : (s.push w).mem = s.mem := rfl
@[simp] theorem push_keys (s : State) (w : Word) : (s.push w).keys = s.keys := rfl
@[simp] theorem push_unwritten (s : State) (w : Word) : (s.push w).unwritten = s.unwritten := rfl
@[simp] theorem push_phase (s : State) (w : Word) : (s.push w).phase = s.phase := rfl
@[simp] theorem push_inbox (s : State) (w : Word) : (s.push w).inbox = s.inbox := rfl
@[simp] theorem push_outputs (s : State) (w : Word) : (s.push w).outputs = s.outputs := rfl
@[simp] theorem push_draws (s : State) (w : Word) : (s.push w).draws = s.draws := rfl

@[simp] theorem dropTop_params (s : State) : (s.dropTop).params = s.params := rfl
@[simp] theorem dropTop_v (s : State) : (s.dropTop).v = s.v := rfl
@[simp] theorem dropTop_i (s : State) : (s.dropTop).i = s.i := rfl
@[simp] theorem dropTop_pc (s : State) : (s.dropTop).pc = s.pc := rfl
@[simp] theorem dropTop_stack (s : State) : (s.dropTop).stack = s.stack.dropLast := rfl
@[simp] theorem dropTop_dt (s : State) : (s.dropTop).dt = s.dt := rfl
@[simp] theorem dropTop_st (s : State) : (s.dropTop).st = s.st := rfl
@[simp] theorem dropTop_fb (s : State) : (s.dropTop).fb = s.fb := rfl
@[simp] theorem dropTop_paused (s : State) : (s.dropTop).paused = s.paused := rfl
@[simp] theorem dropTop_waitReg (s : State) : (s.dropTop).waitReg = s.waitReg := rfl
@[simp] theorem dropTop_fault (s : State) : (s.dropTop).fault = s.fault := rfl
@[simp] theorem dropTop_mem (s : State) : (s.dropTop).mem = s.mem := rfl
@[simp] theorem dropTop_keys (s : State) : (s.dropTop).keys = s.keys := rfl
@[simp] theorem dropTop_unwritten (s : State) : (s.dropTop).unwritten = s.unwritten := rfl
@[simp] theorem dropTop_phase (s : State) : (s.dropTop).phase = s.phase := rfl
@[simp] theorem dropTop_inbox (s : State) : (s.dropTop).inbox = s.inbox := rfl
@[simp] theorem dropTop_outputs (s : State) : (s.dropTop).outputs = s.outputs := rfl
@[simp] theorem dropTop_draws (s : State) : (s.dropTop).draws = s.draws := rfl

@[simp] theorem tookDraw_params (s : State) : (s.tookDraw).params = s.params := rfl
@[simp] theorem tookDraw_v (s : State) : (s.tookDraw).v = s.v := rfl
@[simp] theorem tookDraw_i (s : State) : (s.tookDraw).i = s.i := rfl
@[simp] theorem tookDraw_pc (s : State) : (s.tookDraw).pc = s.pc := rfl
@[simp] theorem tookDraw_stack (s : State) : (s.tookDraw).stack = s.stack := rfl
@[simp] theorem tookDraw_dt (s : State) : (s.tookDraw).dt = s.dt := rfl
@[simp] theorem tookDraw_st (s : State) : (s.tookDraw).st = s.st := rfl
@[simp] theorem tookDraw_fb (s : State) : (s.tookDraw).fb = s.fb := rfl
@[simp] theorem tookDraw_paused (s : State) : (s.tookDraw).paused = s.paused := rfl
@[simp] theorem tookDraw_waitReg (s : State) : (s.tookDraw).waitReg = s.waitReg := rfl
@[simp] theorem tookDraw_fault (s : State) : (s.tookDraw).fault = s.fault := rfl
@[simp] theorem tookDraw_mem (s : State) : (s.tookDraw).mem = s.mem := rfl
@[simp] theorem tookDraw_keys (s : State) : (s.tookDraw).keys = s.keys := rfl
@[simp] theorem tookDraw_unwritten (s : State) : (s.tookDraw).unwritten = s.unwritten := rfl
@[simp] theorem tookDraw_phase (s : State) : (s.tookDraw).phase = s.phase := rfl
@[simp] theorem tookDraw_inbox (s : State) : (s.tookDraw).inbox = s.inbox := rfl
@[simp] theorem tookDraw_outputs (s : State) : (s.tookDraw).outputs = s.outputs := rfl
@[simp] theorem tookDraw_draws (s : State) : (s.tookDraw).draws = s.draws + 1 := rfl

@[simp] theorem raise_params (s : State) (k : FaultKind) (p : Word) (o : Option Word) (a : Option Nat) : (s.raise k p o a).params = s.params := rfl
@[simp] theorem raise_v (s : State) (k : FaultKind) (p : Word) (o : Option Word) (a : Option Nat) : (s.raise k p o a).v = s.v := rfl
@[simp] theorem raise_i (s : State) (k : FaultKind) (p : Word) (o : Option Word) (a : Option Nat) : (s.raise k p o a).i = s.i := rfl
@[simp] theorem raise_pc (s : State) (k : FaultKind) (p : Word) (o : Option Word) (a : Option Nat) : (s.raise k p o a).pc = s.pc := rfl
@[simp] theorem raise_stack (s : State) (k : FaultKind) (p : Word) (o : Option Word) (a : Option Nat) : (s.raise k p o a).stack = s.stack := rfl
@[simp] theorem raise_dt (s : State) (k : FaultKind) (p : Word) (o : Option Word) (a : Option Nat) : (s.raise k p o a).dt = s.dt := rfl
@[simp] theorem raise_st (s : State) (k : FaultKind) (p : Word) (o : Option Word) (a : Option Nat) : (s.raise k p o a).st = s.st := rfl
@[simp] theorem raise_fb (s : State) (k : FaultKind) (p : Word) (o : Option Word) (a : Option Nat) : (s.raise k p o a).fb = s.fb := rfl
@[simp] theorem raise_paused (s : State) (k : FaultKind) (p : Word) (o : Option Word) (a : Option Nat) : (s.raise k p o a).paused = s.paused := rfl
@[simp] theorem raise_waitReg (s : State) (k : FaultKind) (p : Word) (o : Option Word) (a : Option Nat) : (s.raise k p o a).waitReg = s.waitReg := rfl
@[simp] theorem raise_fault (s : State) (k : FaultKind) (p : Word) (o : Option Word) (a : Option Nat) : (s.raise k p o a).fault = some ⟨k, p, o, a⟩ := rfl
@[simp] theorem raise_mem (s : State) (k : FaultKind) (p : Word) (o : Option Word) (a : Option Nat) : (s.raise k p o a).mem = s.mem := rfl
@[simp] theorem raise_keys (s : State) (k : FaultKind) (p : Word) (o : Option Word) (a : Option Nat) : (s.raise k p o a).keys = s.keys := rfl
@[simp] theorem raise_unwritten (s : State) (k : FaultKind) (p : Word) (o : Option Word) (a : Option Nat) : (s.raise k p o a).unwritten = s.unwritten := rfl
@[simp] theorem raise_phase (s : State) (k : FaultKind) (p : Word) (o : Option Word) (a : Option Nat) : (s.raise k p o a).phase = .idle := rfl
@[simp] theorem raise_inbox (s : State) (k : FaultKind) (p : Word) (o : Option Word) (a : Option Nat) : (s.raise k p o a).inbox = s.inbox := rfl
@[simp] theorem raise_outputs (s : State) (k : FaultKind) (p : Word) (o : Option Word) (a : Option Nat) : (s.raise k p o a).outputs = s.outputs := rfl
@[simp] theorem raise_draws (s : State) (k : FaultKind) (p : Word) (o : Option Word) (a : Option Nat) : (s.raise k p o a).draws = s.draws := rfl

@[simp] theorem raiseIn_params (s : State) (j : Instr) (k : FaultKind) (a : Option Nat) : (s.raiseIn j k a).params = s.params := rfl
@[simp] theorem raiseIn_v (s : State) (j : Instr) (k : FaultKind) (a : Option Nat) : (s.raiseIn j k a).v = s.v := rfl
@[simp] theorem raiseIn_i (s : State) (j : Instr) (k : FaultKind) (a : Option Nat) : (s.raiseIn j k a).i = s.i := rfl
@[simp] theorem raiseIn_pc (s : State) (j : Instr) (k : FaultKind) (a : Option Nat) : (s.raiseIn j k a).pc = s.pc := rfl
@[simp] theorem raiseIn_stack (s : State) (j : Instr) (k : FaultKind) (a : Option Nat) : (s.raiseIn j k a).stack = s.stack := rfl
@[simp] theorem raiseIn_dt (s : State) (j : Instr) (k : FaultKind) (a : Option Nat) : (s.raiseIn j k a).dt = s.dt := rfl
@[simp] theorem raiseIn_st (s : State) (j : Instr) (k : FaultKind) (a : Option Nat) : (s.raiseIn j k a).st = s.st := rfl
@[simp] theorem raiseIn_fb (s : State) (j : Instr) (k : FaultKind) (a : Option Nat) : (s.raiseIn j k a).fb = s.fb := rfl
@[simp] theorem raiseIn_paused (s : State) (j : Instr) (k : FaultKind) (a : Option Nat) : (s.raiseIn j k a).paused = s.paused := rfl
@[simp] theorem raiseIn_waitReg (s : State) (j : Instr) (k : FaultKind) (a : Option Nat) : (s.raiseIn j k a).waitReg = s.waitReg := rfl
@[simp] theorem raiseIn_fault (s : State) (j : Instr) (k : FaultKind) (a : Option Nat) : (s.raiseIn j k a).fault = some ⟨k, s.pc - 2, some (encode j), a⟩ := rfl
@[simp] theorem raiseIn_mem (s : State) (j : Instr) (k : FaultKind) (a : Option Nat) : (s.raiseIn j k a).mem = s.mem := rfl
@[simp] theorem raiseIn_keys (s : State) (j : Instr) (k : FaultKind) (a : Option Nat) : (s.raiseIn j k a).keys = s.keys := rfl
@[simp] theorem raiseIn_unwritten (s : State) (j : Instr) (k : FaultKind) (a : Option Nat) : (s.raiseIn j k a).unwritten = s.unwritten := rfl
@[simp] theorem raiseIn_phase (s : State) (j : Instr) (k : FaultKind) (a : Option Nat) : (s.raiseIn j k a).phase = .idle := rfl
@[simp] theorem raiseIn_inbox (s : State) (j : Instr) (k : FaultKind) (a : Option Nat) : (s.raiseIn j k a).inbox = s.inbox := rfl
@[simp] theorem raiseIn_outputs (s : State) (j : Instr) (k : FaultKind) (a : Option Nat) : (s.raiseIn j k a).outputs = s.outputs := rfl
@[simp] theorem raiseIn_draws (s : State) (j : Instr) (k : FaultKind) (a : Option Nat) : (s.raiseIn j k a).draws = s.draws := rfl

@[simp] theorem setFB_params (s : State) (f : FrameBuffer) : (s.setFB f).params = s.params := rfl
@[simp] theorem setFB_v (s : State) (f : FrameBuffer) : (s.setFB f).v = s.v := rfl
@[simp] theorem setFB_i (s : State) (f : FrameBuffer) : (s.setFB f).i = s.i := rfl
@[simp] theorem setFB_pc (s : State) (f : FrameBuffer) : (s.setFB f).pc = s.pc := rfl
@[simp] theorem setFB_stack (s : State) (f : FrameBuffer) : (s.setFB f).stack = s.stack := rfl
@[simp] theorem setFB_dt (s : State) (f : FrameBuffer) : (s.setFB f).dt = s.dt := rfl
@[simp] theorem setFB_st (s : State) (f : FrameBuffer) : (s.setFB f).st = s.st := rfl
@[simp] theorem setFB_fb (s : State) (f : FrameBuffer) : (s.setFB f).fb = f := rfl
@[simp] theorem setFB_paused (s : State) (f : FrameBuffer) : (s.setFB f).paused = s.paused := rfl
@[simp] theorem setFB_waitReg (s : State) (f : FrameBuffer) : (s.setFB f).waitReg = s.waitReg := rfl
@[simp] theorem setFB_fault (s : State) (f : FrameBuffer) : (s.setFB f).fault = s.fault := rfl
@[simp] theorem setFB_mem (s : State) (f : FrameBuffer) : (s.setFB f).mem = s.mem := rfl
@[simp] theorem setFB_keys (s : State) (f : FrameBuffer) : (s.setFB f).keys = s.keys := rfl
@[simp] theorem setFB_unwritten (s : State) (f : FrameBuffer) : (s.setFB f).unwritten = s.unwritten := rfl
@[simp] theorem setFB_phase (s : State) (f : FrameBuffer) : (s.setFB f).phase = s.phase := rfl
@[simp] theorem setFB_inbox (s : State) (f : FrameBuffer) : (s.setFB f).inbox = s.inbox := rfl
@[simp] theorem setFB_outputs (s : State) (f : FrameBuffer) : (s.setFB f).outputs = s.outputs := rfl
@[simp] theorem setFB_draws (s : State) (f : FrameBuffer) : (s.setFB f).draws = s.draws := rfl

@[simp] theorem waitForKey_params (s : State) (x : Reg) : (s.waitForKey x).params = s.params := rfl
@[simp] theorem waitForKey_v (s : State) (x : Reg) : (s.waitForKey x).v = s.v := rfl
@[simp] theorem waitForKey_i (s : State) (x : Reg) : (s.waitForKey x).i = s.i := rfl
@[simp] theorem waitForKey_pc (s : State) (x : Reg) : (s.waitForKey x).pc = s.pc := rfl
@[simp] theorem waitForKey_stack (s : State) (x : Reg) : (s.waitForKey x).stack = s.stack := rfl
@[simp] theorem waitForKey_dt (s : State) (x : Reg) : (s.waitForKey x).dt = s.dt := rfl
@[simp] theorem waitForKey_st (s : State) (x : Reg) : (s.waitForKey x).st = s.st := rfl
@[simp] theorem waitForKey_fb (s : State) (x : Reg) : (s.waitForKey x).fb = s.fb := rfl
@[simp] theorem waitForKey_paused (s : State) (x : Reg) : (s.waitForKey x).paused = true := rfl
@[simp] theorem waitForKey_waitReg (s : State) (x : Reg) : (s.waitForKey x).waitReg = some x := rfl
@[simp] theorem waitForKey_fault (s : State) (x : Reg) : (s.waitForKey x).fault = s.fault := rfl
@[simp] theorem waitForKey_mem (s : State) (x : Reg) : (s.waitForKey x).mem = s.mem := rfl
@[simp] theorem waitForKey_keys (s : State) (x : Reg) : (s.waitForKey x).keys = s.keys := rfl
@[simp] theorem waitForKey_unwritten (s : State) (x : Reg) : (s.waitForKey x).unwritten = s.unwritten := rfl
@[simp] theorem waitForKey_phase (s : State) (x : Reg) : (s.waitForKey x).phase = s.phase := rfl
@[simp] theorem waitForKey_inbox (s : State) (x : Reg) : (s.waitForKey x).inbox = s.inbox := rfl
@[simp] theorem waitForKey_outputs (s : State) (x : Reg) : (s.waitForKey x).outputs = s.outputs := rfl
@[simp] theorem waitForKey_draws (s : State) (x : Reg) : (s.waitForKey x).draws = s.draws := rfl

@[simp] theorem endWait_params (s : State) : (s.endWait).params = s.params := rfl
@[simp] theorem endWait_v (s : State) : (s.endWait).v = s.v := rfl
@[simp] theorem endWait_i (s : State) : (s.endWait).i = s.i := rfl
@[simp] theorem endWait_pc (s : State) : (s.endWait).pc = s.pc := rfl
@[simp] theorem endWait_stack (s : State) : (s.endWait).stack = s.stack := rfl
@[simp] theorem endWait_dt (s : State) : (s.endWait).dt = s.dt := rfl
@[simp] theorem endWait_st (s : State) : (s.endWait).st = s.st := rfl
@[simp] theorem endWait_fb (s : State) : (s.endWait).fb = s.fb := rfl
@[simp] theorem endWait_paused (s : State) : (s.endWait).paused = false := rfl
@[simp] theorem endWait_waitReg (s : State) : (s.endWait).waitReg = none := rfl
@[simp] theorem endWait_fault (s : State) : (s.endWait).fault = s.fault := rfl
@[simp] theorem endWait_mem (s : State) : (s.endWait).mem = s.mem := rfl
@[simp] theorem endWait_keys (s : State) : (s.endWait).keys = s.keys := rfl
@[simp] theorem endWait_unwritten (s : State) : (s.endWait).unwritten = s.unwritten := rfl
@[simp] theorem endWait_phase (s : State) : (s.endWait).phase = s.phase := rfl
@[simp] theorem endWait_inbox (s : State) : (s.endWait).inbox = s.inbox := rfl
@[simp] theorem endWait_outputs (s : State) : (s.endWait).outputs = s.outputs := rfl
@[simp] theorem endWait_draws (s : State) : (s.endWait).draws = s.draws := rfl

@[simp] theorem setKeys_params (s : State) (ks : BitVec 16) : (s.setKeys ks).params = s.params := rfl
@[simp] theorem setKeys_v (s : State) (ks : BitVec 16) : (s.setKeys ks).v = s.v := rfl
@[simp] theorem setKeys_i (s : State) (ks : BitVec 16) : (s.setKeys ks).i = s.i := rfl
@[simp] theorem setKeys_pc (s : State) (ks : BitVec 16) : (s.setKeys ks).pc = s.pc := rfl
@[simp] theorem setKeys_stack (s : State) (ks : BitVec 16) : (s.setKeys ks).stack = s.stack := rfl
@[simp] theorem setKeys_dt (s : State) (ks : BitVec 16) : (s.setKeys ks).dt = s.dt := rfl
@[simp] theorem setKeys_st (s : State) (ks : BitVec 16) : (s.setKeys ks).st = s.st := rfl
@[simp] theorem setKeys_fb (s : State) (ks : BitVec 16) : (s.setKeys ks).fb = s.fb := rfl
@[simp] theorem setKeys_paused (s : State) (ks : BitVec 16) : (s.setKeys ks).paused = s.paused := rfl
@[simp] theorem setKeys_waitReg (s : State) (ks : BitVec 16) : (s.setKeys ks).waitReg = s.waitReg := rfl
@[simp] theorem setKeys_fault (s : State) (ks : BitVec 16) : (s.setKeys ks).fault = s.fault := rfl
@[simp] theorem setKeys_mem (s : State) (ks : BitVec 16) : (s.setKeys ks).mem = s.mem := rfl
@[simp] theorem setKeys_keys (s : State) (ks : BitVec 16) : (s.setKeys ks).keys = ks := rfl
@[simp] theorem setKeys_unwritten (s : State) (ks : BitVec 16) : (s.setKeys ks).unwritten = s.unwritten := rfl
@[simp] theorem setKeys_phase (s : State) (ks : BitVec 16) : (s.setKeys ks).phase = s.phase := rfl
@[simp] theorem setKeys_inbox (s : State) (ks : BitVec 16) : (s.setKeys ks).inbox = s.inbox := rfl
@[simp] theorem setKeys_outputs (s : State) (ks : BitVec 16) : (s.setKeys ks).outputs = s.outputs := rfl
@[simp] theorem setKeys_draws (s : State) (ks : BitVec 16) : (s.setKeys ks).draws = s.draws := rfl

@[simp] theorem setOutputs_params (s : State) (o : List Output) : (s.setOutputs o).params = s.params := rfl
@[simp] theorem setOutputs_v (s : State) (o : List Output) : (s.setOutputs o).v = s.v := rfl
@[simp] theorem setOutputs_i (s : State) (o : List Output) : (s.setOutputs o).i = s.i := rfl
@[simp] theorem setOutputs_pc (s : State) (o : List Output) : (s.setOutputs o).pc = s.pc := rfl
@[simp] theorem setOutputs_stack (s : State) (o : List Output) : (s.setOutputs o).stack = s.stack := rfl
@[simp] theorem setOutputs_dt (s : State) (o : List Output) : (s.setOutputs o).dt = s.dt := rfl
@[simp] theorem setOutputs_st (s : State) (o : List Output) : (s.setOutputs o).st = s.st := rfl
@[simp] theorem setOutputs_fb (s : State) (o : List Output) : (s.setOutputs o).fb = s.fb := rfl
@[simp] theorem setOutputs_paused (s : State) (o : List Output) : (s.setOutputs o).paused = s.paused := rfl
@[simp] theorem setOutputs_waitReg (s : State) (o : List Output) : (s.setOutputs o).waitReg = s.waitReg := rfl
@[simp] theorem setOutputs_fault (s : State) (o : List Output) : (s.setOutputs o).fault = s.fault := rfl
@[simp] theorem setOutputs_mem (s : State) (o : List Output) : (s.setOutputs o).mem = s.mem := rfl
@[simp] theorem setOutputs_keys (s : State) (o : List Output) : (s.setOutputs o).keys = s.keys := rfl
@[simp] theorem setOutputs_unwritten (s : State) (o : List Output) : (s.setOutputs o).unwritten = s.unwritten := rfl
@[simp] theorem setOutputs_phase (s : State) (o : List Output) : (s.setOutputs o).phase = s.phase := rfl
@[simp] theorem setOutputs_inbox (s : State) (o : List Output) : (s.setOutputs o).inbox = s.inbox := rfl
@[simp] theorem setOutputs_outputs (s : State) (o : List Output) : (s.setOutputs o).outputs = o := rfl
@[simp] theorem setOutputs_draws (s : State) (o : List Output) : (s.setOutputs o).draws = s.draws := rfl

@[simp] theorem setPhase_params (s : State) (p : Phase) : (s.setPhase p).params = s.params := rfl
@[simp] theorem setPhase_v (s : State) (p : Phase) : (s.setPhase p).v = s.v := rfl
@[simp] theorem setPhase_i (s : State) (p : Phase) : (s.setPhase p).i = s.i := rfl
@[simp] theorem setPhase_pc (s : State) (p : Phase) : (s.setPhase p).pc = s.pc := rfl
@[simp] theorem setPhase_stack (s : State) (p : Phase) : (s.setPhase p).stack = s.stack := rfl
@[simp] theorem setPhase_dt (s : State) (p : Phase) : (s.setPhase p).dt = s.dt := rfl
@[simp] theorem setPhase_st (s : State) (p : Phase) : (s.setPhase p).st = s.st := rfl
@[simp] theorem setPhase_fb (s : State) (p : Phase) : (s.setPhase p).fb = s.fb := rfl
@[simp] theorem setPhase_paused (s : State) (p : Phase) : (s.setPhase p).paused = s.paused := rfl
@[simp] theorem setPhase_waitReg (s : State) (p : Phase) : (s.setPhase p).waitReg = s.waitReg := rfl
@[simp] theorem setPhase_fault (s : State) (p : Phase) : (s.setPhase p).fault = s.fault := rfl
@[simp] theorem setPhase_mem (s : State) (p : Phase) : (s.setPhase p).mem = s.mem := rfl
@[simp] theorem setPhase_keys (s : State) (p : Phase) : (s.setPhase p).keys = s.keys := rfl
@[simp] theorem setPhase_unwritten (s : State) (p : Phase) : (s.setPhase p).unwritten = s.unwritten := rfl
@[simp] theorem setPhase_phase (s : State) (p : Phase) : (s.setPhase p).phase = p := rfl
@[simp] theorem setPhase_inbox (s : State) (p : Phase) : (s.setPhase p).inbox = s.inbox := rfl
@[simp] theorem setPhase_outputs (s : State) (p : Phase) : (s.setPhase p).outputs = s.outputs := rfl
@[simp] theorem setPhase_draws (s : State) (p : Phase) : (s.setPhase p).draws = s.draws := rfl

/-! The accessors over the updates. -/

@[simp] theorem getV_setV (s : State) (x y : Reg) (b : Byte) :
    (s.setV x b).getV y = if y = x then some b else s.getV y := by
  by_cases h : y = x
  · subst h; simp [getV]
  · have hv : y.val ≠ x.val := fun e => h (Fin.ext e)
    simp [getV, h, Ne.symm hv]

@[simp] theorem getI_setV (s : State) (x : Reg) (b : Byte) : (s.setV x b).getI = s.getI := by simp [getI]
@[simp] theorem getDT_setV (s : State) (x : Reg) (b : Byte) : (s.setV x b).getDT = s.getDT := by simp [getDT]
@[simp] theorem getST_setV (s : State) (x : Reg) (b : Byte) : (s.setV x b).getST = s.getST := by simp [getST]
@[simp] theorem getV_setI (s : State) (x : Reg) (w : Word) : (s.setI w).getV x = s.getV x := by simp [getV]
@[simp] theorem getI_setI (s : State) (w : Word) : (s.setI w).getI = some w := by simp [getI]
@[simp] theorem getDT_setI (s : State) (w : Word) : (s.setI w).getDT = s.getDT := by simp [getDT]
@[simp] theorem getST_setI (s : State) (w : Word) : (s.setI w).getST = s.getST := by simp [getST]
@[simp] theorem getV_setDT (s : State) (x : Reg) (b : Byte) : (s.setDT b).getV x = s.getV x := by simp [getV]
@[simp] theorem getI_setDT (s : State) (b : Byte) : (s.setDT b).getI = s.getI := by simp [getI]
@[simp] theorem getDT_setDT (s : State) (b : Byte) : (s.setDT b).getDT = some b := by simp [getDT]
@[simp] theorem getST_setDT (s : State) (b : Byte) : (s.setDT b).getST = s.getST := by simp [getST]
@[simp] theorem getV_setST (s : State) (x : Reg) (b : Byte) : (s.setST b).getV x = s.getV x := by simp [getV]
@[simp] theorem getI_setST (s : State) (b : Byte) : (s.setST b).getI = s.getI := by simp [getI]
@[simp] theorem getDT_setST (s : State) (b : Byte) : (s.setST b).getDT = s.getDT := by simp [getDT]
@[simp] theorem getST_setST (s : State) (b : Byte) : (s.setST b).getST = some b := by simp [getST]

@[simp] theorem getV_setBytes (s : State) (y : Reg) (a : Nat) (bs : List Byte) : (s.setBytes a bs).getV y = s.getV y := rfl
@[simp] theorem getI_setBytes (s : State) (a : Nat) (bs : List Byte) : (s.setBytes a bs).getI = s.getI := rfl
@[simp] theorem getDT_setBytes (s : State) (a : Nat) (bs : List Byte) : (s.setBytes a bs).getDT = s.getDT := rfl
@[simp] theorem getST_setBytes (s : State) (a : Nat) (bs : List Byte) : (s.setBytes a bs).getST = s.getST := rfl
@[simp] theorem getV_setPC (s : State) (y : Reg) (w : Word) : (s.setPC w).getV y = s.getV y := rfl
@[simp] theorem getI_setPC (s : State) (w : Word) : (s.setPC w).getI = s.getI := rfl
@[simp] theorem getDT_setPC (s : State) (w : Word) : (s.setPC w).getDT = s.getDT := rfl
@[simp] theorem getST_setPC (s : State) (w : Word) : (s.setPC w).getST = s.getST := rfl
@[simp] theorem getV_advance (s : State) (y : Reg) : (s.advance).getV y = s.getV y := rfl
@[simp] theorem getI_advance (s : State) : (s.advance).getI = s.getI := rfl
@[simp] theorem getDT_advance (s : State) : (s.advance).getDT = s.getDT := rfl
@[simp] theorem getST_advance (s : State) : (s.advance).getST = s.getST := rfl
@[simp] theorem getV_push (s : State) (y : Reg) (w : Word) : (s.push w).getV y = s.getV y := rfl
@[simp] theorem getI_push (s : State) (w : Word) : (s.push w).getI = s.getI := rfl
@[simp] theorem getDT_push (s : State) (w : Word) : (s.push w).getDT = s.getDT := rfl
@[simp] theorem getST_push (s : State) (w : Word) : (s.push w).getST = s.getST := rfl
@[simp] theorem getV_dropTop (s : State) (y : Reg) : (s.dropTop).getV y = s.getV y := rfl
@[simp] theorem getI_dropTop (s : State) : (s.dropTop).getI = s.getI := rfl
@[simp] theorem getDT_dropTop (s : State) : (s.dropTop).getDT = s.getDT := rfl
@[simp] theorem getST_dropTop (s : State) : (s.dropTop).getST = s.getST := rfl
@[simp] theorem getV_tookDraw (s : State) (y : Reg) : (s.tookDraw).getV y = s.getV y := rfl
@[simp] theorem getI_tookDraw (s : State) : (s.tookDraw).getI = s.getI := rfl
@[simp] theorem getDT_tookDraw (s : State) : (s.tookDraw).getDT = s.getDT := rfl
@[simp] theorem getST_tookDraw (s : State) : (s.tookDraw).getST = s.getST := rfl
@[simp] theorem getV_raise (s : State) (y : Reg) (k : FaultKind) (p : Word) (o : Option Word) (a : Option Nat) : (s.raise k p o a).getV y = s.getV y := rfl
@[simp] theorem getI_raise (s : State) (k : FaultKind) (p : Word) (o : Option Word) (a : Option Nat) : (s.raise k p o a).getI = s.getI := rfl
@[simp] theorem getDT_raise (s : State) (k : FaultKind) (p : Word) (o : Option Word) (a : Option Nat) : (s.raise k p o a).getDT = s.getDT := rfl
@[simp] theorem getST_raise (s : State) (k : FaultKind) (p : Word) (o : Option Word) (a : Option Nat) : (s.raise k p o a).getST = s.getST := rfl
@[simp] theorem getV_raiseIn (s : State) (y : Reg) (j : Instr) (k : FaultKind) (a : Option Nat) : (s.raiseIn j k a).getV y = s.getV y := rfl
@[simp] theorem getI_raiseIn (s : State) (j : Instr) (k : FaultKind) (a : Option Nat) : (s.raiseIn j k a).getI = s.getI := rfl
@[simp] theorem getDT_raiseIn (s : State) (j : Instr) (k : FaultKind) (a : Option Nat) : (s.raiseIn j k a).getDT = s.getDT := rfl
@[simp] theorem getST_raiseIn (s : State) (j : Instr) (k : FaultKind) (a : Option Nat) : (s.raiseIn j k a).getST = s.getST := rfl
@[simp] theorem byte_markWritten (s : State) (j : Nat) (r : RegName) : (s.markWritten r).byte j = s.byte j := rfl
@[simp] theorem byte_setV (s : State) (j : Nat) (x : Reg) (b : Byte) : (s.setV x b).byte j = s.byte j := rfl
@[simp] theorem byte_setI (s : State) (j : Nat) (w : Word) : (s.setI w).byte j = s.byte j := rfl
@[simp] theorem byte_setDT (s : State) (j : Nat) (b : Byte) : (s.setDT b).byte j = s.byte j := rfl
@[simp] theorem byte_setST (s : State) (j : Nat) (b : Byte) : (s.setST b).byte j = s.byte j := rfl
@[simp] theorem byte_setPC (s : State) (j : Nat) (w : Word) : (s.setPC w).byte j = s.byte j := rfl
@[simp] theorem byte_advance (s : State) (j : Nat) : (s.advance).byte j = s.byte j := rfl
@[simp] theorem byte_push (s : State) (j : Nat) (w : Word) : (s.push w).byte j = s.byte j := rfl
@[simp] theorem byte_dropTop (s : State) (j : Nat) : (s.dropTop).byte j = s.byte j := rfl
@[simp] theorem byte_tookDraw (s : State) (j : Nat) : (s.tookDraw).byte j = s.byte j := rfl
@[simp] theorem byte_raise (s : State) (j : Nat) (k : FaultKind) (p : Word) (o : Option Word) (a : Option Nat) : (s.raise k p o a).byte j = s.byte j := rfl
@[simp] theorem byte_raiseIn (s : State) (j : Nat) (i : Instr) (k : FaultKind) (a : Option Nat) : (s.raiseIn i k a).byte j = s.byte j := rfl

@[simp] theorem getV_setFB (s : State) (y : Reg) (f : FrameBuffer) : (s.setFB f).getV y = s.getV y := rfl
@[simp] theorem getI_setFB (s : State) (f : FrameBuffer) : (s.setFB f).getI = s.getI := rfl
@[simp] theorem getDT_setFB (s : State) (f : FrameBuffer) : (s.setFB f).getDT = s.getDT := rfl
@[simp] theorem getST_setFB (s : State) (f : FrameBuffer) : (s.setFB f).getST = s.getST := rfl
@[simp] theorem byte_setFB (s : State) (j : Nat) (f : FrameBuffer) : (s.setFB f).byte j = s.byte j := rfl

@[simp] theorem getV_waitForKey (s : State) (y : Reg) (x : Reg) : (s.waitForKey x).getV y = s.getV y := rfl
@[simp] theorem getI_waitForKey (s : State) (x : Reg) : (s.waitForKey x).getI = s.getI := rfl
@[simp] theorem getDT_waitForKey (s : State) (x : Reg) : (s.waitForKey x).getDT = s.getDT := rfl
@[simp] theorem getST_waitForKey (s : State) (x : Reg) : (s.waitForKey x).getST = s.getST := rfl
@[simp] theorem byte_waitForKey (s : State) (j : Nat) (x : Reg) : (s.waitForKey x).byte j = s.byte j := rfl

@[simp] theorem getV_endWait (s : State) (y : Reg) : (s.endWait).getV y = s.getV y := rfl
@[simp] theorem getI_endWait (s : State) : (s.endWait).getI = s.getI := rfl
@[simp] theorem getDT_endWait (s : State) : (s.endWait).getDT = s.getDT := rfl
@[simp] theorem getST_endWait (s : State) : (s.endWait).getST = s.getST := rfl
@[simp] theorem byte_endWait (s : State) (j : Nat) : (s.endWait).byte j = s.byte j := rfl

@[simp] theorem getV_setKeys (s : State) (y : Reg) (ks : BitVec 16) : (s.setKeys ks).getV y = s.getV y := rfl
@[simp] theorem getI_setKeys (s : State) (ks : BitVec 16) : (s.setKeys ks).getI = s.getI := rfl
@[simp] theorem getDT_setKeys (s : State) (ks : BitVec 16) : (s.setKeys ks).getDT = s.getDT := rfl
@[simp] theorem getST_setKeys (s : State) (ks : BitVec 16) : (s.setKeys ks).getST = s.getST := rfl
@[simp] theorem byte_setKeys (s : State) (j : Nat) (ks : BitVec 16) : (s.setKeys ks).byte j = s.byte j := rfl

@[simp] theorem getV_setOutputs (s : State) (y : Reg) (o : List Output) : (s.setOutputs o).getV y = s.getV y := rfl
@[simp] theorem getI_setOutputs (s : State) (o : List Output) : (s.setOutputs o).getI = s.getI := rfl
@[simp] theorem getDT_setOutputs (s : State) (o : List Output) : (s.setOutputs o).getDT = s.getDT := rfl
@[simp] theorem getST_setOutputs (s : State) (o : List Output) : (s.setOutputs o).getST = s.getST := rfl
@[simp] theorem byte_setOutputs (s : State) (j : Nat) (o : List Output) : (s.setOutputs o).byte j = s.byte j := rfl

@[simp] theorem getV_setPhase (s : State) (y : Reg) (p : Phase) : (s.setPhase p).getV y = s.getV y := rfl
@[simp] theorem getI_setPhase (s : State) (p : Phase) : (s.setPhase p).getI = s.getI := rfl
@[simp] theorem getDT_setPhase (s : State) (p : Phase) : (s.setPhase p).getDT = s.getDT := rfl
@[simp] theorem getST_setPhase (s : State) (p : Phase) : (s.setPhase p).getST = s.getST := rfl
@[simp] theorem byte_setPhase (s : State) (j : Nat) (p : Phase) : (s.setPhase p).byte j = s.byte j := rfl

/-- A byte after a store of consecutive bytes: the stored byte inside, the old byte outside (R68, R75). -/
theorem byte_setBytes (s : State) (a j : Nat) (bs : List Byte) :
    (s.setBytes a bs).byte j = if a ≤ j ∧ j < a + bs.length then bs[j - a]? else s.byte j :=
  Memory.get_setAll s.params bs s.mem a j

/-- The registers' accessors see only the registers and their marks. -/
theorem getV_congr {s t : State} (x : Reg) (hv : t.v = s.v) (hu : t.unwritten = s.unwritten) : t.getV x = s.getV x := by
  simp [getV, hv, hu]

theorem getI_congr {s t : State} (hi : t.i = s.i) (hu : t.unwritten = s.unwritten) : t.getI = s.getI := by
  simp [getI, hi, hu]

theorem getDT_congr {s t : State} (hd : t.dt = s.dt) (hu : t.unwritten = s.unwritten) : t.getDT = s.getDT := by
  simp [getDT, hd, hu]

theorem getST_congr {s t : State} (hd : t.st = s.st) (hu : t.unwritten = s.unwritten) : t.getST = s.getST := by
  simp [getST, hd, hu]

/-- A byte read sees only the parameters and the memory. -/
theorem byte_congr {s t : State} (a : Nat) (hp : t.params = s.params) (hm : t.mem = s.mem) : t.byte a = s.byte a := by
  simp [byte, hp, hm]

/-- A core without a latched fault is not halted, and one with a latched fault is (R35). -/
theorem halted_of_none {s : State} (h : s.fault = none) : s.halted = false := by simp [halted, h]

theorem halted_of_some {s : State} {r : FaultRecord} (h : s.fault = some r) : s.halted = true := by simp [halted, h]

/-- A conditional skip changes nothing but PC. -/
theorem skipIf_eq (c : Bool) (s : State) : s.skipIf c = { s with pc := if c then s.pc + 2 else s.pc } := by
  cases c <;> rfl

@[simp] theorem skipIf_params (s : State) (c : Bool) : (s.skipIf c).params = s.params := by cases c <;> rfl
@[simp] theorem skipIf_v (s : State) (c : Bool) : (s.skipIf c).v = s.v := by cases c <;> rfl
@[simp] theorem skipIf_i (s : State) (c : Bool) : (s.skipIf c).i = s.i := by cases c <;> rfl
@[simp] theorem skipIf_stack (s : State) (c : Bool) : (s.skipIf c).stack = s.stack := by cases c <;> rfl
@[simp] theorem skipIf_dt (s : State) (c : Bool) : (s.skipIf c).dt = s.dt := by cases c <;> rfl
@[simp] theorem skipIf_st (s : State) (c : Bool) : (s.skipIf c).st = s.st := by cases c <;> rfl
@[simp] theorem skipIf_fb (s : State) (c : Bool) : (s.skipIf c).fb = s.fb := by cases c <;> rfl
@[simp] theorem skipIf_paused (s : State) (c : Bool) : (s.skipIf c).paused = s.paused := by cases c <;> rfl
@[simp] theorem skipIf_waitReg (s : State) (c : Bool) : (s.skipIf c).waitReg = s.waitReg := by cases c <;> rfl
@[simp] theorem skipIf_fault (s : State) (c : Bool) : (s.skipIf c).fault = s.fault := by cases c <;> rfl
@[simp] theorem skipIf_mem (s : State) (c : Bool) : (s.skipIf c).mem = s.mem := by cases c <;> rfl
@[simp] theorem skipIf_keys (s : State) (c : Bool) : (s.skipIf c).keys = s.keys := by cases c <;> rfl
@[simp] theorem skipIf_unwritten (s : State) (c : Bool) : (s.skipIf c).unwritten = s.unwritten := by cases c <;> rfl
@[simp] theorem skipIf_phase (s : State) (c : Bool) : (s.skipIf c).phase = s.phase := by cases c <;> rfl
@[simp] theorem skipIf_inbox (s : State) (c : Bool) : (s.skipIf c).inbox = s.inbox := by cases c <;> rfl
@[simp] theorem skipIf_outputs (s : State) (c : Bool) : (s.skipIf c).outputs = s.outputs := by cases c <;> rfl
@[simp] theorem skipIf_draws (s : State) (c : Bool) : (s.skipIf c).draws = s.draws := by cases c <;> rfl
@[simp] theorem skipIf_pc (s : State) (c : Bool) : (s.skipIf c).pc = if c then s.pc + 2 else s.pc := by cases c <;> rfl
@[simp] theorem getV_skipIf (s : State) (c : Bool) (y : Reg) : (s.skipIf c).getV y = s.getV y := by cases c <;> rfl
@[simp] theorem getI_skipIf (s : State) (c : Bool) : (s.skipIf c).getI = s.getI := by cases c <;> rfl
@[simp] theorem getDT_skipIf (s : State) (c : Bool) : (s.skipIf c).getDT = s.getDT := by cases c <;> rfl
@[simp] theorem getST_skipIf (s : State) (c : Bool) : (s.skipIf c).getST = s.getST := by cases c <;> rfl
@[simp] theorem byte_skipIf (s : State) (c : Bool) (j : Nat) : (s.skipIf c).byte j = s.byte j := by cases c <;> rfl

/-- Writing several registers touches only V and the marks. -/
theorem setVs_rest (l : List (Reg × Byte)) (s : State) :
    s.setVs l = { s with v := (s.setVs l).v, unwritten := (s.setVs l).unwritten } := by
  induction l generalizing s with
  | nil => rfl
  | cons p l ih => exact (ih (s.setV p.1 p.2)).trans rfl

@[simp] theorem setVs_params (l : List (Reg × Byte)) (s : State) : (s.setVs l).params = s.params := by rw [setVs_rest]
@[simp] theorem setVs_i (l : List (Reg × Byte)) (s : State) : (s.setVs l).i = s.i := by rw [setVs_rest]
@[simp] theorem setVs_pc (l : List (Reg × Byte)) (s : State) : (s.setVs l).pc = s.pc := by rw [setVs_rest]
@[simp] theorem setVs_stack (l : List (Reg × Byte)) (s : State) : (s.setVs l).stack = s.stack := by rw [setVs_rest]
@[simp] theorem setVs_dt (l : List (Reg × Byte)) (s : State) : (s.setVs l).dt = s.dt := by rw [setVs_rest]
@[simp] theorem setVs_st (l : List (Reg × Byte)) (s : State) : (s.setVs l).st = s.st := by rw [setVs_rest]
@[simp] theorem setVs_fb (l : List (Reg × Byte)) (s : State) : (s.setVs l).fb = s.fb := by rw [setVs_rest]
@[simp] theorem setVs_paused (l : List (Reg × Byte)) (s : State) : (s.setVs l).paused = s.paused := by rw [setVs_rest]
@[simp] theorem setVs_waitReg (l : List (Reg × Byte)) (s : State) : (s.setVs l).waitReg = s.waitReg := by rw [setVs_rest]
@[simp] theorem setVs_fault (l : List (Reg × Byte)) (s : State) : (s.setVs l).fault = s.fault := by rw [setVs_rest]
@[simp] theorem setVs_mem (l : List (Reg × Byte)) (s : State) : (s.setVs l).mem = s.mem := by rw [setVs_rest]
@[simp] theorem setVs_keys (l : List (Reg × Byte)) (s : State) : (s.setVs l).keys = s.keys := by rw [setVs_rest]
@[simp] theorem setVs_phase (l : List (Reg × Byte)) (s : State) : (s.setVs l).phase = s.phase := by rw [setVs_rest]
@[simp] theorem setVs_inbox (l : List (Reg × Byte)) (s : State) : (s.setVs l).inbox = s.inbox := by rw [setVs_rest]
@[simp] theorem setVs_outputs (l : List (Reg × Byte)) (s : State) : (s.setVs l).outputs = s.outputs := by rw [setVs_rest]
@[simp] theorem setVs_draws (l : List (Reg × Byte)) (s : State) : (s.setVs l).draws = s.draws := by rw [setVs_rest]
@[simp] theorem byte_setVs (l : List (Reg × Byte)) (s : State) (a : Nat) : (s.setVs l).byte a = s.byte a := by simp [byte]

@[simp] theorem getI_setVs (l : List (Reg × Byte)) (s : State) : (s.setVs l).getI = s.getI := by
  induction l generalizing s with
  | nil => rfl
  | cons p l ih => rw [setVs, ih, getI_setV]

@[simp] theorem getDT_setVs (l : List (Reg × Byte)) (s : State) : (s.setVs l).getDT = s.getDT := by
  induction l generalizing s with
  | nil => rfl
  | cons p l ih => rw [setVs, ih, getDT_setV]

@[simp] theorem getST_setVs (l : List (Reg × Byte)) (s : State) : (s.setVs l).getST = s.getST := by
  induction l generalizing s with
  | nil => rfl
  | cons p l ih => rw [setVs, ih, getST_setV]

/-- Reading a register none of several writes names. -/
theorem getV_setVs_of_not_mem (l : List (Reg × Byte)) (s : State) (y : Reg) (h : y ∉ l.map Prod.fst) :
    (s.setVs l).getV y = s.getV y := by
  induction l generalizing s with
  | nil => rfl
  | cons p l ih =>
    simp only [List.map_cons, List.mem_cons, not_or] at h
    simp [setVs, ih _ h.2, h.1]

/-- Reading a register that several writes, each to another register, name. -/
theorem getV_setVs_of_mem (l : List (Reg × Byte)) (s : State) (y : Reg) (b : Byte) (hd : (l.map Prod.fst).Nodup)
    (h : (y, b) ∈ l) : (s.setVs l).getV y = some b := by
  induction l generalizing s with
  | nil => cases h
  | cons p l ih =>
    rw [List.map_cons, List.nodup_cons] at hd
    rcases List.mem_cons.mp h with rfl | h
    · simp [setVs, getV_setVs_of_not_mem _ _ _ hd.1]
    · exact ih (s.setV p.1 p.2) hd.2 h

end Sys2Proof.Machine.State

namespace Sys2Proof.Machine

/-- Reading the pair (Vx, VF) after the two writes of a flag-setting instruction, in either order (R128). -/
theorem getV_writeResultAndFlag (x y : Reg) (r f : Byte) (s : State) :
    (writeResultAndFlag x r f s).getV y =
      if y = x ∧ (x ≠ .VF ∨ s.params.flagLast = false) then some r else if y = .VF then some f
      else s.getV y := by
  unfold writeResultAndFlag
  by_cases hl : s.params.flagLast = true <;> by_cases hx : x = .VF <;> by_cases hy : y = x <;> by_cases hf : y = .VF <;>
    simp_all

@[simp] theorem getI_writeResultAndFlag (x : Reg) (r f : Byte) (s : State) : (writeResultAndFlag x r f s).getI = s.getI := by
  unfold writeResultAndFlag; split <;> simp

@[simp] theorem getDT_writeResultAndFlag (x : Reg) (r f : Byte) (s : State) :
    (writeResultAndFlag x r f s).getDT = s.getDT := by
  unfold writeResultAndFlag; split <;> simp

@[simp] theorem getST_writeResultAndFlag (x : Reg) (r f : Byte) (s : State) :
    (writeResultAndFlag x r f s).getST = s.getST := by
  unfold writeResultAndFlag; split <;> simp

/-- The two writes touch only V and the marks. -/
theorem writeResultAndFlag_rest (x : Reg) (r f : Byte) (s : State) :
    writeResultAndFlag x r f s =
      { s with v := (writeResultAndFlag x r f s).v, unwritten := (writeResultAndFlag x r f s).unwritten } := by
  unfold writeResultAndFlag
  split <;> rfl

@[simp] theorem writeResultAndFlag_params (x : Reg) (r c : Byte) (s : State) :
    (writeResultAndFlag x r c s).params = s.params := by rw [writeResultAndFlag_rest]
@[simp] theorem writeResultAndFlag_i (x : Reg) (r c : Byte) (s : State) :
    (writeResultAndFlag x r c s).i = s.i := by rw [writeResultAndFlag_rest]
@[simp] theorem writeResultAndFlag_pc (x : Reg) (r c : Byte) (s : State) :
    (writeResultAndFlag x r c s).pc = s.pc := by rw [writeResultAndFlag_rest]
@[simp] theorem writeResultAndFlag_stack (x : Reg) (r c : Byte) (s : State) :
    (writeResultAndFlag x r c s).stack = s.stack := by rw [writeResultAndFlag_rest]
@[simp] theorem writeResultAndFlag_dt (x : Reg) (r c : Byte) (s : State) :
    (writeResultAndFlag x r c s).dt = s.dt := by rw [writeResultAndFlag_rest]
@[simp] theorem writeResultAndFlag_st (x : Reg) (r c : Byte) (s : State) :
    (writeResultAndFlag x r c s).st = s.st := by rw [writeResultAndFlag_rest]
@[simp] theorem writeResultAndFlag_fb (x : Reg) (r c : Byte) (s : State) :
    (writeResultAndFlag x r c s).fb = s.fb := by rw [writeResultAndFlag_rest]
@[simp] theorem writeResultAndFlag_paused (x : Reg) (r c : Byte) (s : State) :
    (writeResultAndFlag x r c s).paused = s.paused := by rw [writeResultAndFlag_rest]
@[simp] theorem writeResultAndFlag_waitReg (x : Reg) (r c : Byte) (s : State) :
    (writeResultAndFlag x r c s).waitReg = s.waitReg := by rw [writeResultAndFlag_rest]
@[simp] theorem writeResultAndFlag_fault (x : Reg) (r c : Byte) (s : State) :
    (writeResultAndFlag x r c s).fault = s.fault := by rw [writeResultAndFlag_rest]
@[simp] theorem writeResultAndFlag_mem (x : Reg) (r c : Byte) (s : State) :
    (writeResultAndFlag x r c s).mem = s.mem := by rw [writeResultAndFlag_rest]
@[simp] theorem writeResultAndFlag_keys (x : Reg) (r c : Byte) (s : State) :
    (writeResultAndFlag x r c s).keys = s.keys := by rw [writeResultAndFlag_rest]
@[simp] theorem writeResultAndFlag_phase (x : Reg) (r c : Byte) (s : State) :
    (writeResultAndFlag x r c s).phase = s.phase := by rw [writeResultAndFlag_rest]
@[simp] theorem writeResultAndFlag_inbox (x : Reg) (r c : Byte) (s : State) :
    (writeResultAndFlag x r c s).inbox = s.inbox := by rw [writeResultAndFlag_rest]
@[simp] theorem writeResultAndFlag_outputs (x : Reg) (r c : Byte) (s : State) :
    (writeResultAndFlag x r c s).outputs = s.outputs := by rw [writeResultAndFlag_rest]
@[simp] theorem writeResultAndFlag_draws (x : Reg) (r c : Byte) (s : State) :
    (writeResultAndFlag x r c s).draws = s.draws := by rw [writeResultAndFlag_rest]
@[simp] theorem byte_writeResultAndFlag (x : Reg) (r c : Byte) (s : State) (a : Nat) :
    (writeResultAndFlag x r c s).byte a = s.byte a := by simp [State.byte]

end Sys2Proof.Machine
end

