-- ==== Sys2Proof/Laws/Operands.lean ====
section
/-! SUPPORT. What the operand operations can do, said once: how each goes on when what it reads holds a value, and what
follows when it answers a next state. -/

namespace Sys2Proof.Machine

@[simp] theorem withV_some {x : Reg} {s : State} {a : Byte} (k : Byte → Result) (h : s.getV x = some a) :
    withV x s k = k a := by simp [withV, h]

@[simp] theorem withI_some {s : State} {w : Word} (k : Word → Result) (h : s.getI = some w) : withI s k = k w := by
  simp [withI, h]

@[simp] theorem withDT_some {s : State} {a : Byte} (k : Byte → Result) (h : s.getDT = some a) : withDT s k = k a := by
  simp [withDT, h]

@[simp] theorem withByte_some {a : Nat} {s : State} {b : Byte} (k : Byte → Result) (h : s.byte a = some b) :
    withByte a s k = k b := by simp [withByte, h]

theorem withV_none {x : Reg} {s : State} (k : Byte → Result) (h : s.getV x = none) :
    withV x s k = .fault (.readBeforeWrite (.reg (.v x))) := by simp [withV, h]

/-- Whatever `withV` answers, either the register held a value and the rest answered it, or it is ReadBeforeWrite. -/
theorem withV_cases {x : Reg} {s : State} {k : Byte → Result} {o : Result} (h : withV x s k = o) :
    (∃ a, s.getV x = some a ∧ k a = o) ∨ (s.getV x = none ∧ o = .fault (.readBeforeWrite (.reg (.v x)))) := by
  unfold withV at h
  split at h
  · exact .inl ⟨_, ‹_›, h⟩
  · exact .inr ⟨‹_›, h.symm⟩

theorem withI_cases {s : State} {k : Word → Result} {o : Result} (h : withI s k = o) :
    (∃ w, s.getI = some w ∧ k w = o) ∨ (s.getI = none ∧ o = .fault (.readBeforeWrite (.reg .i))) := by
  unfold withI at h
  split at h
  · exact .inl ⟨_, ‹_›, h⟩
  · exact .inr ⟨‹_›, h.symm⟩

theorem withDT_cases {s : State} {k : Byte → Result} {o : Result} (h : withDT s k = o) :
    (∃ a, s.getDT = some a ∧ k a = o) ∨ (s.getDT = none ∧ o = .fault (.readBeforeWrite (.reg .dt))) := by
  unfold withDT at h
  split at h
  · exact .inl ⟨_, ‹_›, h⟩
  · exact .inr ⟨‹_›, h.symm⟩

theorem withByte_cases {a : Nat} {s : State} {k : Byte → Result} {o : Result} (h : withByte a s k = o) :
    (∃ b, s.byte a = some b ∧ k b = o) ∨ (s.byte a = none ∧ o = .fault (.readBeforeWrite (.mem a))) := by
  unfold withByte at h
  split at h
  · exact .inl ⟨_, ‹_›, h⟩
  · exact .inr ⟨‹_›, h.symm⟩

theorem withV_next {x : Reg} {s t : State} {k : Byte → Result} (h : withV x s k = .next t) :
    ∃ a, s.getV x = some a ∧ k a = .next t := by
  rcases withV_cases h with h | h
  · exact h
  · exact nomatch h.2

theorem withI_next {s t : State} {k : Word → Result} (h : withI s k = .next t) :
    ∃ w, s.getI = some w ∧ k w = .next t := by
  rcases withI_cases h with h | h
  · exact h
  · exact nomatch h.2

theorem withDT_next {s t : State} {k : Byte → Result} (h : withDT s k = .next t) :
    ∃ a, s.getDT = some a ∧ k a = .next t := by
  rcases withDT_cases h with h | h
  · exact h
  · exact nomatch h.2

theorem withByte_next {a : Nat} {s t : State} {k : Byte → Result} (h : withByte a s k = .next t) :
    ∃ b, s.byte a = some b ∧ k b = .next t := by
  rcases withByte_cases h with h | h
  · exact h
  · exact nomatch h.2

/-- Several registers that all hold values are read in order. -/
theorem withVs_some (xs : List Reg) (s : State) (f : Reg → Byte) (k : List (Reg × Byte) → Result)
    (h : ∀ x ∈ xs, s.getV x = some (f x)) : withVs xs s k = k (xs.map fun x => (x, f x)) := by
  induction xs generalizing k with
  | nil => rfl
  | cons x xs ih =>
    rw [withVs, withV_some _ (h x (by simp)), ih _ fun y hy => h y (by simp [hy])]
    rfl

/-- Whatever reading several registers answers, either it goes on with one pair for each, or one of them holds no value. -/
theorem withVs_cases {xs : List Reg} {s : State} {k : List (Reg × Byte) → Result} {o : Result} (h : withVs xs s k = o) :
    (∃ l, l.map Prod.fst = xs ∧ (∀ p ∈ l, s.getV p.1 = some p.2) ∧ k l = o) ∨
      ∃ x ∈ xs, s.getV x = none ∧ o = .fault (.readBeforeWrite (.reg (.v x))) := by
  induction xs generalizing k with
  | nil => exact .inl ⟨[], rfl, by simp, h⟩
  | cons x xs ih =>
    rcases withV_cases h with ⟨a, ha, h⟩ | ⟨hx, rfl⟩
    · rcases ih h with ⟨l, hl, hs, h⟩ | ⟨y, hy, hn, rfl⟩
      · refine .inl ⟨(x, a) :: l, by simp [hl], ?_, h⟩
        simpa [ha] using fun p q hp => hs (p, q) hp
      · exact .inr ⟨y, by simp [hy], hn, rfl⟩
    · exact .inr ⟨x, by simp, hx, rfl⟩

/-- When reading several registers goes on, it goes on with one pair for each. -/
theorem withVs_next {xs : List Reg} {s t : State} {k : List (Reg × Byte) → Result} (h : withVs xs s k = .next t) :
    ∃ l, l.map Prod.fst = xs ∧ (∀ p ∈ l, s.getV p.1 = some p.2) ∧ k l = .next t := by
  rcases withVs_cases h with h | ⟨_, _, _, h⟩
  · exact h
  · cases h

/-- n bytes that all hold values are read in order. -/
theorem withBytes_some (n a : Nat) (s : State) (f : Nat → Byte) (k : List Byte → Result)
    (h : ∀ j < n, s.byte (a + j) = some (f j)) : withBytes a n s k = k ((List.range n).map f) := by
  induction n generalizing a f k with
  | zero => rfl
  | succ n ih =>
    rw [withBytes, withByte_some _ (show s.byte a = some (f 0) from h 0 (by omega)),
      ih (a + 1) (fun j => f (j + 1)) _ fun j hj => by rw [← h (j + 1) (by omega)]; congr 1; omega]
    simp [List.range_succ_eq_map, Function.comp_def]

/-- Whatever reading n bytes answers, either it goes on with n bytes, those of memory, or one of them holds no value. -/
theorem withBytes_cases {n a : Nat} {s : State} {k : List Byte → Result} {o : Result} (h : withBytes a n s k = o) :
    (∃ bs : List Byte, bs.length = n ∧ (∀ j < n, s.byte (a + j) = bs[j]?) ∧ k bs = o) ∨
      ∃ j < n, s.byte (a + j) = none ∧ o = .fault (.readBeforeWrite (.mem (a + j))) := by
  induction n generalizing a k with
  | zero => exact .inl ⟨[], rfl, by simp, h⟩
  | succ n ih =>
    rcases withByte_cases h with ⟨b, hb, h⟩ | ⟨hn, rfl⟩
    · rcases ih h with ⟨bs, hl, hs, h⟩ | ⟨j, hj, hn, rfl⟩
      · refine .inl ⟨b :: bs, by simp [hl], fun j hj => ?_, h⟩
        cases j with
        | zero => simpa using hb
        | succ j => rw [List.getElem?_cons_succ, ← hs j (by omega)]; congr 1; omega
      · refine .inr ⟨j + 1, by omega, ?_, ?_⟩ <;> rw [show a + (j + 1) = a + 1 + j by omega]
        exact hn
    · exact .inr ⟨0, by omega, hn, rfl⟩

/-- When reading n bytes goes on, it goes on with n bytes, those of memory. -/
theorem withBytes_next {n a : Nat} {s t : State} {k : List Byte → Result} (h : withBytes a n s k = .next t) :
    ∃ bs : List Byte, bs.length = n ∧ (∀ j < n, s.byte (a + j) = bs[j]?) ∧ k bs = .next t := by
  rcases withBytes_cases h with h | ⟨_, _, _, h⟩
  · exact h
  · cases h

/-- The range test passes when every address is below 4096. -/
theorem checkRange_pass {i : Instr} {base n : Nat} {s : State} (k : Result) (h : n = 0 ∨ base + n ≤ memSize) :
    checkRange i base n s k = k := if_neg (by omega)

/-- The range test faults when some address is 4096 or more. -/
theorem checkRange_fault {i : Instr} {base n : Nat} {s : State} (k : Result) (h0 : 0 < n) (h : memSize < base + n) :
    checkRange i base n s k = .next (s.raiseIn i .memoryOutOfBounds (some (max base memSize))) := if_pos ⟨h0, h⟩

theorem checkRange_cases {i : Instr} {base n : Nat} {s : State} {k o : Result} (h : checkRange i base n s k = o) :
    ((n = 0 ∨ base + n ≤ memSize) ∧ k = o) ∨
      (0 < n ∧ memSize < base + n ∧ o = .next (s.raiseIn i .memoryOutOfBounds (some (max base memSize)))) := by
  unfold checkRange at h
  split at h
  · exact .inr ⟨by omega, by omega, h.symm⟩
  · exact .inl ⟨by omega, h⟩

/-- Asking for a key goes on with some answer, having taken a draw exactly for a code above 15. -/
theorem withKey_eq (c : Byte) (s : State) (k : Bool → State → Result) :
    withKey c s k =
      if c.toNat ≤ 15 then k (s.keys.getLsbD c.toNat) s else k (Config.keyDraw s.draws c) s.tookDraw := rfl

theorem mem_regsUpTo {x y : Reg} : y ∈ regsUpTo x ↔ y ≤ x := by
  revert x y; decide

theorem regsUpTo_nodup (x : Reg) : (regsUpTo x).Nodup := by
  revert x; decide

@[simp] theorem length_regsUpTo (x : Reg) : (regsUpTo x).length = x.val + 1 := by
  revert x; decide

/-- The registers V0..Vx are listed in their order. -/
theorem getElem?_regsUpTo (x y : Reg) (h : y ≤ x) : (regsUpTo x)[y.val]? = some y := by
  revert x y; decide

end Sys2Proof.Machine
end

