-- ==== Sys2Proof/Laws/Exec.lean ====
section
/-! SUPPORT. What an instruction can do, said once: when exec answers a next state, either the instruction has raised one of
its own faults, or the next state is the one its rule gives; when it stops, it has read a location without a value. -/

namespace Sys2Proof.Machine

/-- The next state of an instruction that raises no fault. -/
def Completes (i : Instr) (s t : State) : Prop :=
  match i with
  | .cls => t = s.setFB (Vector.replicate 32 0)
  | .ret => ∃ a, s.stack.getLast? = some a ∧ t = s.dropTop.setPC a
  | .jp nnn => t = s.setPC (nnn.setWidth 16)
  | .call nnn => s.stack.length < s.params.stackCapacity ∧ t = (s.push s.pc).setPC (nnn.setWidth 16)
  | .seImm x nn => ∃ a, s.getV x = some a ∧ t = s.skipIf (a == nn)
  | .sneImm x nn => ∃ a, s.getV x = some a ∧ t = s.skipIf (a != nn)
  | .seReg x y => ∃ a b, s.getV x = some a ∧ s.getV y = some b ∧ t = s.skipIf (a == b)
  | .ldImm x nn => t = s.setV x nn
  | .addImm x nn => ∃ a, s.getV x = some a ∧ t = s.setV x (a + nn)
  | .ldReg x y => ∃ b, s.getV y = some b ∧ t = s.setV x b
  | .orReg x y => ∃ a b, s.getV x = some a ∧ s.getV y = some b ∧ t = s.setV x (a ||| b)
  | .andReg x y => ∃ a b, s.getV x = some a ∧ s.getV y = some b ∧ t = s.setV x (a &&& b)
  | .xorReg x y => ∃ a b, s.getV x = some a ∧ s.getV y = some b ∧ t = s.setV x (a ^^^ b)
  | .addReg x y =>
    ∃ a b, s.getV x = some a ∧ s.getV y = some b ∧ t = writeResultAndFlag x (a + b) (carryFlag a b) s
  | .subReg x y =>
    ∃ a b, s.getV x = some a ∧ s.getV y = some b ∧ t = writeResultAndFlag x (a - b) (noBorrowFlag a b) s
  | .shr x y => ∃ v, s.getV (shiftReg s x y) = some v ∧ t = writeResultAndFlag x (v >>> 1) (shrFlag v) s
  | .subn x y =>
    ∃ a b, s.getV x = some a ∧ s.getV y = some b ∧ t = writeResultAndFlag x (b - a) (noBorrowFlag b a) s
  | .shl x y => ∃ v, s.getV (shiftReg s x y) = some v ∧ t = writeResultAndFlag x (v <<< 1) (shlFlag v) s
  | .sneReg x y => ∃ a b, s.getV x = some a ∧ s.getV y = some b ∧ t = s.skipIf (a != b)
  | .ldI nnn => t = s.setI (nnn.setWidth 16)
  | .jpV0 nnn => ∃ a, s.getV .V0 = some a ∧ t = s.setPC (nnn.setWidth 16 + a.setWidth 16)
  | .rnd x nn => t = s.tookDraw.setV x (Config.randDraw s.draws &&& nn)
  | .drw x y n =>
    ∃ (a b : Byte) (w : Word) (rows : List Byte), s.getV x = some a ∧ s.getV y = some b ∧ s.getI = some w ∧ (n = 0 ∨ w.toNat + n ≤ memSize) ∧
      rows.length = n ∧ (∀ j < n, s.byte (w.toNat + j) = rows[j]?) ∧
      (spritePlots s.params.plotAlias a.toNat b.toNat rows).any Option.isNone = false ∧
      t = (s.setV .VF (flagByte
            (plotCells ((spritePlots s.params.plotAlias a.toNat b.toNat rows).filterMap id) s.fb false).2)).setFB
              (plotCells ((spritePlots s.params.plotAlias a.toNat b.toNat rows).filterMap id) s.fb false).1
  | .skp x => ∃ a, s.getV x = some a ∧
      ((a.toNat ≤ 15 ∧ t = s.skipIf (s.keys.getLsbD a.toNat)) ∨
       (15 < a.toNat ∧ t = s.tookDraw.skipIf (Config.keyDraw s.draws a)))
  | .sknp x => ∃ a, s.getV x = some a ∧
      ((a.toNat ≤ 15 ∧ t = s.skipIf (!s.keys.getLsbD a.toNat)) ∨
       (15 < a.toNat ∧ t = s.tookDraw.skipIf (!Config.keyDraw s.draws a)))
  | .ldVxDT x => ∃ d, s.getDT = some d ∧ t = s.setV x d
  | .ldVxK x => t = s.waitForKey x
  | .ldDTVx x => ∃ a, s.getV x = some a ∧ t = s.setDT a
  | .ldSTVx x => ∃ a, s.getV x = some a ∧ t = s.setST a
  | .addIVx x => ∃ a w, s.getV x = some a ∧ s.getI = some w ∧ t = s.setI (w + a.setWidth 16)
  | .ldFVx x => ∃ a, s.getV x = some a ∧ t = s.setI (BitVec.ofNat 16 (5 * (a.toNat % 16)))
  | .ldBVx x => ∃ a w, s.getV x = some a ∧ s.getI = some w ∧ w.toNat + 3 ≤ memSize ∧
      t = s.setBytes w.toNat (bcdDigits a)
  | .ldMemVx x => ∃ (w : Word) (l : List (Reg × Byte)), s.getI = some w ∧ w.toNat + (x.val + 1) ≤ memSize ∧ l.map Prod.fst = regsUpTo x ∧
      (∀ p ∈ l, s.getV p.1 = some p.2) ∧ t = s.setBytes w.toNat (l.map Prod.snd)
  | .ldVxMem x => ∃ (w : Word) (bs : List Byte), s.getI = some w ∧ w.toNat + (x.val + 1) ≤ memSize ∧ bs.length = x.val + 1 ∧
      (∀ j < x.val + 1, s.byte (w.toNat + j) = bs[j]?) ∧ t = s.setVs ((regsUpTo x).zip bs)

/-- The fault an instruction can raise, with the address it records (R310, R316). -/
def MayRaise (i : Instr) (s : State) (k : FaultKind) (addr : Option Nat) : Prop :=
  match i with
  | .ret => s.stack = [] ∧ k = .stackUnderflow ∧ addr = none
  | .call _ => s.params.stackCapacity ≤ s.stack.length ∧ k = .stackOverflow ∧ addr = none
  | .drw _ _ _ => (k = .memoryOutOfBounds ∧ ∃ a, addr = some a ∧ memSize ≤ a) ∨ (k = .plotOutOfRange ∧ addr = none)
  | .ldBVx _ | .ldMemVx _ | .ldVxMem _ => k = .memoryOutOfBounds ∧ ∃ a, addr = some a ∧ memSize ≤ a
  | .cls | .jp _ | .seImm _ _ | .sneImm _ _ | .seReg _ _ | .ldImm _ _ | .addImm _ _ | .ldReg _ _ | .orReg _ _
  | .andReg _ _ | .xorReg _ _ | .addReg _ _ | .subReg _ _ | .shr _ _ | .subn _ _ | .shl _ _ | .sneReg _ _ | .ldI _
  | .jpV0 _ | .rnd _ _ | .skp _ | .sknp _ | .ldVxDT _ | .ldVxK _ | .ldDTVx _ | .ldSTVx _ | .addIVx _ | .ldFVx _ => False

theorem next_inj {s t : State} (h : (Host.Outcome.next s : Result) = .next t) : t = s := by
  injection h with h; exact h.symm

theorem withKey_next {c : Byte} {s t : State} {f : Bool → Bool}
    (h : withKey c s (fun p u => .next (u.skipIf (f p))) = .next t) :
    (c.toNat ≤ 15 ∧ t = s.skipIf (f (s.keys.getLsbD c.toNat))) ∨
      (15 < c.toNat ∧ t = s.tookDraw.skipIf (f (Config.keyDraw s.draws c))) := by
  unfold withKey at h
  split at h
  · exact .inl ⟨‹_›, next_inj h⟩
  · exact .inr ⟨by omega, next_inj h⟩

/-- One register read, then a next state. -/
theorem withV_then {x : Reg} {s t : State} {f : Byte → State} (h : withV x s (fun a => .next (f a)) = .next t) :
    ∃ a, s.getV x = some a ∧ t = f a := by
  obtain ⟨a, ha, h⟩ := withV_next h
  exact ⟨a, ha, next_inj h⟩

/-- Two register reads, then a next state. -/
theorem withV_withV_then {x y : Reg} {s t : State} {f : Byte → Byte → State}
    (h : withV x s (fun a => withV y s fun b => .next (f a b)) = .next t) :
    ∃ a b, s.getV x = some a ∧ s.getV y = some b ∧ t = f a b := by
  obtain ⟨a, ha, h⟩ := withV_next h
  obtain ⟨b, hb, h⟩ := withV_then h
  exact ⟨a, b, ha, hb, h⟩

theorem execDrw_next {x y : Reg} {n : Nat} {s t : State} (h : execDrw x y n s = .next t) :
    Completes (.drw x y n) s t ∨ ∃ k a, MayRaise (.drw x y n) s k a ∧ t = s.raiseIn (.drw x y n) k a := by
  obtain ⟨a, ha, h⟩ := withV_next h
  obtain ⟨b, hb, h⟩ := withV_next h
  obtain ⟨w, hw, h⟩ := withI_next h
  rcases checkRange_cases h with ⟨hr, h⟩ | ⟨_, _, h⟩
  · obtain ⟨rows, hl, hrows, h⟩ := withBytes_next h
    dsimp only at h
    split at h
    · exact .inr ⟨_, _, .inr ⟨rfl, rfl⟩, next_inj h⟩
    · rename_i hout
      exact .inl ⟨a, b, w, rows, ha, hb, hw, hr, hl, hrows, Bool.eq_false_iff.mpr hout, next_inj h⟩
  · exact .inr ⟨_, _, .inl ⟨rfl, _, rfl, Nat.le_max_right _ _⟩, next_inj h.symm⟩

/-- What exec can do when it answers a next state. -/
theorem exec_next {i : Instr} {s t : State} (h : exec i s = .next t) :
    Completes i s t ∨ ∃ k a, MayRaise i s k a ∧ t = s.raiseIn i k a := by
  cases i with
  | cls | jp | ldImm | ldI | rnd | ldVxK => exact .inl (next_inj h)
  | ret =>
    simp only [exec, execRet] at h
    split at h
    · exact .inl ⟨_, ‹_›, next_inj h⟩
    · exact .inr ⟨_, _, ⟨List.getLast?_eq_none_iff.mp ‹_›, rfl, rfl⟩, next_inj h⟩
  | call nnn =>
    simp only [exec, execCall] at h
    split at h
    · exact .inl ⟨‹_›, next_inj h⟩
    · exact .inr ⟨_, _, ⟨by omega, rfl, rfl⟩, next_inj h⟩
  | seImm | sneImm | addImm | ldReg | shr | shl | jpV0 | ldDTVx | ldSTVx | ldFVx => exact .inl (withV_then h)
  | seReg | sneReg | orReg | andReg | xorReg | addReg | subReg | subn => exact .inl (withV_withV_then h)
  | drw x y n => exact execDrw_next h
  | skp x =>
    obtain ⟨a, ha, h⟩ := withV_next h
    exact .inl ⟨a, ha, withKey_next (f := id) h⟩
  | sknp x =>
    obtain ⟨a, ha, h⟩ := withV_next h
    exact .inl ⟨a, ha, withKey_next (f := not) h⟩
  | ldVxDT x =>
    obtain ⟨d, hd, h⟩ := withDT_next h
    exact .inl ⟨d, hd, next_inj h⟩
  | addIVx x =>
    obtain ⟨a, ha, h⟩ := withV_next h
    obtain ⟨w, hw, h⟩ := withI_next h
    exact .inl ⟨a, w, ha, hw, next_inj h⟩
  | ldBVx x =>
    obtain ⟨a, ha, h⟩ := withV_next h
    obtain ⟨w, hw, h⟩ := withI_next h
    rcases checkRange_cases h with ⟨hr, h⟩ | ⟨_, _, h⟩
    · exact .inl ⟨a, w, ha, hw, by omega, next_inj h⟩
    · exact .inr ⟨_, _, ⟨rfl, _, rfl, Nat.le_max_right _ _⟩, next_inj h.symm⟩
  | ldMemVx x =>
    obtain ⟨w, hw, h⟩ := withI_next h
    rcases checkRange_cases h with ⟨hr, h⟩ | ⟨_, _, h⟩
    · obtain ⟨l, hl, hs, h⟩ := withVs_next h
      exact .inl ⟨w, l, hw, by omega, hl, hs, next_inj h⟩
    · exact .inr ⟨_, _, ⟨rfl, _, rfl, Nat.le_max_right _ _⟩, next_inj h.symm⟩
  | ldVxMem x =>
    obtain ⟨w, hw, h⟩ := withI_next h
    rcases checkRange_cases h with ⟨hr, h⟩ | ⟨_, _, h⟩
    · obtain ⟨bs, hl, hs, h⟩ := withBytes_next h
      exact .inl ⟨w, bs, hw, by omega, hl, hs, next_inj h⟩
    · exact .inr ⟨_, _, ⟨rfl, _, rfl, Nat.le_max_right _ _⟩, next_inj h.symm⟩

/-- A reading operation stops only on a location without a value. -/
theorem withV_fault {x : Reg} {s : State} {k : Byte → Result} {f : Fault} (h : withV x s k = .fault f) :
    (∃ l, f = .readBeforeWrite l ∧ HoldsNoValue s l) ∨ ∃ a, s.getV x = some a ∧ k a = .fault f := by
  rcases withV_cases h with h | ⟨hn, h⟩
  · exact .inr h
  · injection h with h
    exact .inl ⟨_, h, hn⟩

theorem withI_fault {s : State} {k : Word → Result} {f : Fault} (h : withI s k = .fault f) :
    (∃ l, f = .readBeforeWrite l ∧ HoldsNoValue s l) ∨ ∃ w, s.getI = some w ∧ k w = .fault f := by
  rcases withI_cases h with h | ⟨hn, h⟩
  · exact .inr h
  · injection h with h
    exact .inl ⟨_, h, hn⟩

/-- exec stops with nothing but ReadBeforeWrite, and only on a location that holds no value (R311). -/
theorem exec_fault {i : Instr} {s : State} {f : Fault} (h : exec i s = .fault f) :
    ∃ l, f = .readBeforeWrite l ∧ HoldsNoValue s l := by
  cases i with
  | cls | jp | ldImm | ldI | rnd | ldVxK => cases h
  | ret => simp only [exec, execRet] at h; split at h <;> cases h
  | call => simp only [exec, execCall] at h; split at h <;> cases h
  | seImm | sneImm | addImm | ldReg | shr | shl | jpV0 | ldDTVx | ldSTVx | ldFVx =>
    rcases withV_fault h with h | ⟨_, _, h⟩
    · exact h
    · cases h
  | seReg | sneReg | orReg | andReg | xorReg | addReg | subReg | subn =>
    rcases withV_fault h with h | ⟨_, _, h⟩
    · exact h
    rcases withV_fault h with h | ⟨_, _, h⟩
    · exact h
    · cases h
  | skp | sknp =>
    rcases withV_fault h with h | ⟨_, _, h⟩
    · exact h
    · rw [withKey_eq] at h; split at h <;> cases h
  | ldVxDT =>
    rcases withDT_cases h with ⟨_, _, h⟩ | ⟨hn, h⟩
    · cases h
    · injection h with h
      exact ⟨_, h, hn⟩
  | addIVx =>
    rcases withV_fault h with h | ⟨_, _, h⟩
    · exact h
    rcases withI_fault h with h | ⟨_, _, h⟩
    · exact h
    · cases h
  | ldBVx =>
    rcases withV_fault h with h | ⟨_, _, h⟩
    · exact h
    rcases withI_fault h with h | ⟨_, _, h⟩
    · exact h
    rcases checkRange_cases h with ⟨_, h⟩ | ⟨_, _, h⟩ <;> cases h
  | ldMemVx =>
    rcases withI_fault h with h | ⟨_, _, h⟩
    · exact h
    rcases checkRange_cases h with ⟨_, h⟩ | ⟨_, _, h⟩
    · rcases withVs_cases h with ⟨_, _, _, h⟩ | ⟨_, _, hn, h⟩
      · cases h
      · injection h with h
        exact ⟨_, h, hn⟩
    · cases h
  | ldVxMem =>
    rcases withI_fault h with h | ⟨_, _, h⟩
    · exact h
    rcases checkRange_cases h with ⟨_, h⟩ | ⟨_, _, h⟩
    · rcases withBytes_cases h with ⟨_, _, _, h⟩ | ⟨_, _, hn, h⟩
      · cases h
      · injection h with h
        exact ⟨_, h, hn⟩
    · cases h
  | drw =>
    rcases withV_fault h with h | ⟨_, _, h⟩
    · exact h
    rcases withV_fault h with h | ⟨_, _, h⟩
    · exact h
    rcases withI_fault h with h | ⟨_, _, h⟩
    · exact h
    rcases checkRange_cases h with ⟨_, h⟩ | ⟨_, _, h⟩
    · rcases withBytes_cases h with ⟨_, _, _, h⟩ | ⟨_, _, hn, h⟩
      · dsimp only at h; split at h <;> cases h
      · injection h with h
        exact ⟨_, h, hn⟩
    · cases h

/-- No arm of exec refuses. -/
theorem exec_ne_refused (i : Instr) (s : State) (r : Refusal) : exec i s ≠ .refused r := by
  intro h
  cases i with
  | cls | jp | ldImm | ldI | rnd | ldVxK => cases h
  | ret => simp only [exec, execRet] at h; split at h <;> cases h
  | call => simp only [exec, execCall] at h; split at h <;> cases h
  | seImm | sneImm | addImm | ldReg | shr | shl | jpV0 | ldDTVx | ldSTVx | ldFVx =>
    rcases withV_cases h with ⟨_, _, h⟩ | ⟨_, h⟩ <;> cases h
  | seReg | sneReg | orReg | andReg | xorReg | addReg | subReg | subn =>
    rcases withV_cases h with ⟨_, _, h⟩ | ⟨_, h⟩
    · rcases withV_cases h with ⟨_, _, h⟩ | ⟨_, h⟩ <;> cases h
    · cases h
  | skp | sknp =>
    rcases withV_cases h with ⟨_, _, h⟩ | ⟨_, h⟩
    · rw [withKey_eq] at h; split at h <;> cases h
    · cases h
  | ldVxDT => rcases withDT_cases h with ⟨_, _, h⟩ | ⟨_, h⟩ <;> cases h
  | addIVx =>
    rcases withV_cases h with ⟨_, _, h⟩ | ⟨_, h⟩
    · rcases withI_cases h with ⟨_, _, h⟩ | ⟨_, h⟩ <;> cases h
    · cases h
  | ldBVx =>
    rcases withV_cases h with ⟨_, _, h⟩ | ⟨_, h⟩
    · rcases withI_cases h with ⟨_, _, h⟩ | ⟨_, h⟩
      · rcases checkRange_cases h with ⟨_, h⟩ | ⟨_, _, h⟩ <;> cases h
      · cases h
    · cases h
  | ldMemVx =>
    rcases withI_cases h with ⟨_, _, h⟩ | ⟨_, h⟩
    · rcases checkRange_cases h with ⟨_, h⟩ | ⟨_, _, h⟩
      · rcases withVs_cases h with ⟨_, _, _, h⟩ | ⟨_, _, _, h⟩ <;> cases h
      · cases h
    · cases h
  | ldVxMem =>
    rcases withI_cases h with ⟨_, _, h⟩ | ⟨_, h⟩
    · rcases checkRange_cases h with ⟨_, h⟩ | ⟨_, _, h⟩
      · rcases withBytes_cases h with ⟨_, _, _, h⟩ | ⟨_, _, _, h⟩ <;> cases h
      · cases h
    · cases h
  | drw =>
    rcases withV_cases h with ⟨_, _, h⟩ | ⟨_, h⟩
    · rcases withV_cases h with ⟨_, _, h⟩ | ⟨_, h⟩
      · rcases withI_cases h with ⟨_, _, h⟩ | ⟨_, h⟩
        · rcases checkRange_cases h with ⟨_, h⟩ | ⟨_, _, h⟩
          · rcases withBytes_cases h with ⟨_, _, _, h⟩ | ⟨_, _, _, h⟩
            · dsimp only at h; split at h <;> cases h
            · cases h
          · cases h
        · cases h
      · cases h
    · cases h

end Sys2Proof.Machine
end

