-- ==== Sys2Proof/Laws/Cycle.lean ====
section
/-! SUPPORT. What an iteration, a key event, a reset and a transaction can do, said once. -/

namespace Sys2Proof.Machine

/-- The address a fetch faults with is out of range. -/
theorem le_fetchFaultAddr {a : Nat} (h : memSize ≤ a + 1) : memSize ≤ fetchFaultAddr a := by
  unfold fetchFaultAddr
  split <;> omega

/-- What an iteration of the cycle can do when it answers a next state: nothing when paused; a fetch fault; or, with PC at
A + 2, an instruction, SYS, or an Unknown word (R120, R131). -/
theorem iteration_next {n : Nat} {s t : State} (h : iteration n s = .next t) :
    (s.paused = true ∧ t = s.setPhase (.cycle n)) ∨
    (s.paused = false ∧
      ((memSize ≤ s.pc.toNat + 1 ∧
          t = (s.setPhase (.cycle n)).raise .memoryOutOfBounds s.pc none (some (fetchFaultAddr s.pc.toNat))) ∨
       (s.pc.toNat + 1 < memSize ∧ ∃ w,
          ((∃ i, decode s.params.sysPolicy w = .instr i ∧ exec i (s.setPhase (.cycle n)).advance = .next t) ∨
           t = (s.setPhase (.cycle n)).advance ∨
           t = (s.setPhase (.cycle n)).advance.raise .unknownOpcode s.pc (some w) none)))) := by
  unfold iteration at h
  split at h
  · exact .inl ⟨‹_›, next_inj h⟩
  · refine .inr ⟨by simp_all, ?_⟩
    unfold runInstruction fetch at h
    split at h
    · rename_i hp
      exact .inl ⟨hp, next_inj h⟩
    · rename_i hp
      refine .inr ⟨by simp at hp ⊢; omega, ?_⟩
      obtain ⟨b, hb, h⟩ := withByte_next h
      obtain ⟨c, hc, h⟩ := withByte_next h
      refine ⟨wordOfBytes b c, ?_⟩
      dsimp only at h
      split at h
      · exact .inl ⟨_, ‹_›, h⟩
      · exact .inr (.inl (next_inj h))
      · exact .inr (.inr (by rw [next_inj h]; simp [State.fetchAddr]))

/-- The tick writes DT and ST and nothing else (R132). -/
theorem tick_rest (s : State) : s.tick = { s with dt := s.tick.dt, st := s.tick.st } := by
  unfold State.tick; split <;> rfl

/-- What KeyDown can do: set the level, and end a pending key-wait of a core that is not halted (R136, R137, R312). -/
theorem keyDown_cases (k : Key) (s : State) :
    s.keyDown k = s.keyLevelUp k ∨
    (s.fault = none ∧ s.paused = true ∧
      ((∃ x, s.waitReg = some x ∧ s.keyDown k = ((s.keyLevelUp k).setV x (BitVec.ofNat 8 k.val)).endWait) ∨
       (s.waitReg = none ∧ s.keyDown k = (s.keyLevelUp k).endWait))) := by
  unfold State.keyDown
  dsimp only
  split
  · exact .inl rfl
  · rename_i hh
    have hh : s.fault = none := by simpa [State.halted, State.keyLevelUp] using hh
    split
    · rename_i hp
      refine .inr ⟨hh, hp, ?_⟩
      split
      · rename_i x hx
        exact .inl ⟨x, hx, rfl⟩
      · rename_i hx
        exact .inr ⟨hx, rfl⟩
    · exact .inl rfl

/-- A byte right after reset: the program's inside it, else what an unlisted address reads as (R340). -/
theorem byte_afterReset (program : List Byte) (s : State) (a : Nat) :
    (s.afterReset program).byte a =
      if progBase ≤ a ∧ a < progBase + program.length then program[a - progBase]? else Memory.resetByte s.params a :=
  Memory.get_setAll s.params program [] progBase a

/-- What a transaction can do when it answers a next state. -/
theorem transact_next {x : Transaction} {s t : State} (h : transact x s = .next t) :
    (∃ program, x = .reset program ∧ programWf program = true ∧ t = s.afterReset program) ∨
    (x = .cycle ∧ s.phase ≠ .awaitingReset ∧
      ((s.halted = true ∧ t = s.setOutputs []) ∨ (s.halted = false ∧ t = s.startCycle))) ∨
    (∃ k, x = .keyDown k ∧ t = s.keyDown k) ∨ (∃ k, x = .keyUp k ∧ t = s.keyUp k) := by
  cases x with
  | reset p =>
    simp only [transact, doReset] at h
    split at h
    · exact .inl ⟨p, rfl, ‹_›, next_inj h⟩
    · cases h
  | cycle =>
    refine .inr (.inl ⟨rfl, ?_⟩)
    simp only [transact, doCycle] at h
    split at h
    · cases h
    all_goals
      rename_i hp
      refine ⟨by simp [hp], ?_⟩
      split at h
      · exact .inl ⟨‹_›, next_inj h⟩
      · exact .inr ⟨by simp_all, next_inj h⟩
  | keyDown k => exact .inr (.inr (.inl ⟨k, rfl, next_inj h⟩))
  | keyUp k => exact .inr (.inr (.inr ⟨k, rfl, next_inj h⟩))

/-- The transaction the core takes, and the inbox left after it (R51). -/
theorem takeTransaction_next {s t : State} (h : takeTransaction s = .next t) :
    ∃ x rest, transact x { s with inbox := rest } = .next t := by
  unfold takeTransaction at h
  split at h
  · exact ⟨_, _, h⟩
  · exact ⟨.cycle, s.inbox, h⟩

/-- What a step can do when it answers a next state. -/
theorem step_next {s t : State} (h : step s = .next t) :
    ((s.phase = .idle ∨ s.phase = .awaitingReset) ∧ takeTransaction s = .next t) ∨
    (∃ n, s.phase = .cycle n ∧ s.halted = true ∧ t = s.setPhase .idle) ∨
    (s.phase = .cycle 0 ∧ s.halted = false ∧ t = s.endCycle) ∨
    (∃ n, s.phase = .cycle (n + 1) ∧ s.halted = false ∧ iteration n s = .next t) := by
  unfold step advanceMachine at h
  split at h
  · exact .inl ⟨.inr ‹_›, h⟩
  · exact .inl ⟨.inl ‹_›, h⟩
  · split at h
    · exact .inr (.inl ⟨_, ‹_›, ‹_›, next_inj h⟩)
    · exact .inr (.inr (.inl ⟨‹_›, by simp_all, next_inj h⟩))
  · split at h
    · exact .inr (.inl ⟨_, ‹_›, ‹_›, next_inj h⟩)
    · exact .inr (.inr (.inr ⟨_, ‹_›, by simp_all, h⟩))

/-- Within a cycle a core that is neither halted nor paused runs an instruction (R130, R131). -/
theorem step_of_running {n : Nat} {s : State} (hp : s.phase = .cycle (n + 1)) (hw : s.paused = false) (hf : s.fault = none) :
    step s = runInstruction (s.setPhase (.cycle n)) := by
  simp [step, advanceMachine, hp, State.halted_of_none hf, iteration, hw]

/-- The fetch of two bytes in range that hold values goes on with the word they form (R90). -/
theorem fetch_of_bytes {s : State} {hi lo : Byte} (k : Word → State → Result) (hr : s.pc.toNat + 1 < memSize)
    (hhi : s.byte s.pc.toNat = some hi) (hlo : s.byte (s.pc.toNat + 1) = some lo) :
    fetch s k = k (wordOfBytes hi lo) s.advance := by
  rw [fetch, if_neg (by omega), withByte_some _ hhi, withByte_some _ hlo]

/-- A run of one step more, by what its first step answers. -/
theorem run_next (M : Host.Core) {m : Nat} {s t : M.State} (h : M.step s = .next t) : M.run (m + 1) s = M.run m t := by
  simp only [Host.Core.run, h]

theorem run_fault (M : Host.Core) {m : Nat} {s : M.State} {r : M.Fault} (h : M.step s = .fault r) :
    M.run (m + 1) s = .fault r := by
  simp only [Host.Core.run, h]

theorem run_refused (M : Host.Core) {m : Nat} {s : M.State} {r : M.Refusal} (h : M.step s = .refused r) :
    M.run (m + 1) s = .refused r := by
  simp only [Host.Core.run, h]

end Sys2Proof.Machine
end

