-- ==== Sys2Proof/Laws/Decode.lean ====
section
/-! SUPPORT. The fields of a word given by its number, and the words the formats make. -/

namespace Sys2Proof

theorem bits_ofNat (n hi lo : Nat) (h : n < 65536) : bits (BitVec.ofNat 16 n) hi lo = n / 2 ^ lo % 2 ^ (hi - lo + 1) := by
  simp [bits, Nat.mod_eq_of_lt h]

theorem fieldOp_ofNat (n : Nat) (h : n < 65536) : fieldOp (BitVec.ofNat 16 n) = n / 4096 := by
  rw [fieldOp, bits_ofNat _ _ _ h]; omega

theorem fieldX_ofNat (n : Nat) (x : Reg) (h : n < 65536) (hx : n / 256 % 16 = x.val) : fieldX (BitVec.ofNat 16 n) = x := by
  apply Fin.ext
  rw [fieldX, bits_ofNat _ _ _ h, Fin.val_ofNat]; omega

theorem fieldY_ofNat (n : Nat) (y : Reg) (h : n < 65536) (hy : n / 16 % 16 = y.val) : fieldY (BitVec.ofNat 16 n) = y := by
  apply Fin.ext
  rw [fieldY, bits_ofNat _ _ _ h, Fin.val_ofNat]; omega

theorem fieldN_ofNat (n : Nat) (h : n < 65536) : fieldN (BitVec.ofNat 16 n) = n % 16 := by
  rw [fieldN, bits_ofNat _ _ _ h]; omega

theorem fieldNN_ofNat (n : Nat) (nn : Byte) (h : n < 65536) (hn : n % 256 = nn.toNat) : fieldNN (BitVec.ofNat 16 n) = nn := by
  apply BitVec.eq_of_toNat_eq
  rw [fieldNN, bits_ofNat _ _ _ h, BitVec.toNat_ofNat]; omega

theorem fieldNNN_ofNat (n : Nat) (nnn : Addr) (h : n < 65536) (hn : n % 4096 = nnn.toNat) :
    fieldNNN (BitVec.ofNat 16 n) = nnn := by
  apply BitVec.eq_of_toNat_eq
  rw [fieldNNN, bits_ofNat _ _ _ h, BitVec.toNat_ofNat]; omega

/-- A word is its four nibbles. -/
theorem toNat_eq_nibbles (w : Word) :
    w.toNat = fieldOp w * 4096 + (fieldX w).val * 256 + (fieldY w).val * 16 + fieldN w := by
  have := w.isLt
  simp only [fieldOp, fieldX, fieldY, fieldN, bits, Fin.val_ofNat]; omega

theorem fieldOp_lt (w : Word) : fieldOp w < 16 := by
  have := w.isLt
  simp only [fieldOp, bits]; omega

theorem fieldN_lt (w : Word) : fieldN w < 16 := by
  simp only [fieldN, bits]; omega

theorem toNat_fieldNN (w : Word) : (fieldNN w).toNat = (fieldY w).val * 16 + fieldN w := by
  have := w.isLt
  simp only [fieldNN, fieldY, fieldN, bits, Fin.val_ofNat, BitVec.toNat_ofNat]; omega

theorem toNat_fieldNNN (w : Word) : (fieldNNN w).toNat = (fieldX w).val * 256 + (fieldY w).val * 16 + fieldN w := by
  have := w.isLt
  simp only [fieldNNN, fieldX, fieldY, fieldN, bits, Fin.val_ofNat, BitVec.toNat_ofNat]; omega

/-- Taking a word apart into its two bytes and putting them together again gives the word (R67). -/
@[simp] theorem wordOfBytes_high_low (w : Word) : wordOfBytes (highByte w) (lowByte w) = w := by
  have := w.isLt
  apply BitVec.eq_of_toNat_eq
  simp only [wordOfBytes, highByte, lowByte, bits, BitVec.toNat_ofNat]; omega

theorem toNat_formatA (op : Nat) (nnn : Addr) (h : op < 16) : (formatA op nnn).toNat = op * 4096 + nnn.toNat := by
  have := nnn.isLt
  simp only [formatA, BitVec.toNat_ofNat]; omega

theorem toNat_formatXK (op : Nat) (x : Reg) (nn : Byte) (h : op < 16) :
    (formatXK op x nn).toNat = op * 4096 + x.val * 256 + nn.toNat := by
  have := nn.isLt
  have := x.isLt
  simp only [formatXK, BitVec.toNat_ofNat]; omega

theorem toNat_formatXYN (op : Nat) (x y : Reg) (n : Nat) (h : op < 16) (hn : n < 16) :
    (formatXYN op x y n).toNat = op * 4096 + x.val * 256 + y.val * 16 + n := by
  have := y.isLt
  have := x.isLt
  simp only [formatXYN, assemble, BitVec.toNat_ofNat]; omega

/-- A word under the mask of its top nibble. -/
theorem and_high (w : Word) : w &&& 0xF000#16 = BitVec.ofNat 16 (w.toNat / 4096 * 4096) := by
  have : BitVec.ofNat 16 (w.toNat / 4096 * 4096) = (w >>> 12) <<< 12 := by
    apply BitVec.eq_of_toNat_eq; have := w.isLt; simp [Nat.shiftRight_eq_div_pow, Nat.shiftLeft_eq]
  rw [this]
  ext i hi
  interval_cases i <;> simp

/-- A word under the mask of its top nibble and its k lowest bits: the masks of the opcode table are those of k = 0, 4, 8. -/
theorem and_mask (w : Word) (k : Nat) (hk : k ≤ 12) :
    w &&& (0xF000#16 ||| BitVec.ofNat 16 (2 ^ k - 1)) = BitVec.ofNat 16 (w.toNat / 4096 * 4096 + w.toNat % 2 ^ k) := by
  have hd : (w &&& 0xF000#16) &&& (w &&& BitVec.ofNat 16 (2 ^ k - 1)) = 0#16 := by
    have : 0xF000#16 &&& BitVec.ofNat 16 (2 ^ k - 1) = 0#16 := by interval_cases k <;> rfl
    rw [BitVec.and_assoc, ← BitVec.and_assoc 0xF000#16, BitVec.and_comm 0xF000#16 w, BitVec.and_assoc, this]; simp
  have hl : w &&& BitVec.ofNat 16 (2 ^ k - 1) = BitVec.ofNat 16 (w.toNat % 2 ^ k) := by
    have : 2 ^ k ≤ 2 ^ 12 := Nat.pow_le_pow_right (by omega) hk
    apply BitVec.eq_of_toNat_eq
    rw [BitVec.toNat_and, BitVec.toNat_ofNat, BitVec.toNat_ofNat, Nat.mod_eq_of_lt (a := 2 ^ k - 1) (by omega),
      Nat.and_two_pow_sub_one_eq_mod, Nat.mod_eq_of_lt (a := w.toNat % 2 ^ k)]
    have := w.isLt
    have := Nat.mod_le w.toNat (2 ^ k)
    omega
  rw [BitVec.and_or_distrib_left, ← BitVec.add_eq_or_of_and_eq_zero _ _ hd, and_high, hl, BitVec.ofNat_add]

end Sys2Proof
end

