-- ==== Sys2Proof/Laws/Display.lean ====
section
/-! SUPPORT. The laws of the framebuffer's cells and of the plots of a sprite. -/

namespace Sys2Proof.Machine

/-- A cell after one cell has been turned over. -/
theorem cellOf_flipCell (fb : FrameBuffer) (k j : Nat) (hk : k < fbSize) :
    cellOf (flipCell k fb) j = (cellOf fb j ^^ decide (j = k)) := by
  have h : k / 64 < 32 := by simp only [fbSize] at hk; omega
  unfold cellOf flipCell
  rw [dif_pos h]
  by_cases hr : j / 64 = k / 64
  · have hj : j = k ↔ k % 64 = j % 64 := by omega
    rw [hr, Vector.getElem?_set_self h, Vector.getElem?_eq_getElem h]
    simp [hj, Nat.mod_lt, eq_comm]
  · rw [Vector.getElem?_set_ne h (Ne.symm hr)]
    simp [show ¬ j = k by rintro rfl; exact hr rfl]

/-- There is no cell from 2048 on. -/
theorem cellOf_of_ge (fb : FrameBuffer) (k : Nat) (hk : fbSize ≤ k) : cellOf fb k = false := by
  have : 32 ≤ k / 64 := by simp only [fbSize] at hk; omega
  simp [cellOf, Vector.getElem?_eq_none this]

/-- A framebuffer of clear cells. -/
@[simp] theorem cellOf_clear (k : Nat) : cellOf (Vector.replicate 32 0#64) k = false := by
  unfold cellOf
  by_cases h : k / 64 < 32 <;> simp [h]

/-- What plotIndex answers, in one form for each PLOT_ALIAS (R252). -/
theorem plotIndex_linear {X Y k : Nat} :
    plotIndex .linear X Y = some k ↔ wrapOnce 64 X + 64 * wrapOnce 32 Y = k ∧ k < fbSize := by
  simp only [plotIndex]
  split
  · rw [Option.some.injEq]
    exact ⟨fun h => ⟨h, h ▸ ‹_›⟩, fun h => h.1⟩
  · exact ⟨(fun h => nomatch h), fun ⟨h, hk⟩ => absurd (h ▸ hk) ‹_›⟩

theorem plotIndex_fault {X Y k : Nat} :
    plotIndex .fault X Y = some k ↔
      wrapOnce 64 X + 64 * wrapOnce 32 Y = k ∧ wrapOnce 64 X < 64 ∧ wrapOnce 32 Y < 32 := by
  simp only [plotIndex]
  split
  · rw [Option.some.injEq]
    exact ⟨fun h => ⟨h, ‹_›⟩, fun h => h.1⟩
  · exact ⟨(fun h => nomatch h), fun h => absurd h.2 ‹_›⟩

/-- Every plot that is not OUT reaches a cell (R252). -/
theorem plotIndex_lt {mode : Config.PlotAlias} {X Y k : Nat} (h : plotIndex mode X Y = some k) : k < fbSize := by
  cases mode
  · exact (plotIndex_linear.mp h).2
  · have := plotIndex_fault.mp h
    simp only [fbSize]; omega

/-- The points of a sprite: the set bits of its rows, most significant bit first. -/
theorem mem_spritePoints (rows : List Byte) (r0 : Nat) (p : Nat × Nat) :
    p ∈ spritePoints r0 rows ↔
      r0 ≤ p.1 ∧ p.2 < 8 ∧ ∃ b, rows[p.1 - r0]? = some b ∧ b.getLsbD (7 - p.2) = true := by
  have hc : ∀ c : Nat, c ∈ [0, 1, 2, 3, 4, 5, 6, 7] ↔ c < 8 := by intro c; simp; omega
  induction rows generalizing r0 with
  | nil => simp [spritePoints]
  | cons b rows ih =>
    rw [spritePoints, List.mem_append, rowPoints, List.mem_map]
    refine (or_congr Iff.rfl (ih (r0 + 1))).trans ?_
    obtain ⟨r, c⟩ := p
    constructor
    · rintro (⟨c', h, he⟩ | ⟨h1, h2, b', h3, h4⟩)
      · rw [List.mem_filter, hc] at h
        obtain ⟨rfl, rfl⟩ : r0 = r ∧ c' = c := by simpa using he
        exact ⟨Nat.le_refl _, h.1, b, by simp, h.2⟩
      · refine ⟨by omega, h2, b', ?_, h4⟩
        dsimp only at h1 h3 ⊢
        obtain ⟨d, rfl⟩ : ∃ d, r = r0 + 1 + d := ⟨r - (r0 + 1), by omega⟩
        rw [show r0 + 1 + d - r0 = d + 1 by omega, List.getElem?_cons_succ]
        rwa [show r0 + 1 + d - (r0 + 1) = d by omega] at h3
    · rintro ⟨h1, h2, b', h3, h4⟩
      dsimp only at h1 h2 h3 h4
      rcases Nat.eq_or_lt_of_le h1 with rfl | h
      · simp only [Nat.sub_self, List.getElem?_cons_zero, Option.some.injEq] at h3
        subst h3
        exact .inl ⟨c, by rw [List.mem_filter, hc]; exact ⟨h2, h4⟩, rfl⟩
      · obtain ⟨d, rfl⟩ : ∃ d, r = r0 + 1 + d := ⟨r - (r0 + 1), by omega⟩
        rw [show r0 + 1 + d - r0 = d + 1 by omega, List.getElem?_cons_succ] at h3
        exact .inr ⟨by dsimp only; omega, h2, b', by
          dsimp only; rwa [show r0 + 1 + d - (r0 + 1) = d by omega], h4⟩

/-- The plots of a sprite: one for each set bit (R251). -/
theorem mem_spritePlots (mode : Config.PlotAlias) (X0 Y0 : Nat) (rows : List Byte) (o : Option Nat) :
    o ∈ spritePlots mode X0 Y0 rows ↔
      ∃ r c b, rows[r]? = some b ∧ c < 8 ∧ b.getLsbD (7 - c) = true ∧ plotIndex mode (X0 + c) (Y0 + r) = o := by
  unfold spritePlots
  rw [List.mem_map]
  constructor
  · rintro ⟨⟨r, c⟩, h, rfl⟩
    obtain ⟨-, hc, b, hb, hbit⟩ := (mem_spritePoints _ _ _).mp h
    exact ⟨r, c, b, hb, hc, hbit, rfl⟩
  · rintro ⟨r, c, b, hb, hc, hbit, rfl⟩
    exact ⟨(r, c), (mem_spritePoints _ _ _).mpr ⟨Nat.zero_le _, hc, b, hb, hbit⟩, rfl⟩

/-- The points of a sprite come without repetition. -/
theorem spritePoints_nodup (rows : List Byte) (r0 : Nat) : (spritePoints r0 rows).Nodup := by
  induction rows generalizing r0 with
  | nil => simp [spritePoints]
  | cons b rows ih =>
    rw [spritePoints, List.nodup_append]
    refine ⟨?_, ih _, ?_⟩
    · unfold rowPoints
      exact ((by decide : [0, 1, 2, 3, 4, 5, 6, 7].Nodup).filter _).map fun c d h => by simpa using h
    · intro p hp q hq hpq
      subst hpq
      rw [mem_spritePoints] at hq
      obtain ⟨c, -, rfl⟩ := List.mem_map.mp hp
      have := hq.1
      dsimp only at this
      omega

/-- Plots to distinct cells turn over exactly those cells. -/
theorem cellOf_plotCells (ks : List Nat) (fb : FrameBuffer) (hit : Bool) (hd : ks.Nodup) (hk : ∀ k ∈ ks, k < fbSize) (j : Nat) :
    cellOf (plotCells ks fb hit).1 j = (cellOf fb j ^^ decide (j ∈ ks)) := by
  induction ks generalizing fb hit with
  | nil => simp [plotCells]
  | cons k ks ih =>
    rw [List.nodup_cons] at hd
    rw [plotCells, ih _ _ hd.2 fun a ha => hk a (by simp [ha]), cellOf_flipCell _ _ _ (hk k (by simp))]
    by_cases hj : j = k
    · subst hj; simp [hd.1]
    · simp [hj]

/-- Plots to distinct cells collide exactly when one of those cells was set. -/
theorem hit_plotCells (ks : List Nat) (fb : FrameBuffer) (hit : Bool) (hd : ks.Nodup) (hk : ∀ k ∈ ks, k < fbSize) :
    (plotCells ks fb hit).2 = (hit || ks.any (cellOf fb)) := by
  induction ks generalizing fb hit with
  | nil => simp [plotCells]
  | cons k ks ih =>
    rw [List.nodup_cons] at hd
    rw [plotCells, ih _ _ hd.2 fun a ha => hk a (by simp [ha])]
    have same : ∀ a ∈ ks, cellOf (flipCell k fb) a = cellOf fb a := fun a ha => by
      have : a ≠ k := fun h => hd.1 (h ▸ ha)
      simp [cellOf_flipCell _ _ _ (hk k (by simp)), this]
    have : ks.any (cellOf (flipCell k fb)) = ks.any (cellOf fb) := by
      rw [Bool.eq_iff_iff, List.any_eq_true, List.any_eq_true]
      exact exists_congr fun a => and_congr_right fun ha => by rw [same a ha]
    rw [this, List.any_cons, Bool.or_assoc]

end Sys2Proof.Machine
end

