-- ==== Sys2Proof/Laws/PerInstr.lean ====
section
/-! SUPPORT. One lemma per instruction: the word the encoder gives it is of its own row of spec/opcode_table.json. -/

namespace Sys2Proof.Laws

/-- The word of a format under a mask of the opcode table (30_encoding.md R94, R96). -/
theorem formatA_fits (op : Nat) (nnn : Addr) (h : op < 16) :
    OpcodeRow.fits ⟨BitVec.ofNat 16 (op * 4096), 0xF000#16⟩ (formatA op nnn) := by
  refine (and_mask (formatA op nnn) 0 (by omega)).trans (congrArg _ ?_)
  have := nnn.isLt
  rw [toNat_formatA op nnn h]; omega

theorem formatXK_fits (op : Nat) (x : Reg) (nn : Byte) (h : op < 16) :
    OpcodeRow.fits ⟨BitVec.ofNat 16 (op * 4096), 0xF000#16⟩ (formatXK op x nn) := by
  refine (and_mask (formatXK op x nn) 0 (by omega)).trans (congrArg _ ?_)
  have := nn.isLt
  rw [toNat_formatXK op x nn h]; omega

theorem formatX_fits (op : Nat) (x : Reg) (nn : Byte) (h : op < 16) :
    OpcodeRow.fits ⟨BitVec.ofNat 16 (op * 4096 + nn.toNat), 0xF0FF#16⟩ (formatXK op x nn) := by
  refine (and_mask (formatXK op x nn) 8 (by omega)).trans (congrArg _ ?_)
  have := nn.isLt
  rw [toNat_formatXK op x nn h]; omega

theorem formatXY_fits (op : Nat) (x y : Reg) (n : Nat) (h : op < 16) (hn : n < 16) :
    OpcodeRow.fits ⟨BitVec.ofNat 16 (op * 4096 + n), 0xF00F#16⟩ (formatXYN op x y n) := by
  refine (and_mask (formatXYN op x y n) 4 (by omega)).trans (congrArg _ ?_)
  rw [toNat_formatXYN op x y n h hn]; omega

theorem formatXYN_fits (op : Nat) (x y : Reg) (n : Nat) (h : op < 16) (hn : n < 16) :
    OpcodeRow.fits ⟨BitVec.ofNat 16 (op * 4096), 0xF000#16⟩ (formatXYN op x y n) := by
  refine (and_mask (formatXYN op x y n) 0 (by omega)).trans (congrArg _ ?_)
  rw [toNat_formatXYN op x y n h hn]; omega

end Sys2Proof.Laws

/-- The family: a well-formed instruction's word is of the instruction's row. -/
def Sys2Proof.Laws.RowMatch.Statement (i : Sys2Proof.Instr) : Prop :=
  i.wf = true → i.row.fits (Sys2Proof.encode i)

namespace Sys2Proof.Laws

theorem RowMatch.cls : RowMatch.Statement .cls := fun _ => (by decide : _ &&& _ = _)

theorem RowMatch.ret : RowMatch.Statement .ret := fun _ => (by decide : _ &&& _ = _)

theorem RowMatch.jp (nnn : Addr) : RowMatch.Statement (.jp nnn) := fun _ => formatA_fits 0x1 nnn (by decide)

theorem RowMatch.call (nnn : Addr) : RowMatch.Statement (.call nnn) := fun _ => formatA_fits 0x2 nnn (by decide)

theorem RowMatch.seImm (x : Reg) (nn : Byte) : RowMatch.Statement (.seImm x nn) := fun _ => formatXK_fits 0x3 x nn (by decide)

theorem RowMatch.sneImm (x : Reg) (nn : Byte) : RowMatch.Statement (.sneImm x nn) := fun _ => formatXK_fits 0x4 x nn (by decide)

theorem RowMatch.seReg (x : Reg) (y : Reg) : RowMatch.Statement (.seReg x y) := fun _ =>
  formatXY_fits 0x5 x y 0x0 (by decide) (by decide)

theorem RowMatch.ldImm (x : Reg) (nn : Byte) : RowMatch.Statement (.ldImm x nn) := fun _ => formatXK_fits 0x6 x nn (by decide)

theorem RowMatch.addImm (x : Reg) (nn : Byte) : RowMatch.Statement (.addImm x nn) := fun _ => formatXK_fits 0x7 x nn (by decide)

theorem RowMatch.ldReg (x : Reg) (y : Reg) : RowMatch.Statement (.ldReg x y) := fun _ =>
  formatXY_fits 0x8 x y 0x0 (by decide) (by decide)

theorem RowMatch.orReg (x : Reg) (y : Reg) : RowMatch.Statement (.orReg x y) := fun _ =>
  formatXY_fits 0x8 x y 0x1 (by decide) (by decide)

theorem RowMatch.andReg (x : Reg) (y : Reg) : RowMatch.Statement (.andReg x y) := fun _ =>
  formatXY_fits 0x8 x y 0x2 (by decide) (by decide)

theorem RowMatch.xorReg (x : Reg) (y : Reg) : RowMatch.Statement (.xorReg x y) := fun _ =>
  formatXY_fits 0x8 x y 0x3 (by decide) (by decide)

theorem RowMatch.addReg (x : Reg) (y : Reg) : RowMatch.Statement (.addReg x y) := fun _ =>
  formatXY_fits 0x8 x y 0x4 (by decide) (by decide)

theorem RowMatch.subReg (x : Reg) (y : Reg) : RowMatch.Statement (.subReg x y) := fun _ =>
  formatXY_fits 0x8 x y 0x5 (by decide) (by decide)

theorem RowMatch.shr (x : Reg) (y : Reg) : RowMatch.Statement (.shr x y) := fun _ =>
  formatXY_fits 0x8 x y 0x6 (by decide) (by decide)

theorem RowMatch.subn (x : Reg) (y : Reg) : RowMatch.Statement (.subn x y) := fun _ =>
  formatXY_fits 0x8 x y 0x7 (by decide) (by decide)

theorem RowMatch.shl (x : Reg) (y : Reg) : RowMatch.Statement (.shl x y) := fun _ =>
  formatXY_fits 0x8 x y 0xe (by decide) (by decide)

theorem RowMatch.sneReg (x : Reg) (y : Reg) : RowMatch.Statement (.sneReg x y) := fun _ =>
  formatXY_fits 0x9 x y 0x0 (by decide) (by decide)

theorem RowMatch.ldI (nnn : Addr) : RowMatch.Statement (.ldI nnn) := fun _ => formatA_fits 0xa nnn (by decide)

theorem RowMatch.jpV0 (nnn : Addr) : RowMatch.Statement (.jpV0 nnn) := fun _ => formatA_fits 0xb nnn (by decide)

theorem RowMatch.rnd (x : Reg) (nn : Byte) : RowMatch.Statement (.rnd x nn) := fun _ => formatXK_fits 0xc x nn (by decide)

theorem RowMatch.drw (x : Reg) (y : Reg) (n : Nat) : RowMatch.Statement (.drw x y n) := fun h =>
  formatXYN_fits 0xD x y n (by decide) (by simpa [Instr.wf] using h)

theorem RowMatch.skp (x : Reg) : RowMatch.Statement (.skp x) := fun _ => formatX_fits 0xe x 0x9E#8 (by decide)

theorem RowMatch.sknp (x : Reg) : RowMatch.Statement (.sknp x) := fun _ => formatX_fits 0xe x 0xA1#8 (by decide)

theorem RowMatch.ldVxDT (x : Reg) : RowMatch.Statement (.ldVxDT x) := fun _ => formatX_fits 0xf x 0x07#8 (by decide)

theorem RowMatch.ldVxK (x : Reg) : RowMatch.Statement (.ldVxK x) := fun _ => formatX_fits 0xf x 0x0A#8 (by decide)

theorem RowMatch.ldDTVx (x : Reg) : RowMatch.Statement (.ldDTVx x) := fun _ => formatX_fits 0xf x 0x15#8 (by decide)

theorem RowMatch.ldSTVx (x : Reg) : RowMatch.Statement (.ldSTVx x) := fun _ => formatX_fits 0xf x 0x18#8 (by decide)

theorem RowMatch.addIVx (x : Reg) : RowMatch.Statement (.addIVx x) := fun _ => formatX_fits 0xf x 0x1E#8 (by decide)

theorem RowMatch.ldFVx (x : Reg) : RowMatch.Statement (.ldFVx x) := fun _ => formatX_fits 0xf x 0x29#8 (by decide)

theorem RowMatch.ldBVx (x : Reg) : RowMatch.Statement (.ldBVx x) := fun _ => formatX_fits 0xf x 0x33#8 (by decide)

theorem RowMatch.ldMemVx (x : Reg) : RowMatch.Statement (.ldMemVx x) := fun _ => formatX_fits 0xf x 0x55#8 (by decide)

theorem RowMatch.ldVxMem (x : Reg) : RowMatch.Statement (.ldVxMem x) := fun _ => formatX_fits 0xf x 0x65#8 (by decide)

end Sys2Proof.Laws
end

