-- ==== Sys2Proof/Tests/Slice0.lean ====
section
/-! SUPPORT. Tests: the well-formedness checks refuse what they should; words written out from the spec's encodings decode to
the instructions they stand for; single steps of the spec's vectors (95_test_vectors.md, whose names the comments give); and
for the hypotheses of every statement a state and operands that meet them. -/

namespace Sys2Proof.Tests

open Sys2Proof.Machine

/-- The next state of an answer, where it is one. -/
def after : Result → Option State
  | .next t => some t
  | .fault _ | .refused _ => none

/-- Why the model stops, where it does. -/
def stop : Result → Option Fault
  | .fault r => some r
  | .next _ | .refused _ => none

/-- What an answer refuses, where it does. -/
def refusal : Result → Option Refusal
  | .refused r => some r
  | .next _ | .fault _ => none

/-- s about to run the word w at address a, one iteration of its cycle left after it. -/
def place (a w : Nat) (s : State) : State :=
  (((s.setBytes a (tableBytes 16 w)).setPC (BitVec.ofNat 16 a)).setPhase (.cycle 2))

/-- The step of a word at address a. -/
def runAt (a w : Nat) (s : State) : Option State := after (step (place a w s))

/-- The step of a word at the entry point. -/
def run (w : Nat) (s : State) : Option State := runAt 0x200 w s

/-- Reset with some registers written. -/
def regs (l : List (Reg × Byte)) : State := State.reset.setVs l

/-- s with other parameters. -/
def withParams (f : Config.Params → Config.Params) (s : State) : State := { s with params := f s.params }

/-- What a step leaves: Vx, VF and PC. -/
def seen (x : Reg) (t : State) : Option Byte × Option Byte × Word := (t.getV x, t.getV .VF, t.pc)

/-- The cells set among the first m, by their index. -/
def cells (m : Nat) (t : State) : List Nat := (List.range m).filter t.cell

/-- INIT_STATE = unwritten, right after reset (10_state.md R41). -/
def bare : State := (withParams (fun q => { q with initState := .unwritten }) State.reset).afterReset []

/-! ### Well-formedness: an ill-formed term for each check -/

theorem test_wf_refuses_sprite_height : (Instr.drw 0 0 16).wf = false ∧ (Instr.drw 0 0 15).wf = true := by decide
theorem test_wf_refuses_stack_capacity : Config.Params.wf { defaultParams with stackCapacity := 0 } = false := by decide
theorem test_wf_default_params : defaultParams.wf = true := by decide
/-- 10_state.md R50: 3584 bytes succeed, 3585 are refused. -/
theorem test_wf_refuses_long_program (b : Byte) :
    programWf (List.replicate 3585 b) = false ∧ programWf (List.replicate 3584 b) = true := by
  constructor <;> (simp only [programWf, List.length_replicate]; decide)

/-! ### Decoding: words written out from the formats and the opcode map (30_encoding.md R94, R96) -/

theorem test_decode_family0 :
    decode .fault 0b0000000011100000#16 = .instr .cls ∧ decodeTableWord 16 0b0000000011100000 = some .cls ∧
    decode .fault 0b0000000011101110#16 = .instr .ret ∧ decodeTableWord 16 0b0000000011101110 = some .ret := by decide
theorem test_decode_jump_call :
    decode .fault 0b0001001000110100#16 = .instr (.jp 0x234#12) ∧ decodeTableWord 16 0b0001001000110100 = some (.jp 0x234#12) ∧
    decode .fault 0b0010001000010000#16 = .instr (.call 0x210#12) ∧ decodeTableWord 16 0b0010001000010000 = some (.call 0x210#12) := by decide
theorem test_decode_skips :
    decode .fault 0b0011001101000010#16 = .instr (.seImm 3 0x42#8) ∧ decodeTableWord 16 0b0011001101000010 = some (.seImm 3 0x42#8) ∧
    decode .fault 0b0100001101000010#16 = .instr (.sneImm 3 0x42#8) ∧ decodeTableWord 16 0b0100001101000010 = some (.sneImm 3 0x42#8) ∧
    decode .fault 0b0101000000010000#16 = .instr (.seReg 0 1) ∧ decodeTableWord 16 0b0101000000010000 = some (.seReg 0 1) ∧
    decode .fault 0b1001000000010000#16 = .instr (.sneReg 0 1) ∧ decodeTableWord 16 0b1001000000010000 = some (.sneReg 0 1) := by decide
theorem test_decode_immediates :
    decode .fault 0b0110111101000010#16 = .instr (.ldImm 15 0x42#8) ∧ decodeTableWord 16 0b0110111101000010 = some (.ldImm 15 0x42#8) ∧
    decode .fault 0b0111000111111111#16 = .instr (.addImm 1 0xFF#8) ∧ decodeTableWord 16 0b0111000111111111 = some (.addImm 1 0xFF#8) ∧
    decode .fault 0b1100001100001111#16 = .instr (.rnd 3 0x0F#8) ∧ decodeTableWord 16 0b1100001100001111 = some (.rnd 3 0x0F#8) := by decide
theorem test_decode_family8_logic :
    decode .fault 0b1000000100100000#16 = .instr (.ldReg 1 2) ∧ decodeTableWord 16 0b1000000100100000 = some (.ldReg 1 2) ∧
    decode .fault 0b1000000100100001#16 = .instr (.orReg 1 2) ∧ decodeTableWord 16 0b1000000100100001 = some (.orReg 1 2) ∧
    decode .fault 0b1000000100100010#16 = .instr (.andReg 1 2) ∧ decodeTableWord 16 0b1000000100100010 = some (.andReg 1 2) ∧
    decode .fault 0b1000000100100011#16 = .instr (.xorReg 1 2) ∧ decodeTableWord 16 0b1000000100100011 = some (.xorReg 1 2) := by decide
theorem test_decode_family8_arithmetic :
    decode .fault 0b1000111100010100#16 = .instr (.addReg 15 1) ∧ decodeTableWord 16 0b1000111100010100 = some (.addReg 15 1) ∧
    decode .fault 0b1000000000010101#16 = .instr (.subReg 0 1) ∧ decodeTableWord 16 0b1000000000010101 = some (.subReg 0 1) ∧
    decode .fault 0b1000000000010110#16 = .instr (.shr 0 1) ∧ decodeTableWord 16 0b1000000000010110 = some (.shr 0 1) ∧
    decode .fault 0b1000000000010111#16 = .instr (.subn 0 1) ∧ decodeTableWord 16 0b1000000000010111 = some (.subn 0 1) ∧
    decode .fault 0b1000000000011110#16 = .instr (.shl 0 1) ∧ decodeTableWord 16 0b1000000000011110 = some (.shl 0 1) := by decide
theorem test_decode_addresses :
    decode .fault 0b1010001100000000#16 = .instr (.ldI 0x300#12) ∧ decodeTableWord 16 0b1010001100000000 = some (.ldI 0x300#12) ∧
    decode .fault 0b1011010111111111#16 = .instr (.jpV0 0x5FF#12) ∧ decodeTableWord 16 0b1011010111111111 = some (.jpV0 0x5FF#12) := by decide
theorem test_decode_draw :
    decode .fault 0b1101000011110001#16 = .instr (.drw 0 15 1) ∧ decodeTableWord 16 0b1101000011110001 = some (.drw 0 15 1) := by decide
theorem test_decode_familyE :
    decode .fault 0b1110001010011110#16 = .instr (.skp 2) ∧ decodeTableWord 16 0b1110001010011110 = some (.skp 2) ∧
    decode .fault 0b1110001010100001#16 = .instr (.sknp 2) ∧ decodeTableWord 16 0b1110001010100001 = some (.sknp 2) := by decide
theorem test_decode_familyF_timers_keys :
    decode .fault 0b1111000100000111#16 = .instr (.ldVxDT 1) ∧ decodeTableWord 16 0b1111000100000111 = some (.ldVxDT 1) ∧
    decode .fault 0b1111001100001010#16 = .instr (.ldVxK 3) ∧ decodeTableWord 16 0b1111001100001010 = some (.ldVxK 3) ∧
    decode .fault 0b1111000000010101#16 = .instr (.ldDTVx 0) ∧ decodeTableWord 16 0b1111000000010101 = some (.ldDTVx 0) ∧
    decode .fault 0b1111000000011000#16 = .instr (.ldSTVx 0) ∧ decodeTableWord 16 0b1111000000011000 = some (.ldSTVx 0) := by decide
theorem test_decode_familyF_index :
    decode .fault 0b1111001000011110#16 = .instr (.addIVx 2) ∧ decodeTableWord 16 0b1111001000011110 = some (.addIVx 2) ∧
    decode .fault 0b1111000000101001#16 = .instr (.ldFVx 0) ∧ decodeTableWord 16 0b1111000000101001 = some (.ldFVx 0) ∧
    decode .fault 0b1111000000110011#16 = .instr (.ldBVx 0) ∧ decodeTableWord 16 0b1111000000110011 = some (.ldBVx 0) ∧
    decode .fault 0b1111000101010101#16 = .instr (.ldMemVx 1) ∧ decodeTableWord 16 0b1111000101010101 = some (.ldMemVx 1) ∧
    decode .fault 0b1111001001100101#16 = .instr (.ldVxMem 2) ∧ decodeTableWord 16 0b1111001001100101 = some (.ldVxMem 2) := by decide

/-- FD5 to FD12: Unknown words, and SYS under SYS_POLICY = nop. -/
theorem test_decode_unknown :
    decode .fault 0x0123#16 = .unknown ∧ decode .fault 0x0000#16 = .unknown ∧ decode .fault 0x01E0#16 = .unknown ∧
    decode .fault 0x5001#16 = .unknown ∧ decode .fault 0x8018#16 = .unknown ∧ decode .fault 0x9011#16 = .unknown ∧
    decode .fault 0xE29F#16 = .unknown ∧ decode .fault 0xF2FF#16 = .unknown ∧ decode .nop 0x0123#16 = .sys 0x123#12 ∧
    decodeTableWord 16 0x0123 = none := by decide

/-! ### The bytes of the font and of a placed word (20_memory.md R67, R72) -/

theorem test_font_glyph3 : (List.range 5).map (fun j => State.reset.byte (15 + j)) =
    [some 0xF0, some 0x10, some 0xF0, some 0x10, some 0xF0] := by decide
theorem test_memory_canonical : Memory.wf defaultParams (State.reset.setBytes 0x300 [0, 5, 0]).mem = true ∧
    (State.reset.setBytes 0x300 [0, 5, 0]).mem = [(0x301, 5)] := by decide
/-- The host's placement: the very next step after reset runs the word. -/
theorem test_withFetchWord : (after (step (State.reset.withFetchWord 16 0x6F42))).map (seen .VF) =
    some (some 0x42, some 0x42, 0x202) := by decide
theorem test_reset_is_afterReset : State.reset = State.reset.afterReset [] := by decide

/-! ### Fetch -/

/-- FD1: the last legal fetch. -/
theorem test_fetch_last_word : (runAt 0xFFE 0x1200 State.reset).map State.pc = some 0x200 := by decide
/-- FD2: PC = 0xFFF. -/
theorem test_fetch_out_of_range : (after (step ((State.reset.setPC 0xFFF).setPhase (.cycle 1)))).map (fun t => (t.pc, t.fault)) = some (0xFFF, some ⟨.memoryOutOfBounds, 0xFFF, none, some 0x1000⟩) := by decide
/-- FD3: PC = 0x1000. -/
theorem test_fetch_past_the_end : (after (step ((State.reset.setPC 0x1000).setPhase (.cycle 1)))).map (fun t => (t.pc, t.fault)) = some (0x1000, some ⟨.memoryOutOfBounds, 0x1000, none, some 0x1000⟩) := by decide
/-- FD4: an odd PC. -/
theorem test_fetch_odd : (runAt 0x201 0x6007 State.reset).map (seen 0) = some (some 7, some 0, 0x203) := by decide
/-- S11 and FD9: no register changes. -/
theorem test_unknown_word : (run 0x8018 (regs [(0, 1), (1, 2)])).map (fun t => (t.v, t.pc, t.fault)) = some ((regs [(0, 1), (1, 2)]).v, 0x202, some ⟨.unknownOpcode, 0x200, some 0x8018, none⟩) := by decide
/-- FD6: SYS_POLICY = nop. -/
theorem test_sys_nop : (run 0x0123 (withParams (fun q => { q with sysPolicy := .nop }) State.reset)).map (fun t => (t.pc, t.fault)) = some (0x202, none) := by decide

/-! ### Control transfer -/

/-- CT1. -/
theorem test_jp : (run 0x1234 State.reset).map State.pc = some 0x234 := by decide
/-- CT3. -/
theorem test_call : (runAt 0x204 0x2210 State.reset).map (fun t => (t.pc, t.stack)) = some (0x210, [0x206]) := by decide
/-- CT5: STACK_CAPACITY = 2. -/
theorem test_call_overflow : (run 0x2300 (withParams (fun q => { q with stackCapacity := 2 }) ((State.reset.push 0x202).push 0x202))).map (fun t => (t.pc, t.stack, t.fault)) = some (0x202, [0x202, 0x202], some ⟨.stackOverflow, 0x200, some 0x2300, none⟩) := by decide
/-- CT6. -/
theorem test_ret : (runAt 0x210 0x00EE (State.reset.push 0x206)).map (fun t => (t.pc, t.stack)) = some (0x206, []) := by decide
/-- CT7. -/
theorem test_ret_underflow : (runAt 0x210 0x00EE State.reset).map (fun t => (t.pc, t.stack, t.fault)) = some (0x212, [], some ⟨.stackUnderflow, 0x210, some 0x00EE, none⟩) := by decide
/-- CT8, CT9. -/
theorem test_se_imm : (runAt 0x300 0x3342 (regs [(3, 0x42)])).map State.pc = some 0x304 ∧ (runAt 0x300 0x3342 (regs [(3, 0x41)])).map State.pc = some 0x302 := by decide
/-- CT10, CT11. -/
theorem test_sne_imm : (runAt 0x300 0x4342 (regs [(3, 0x41)])).map State.pc = some 0x304 ∧ (runAt 0x300 0x4342 (regs [(3, 0x42)])).map State.pc = some 0x302 := by decide
/-- CT12, CT13. -/
theorem test_se_reg : (run 0x5010 (regs [(0, 7), (1, 7)])).map State.pc = some 0x204 ∧ (run 0x5010 (regs [(0, 7), (1, 8)])).map State.pc = some 0x202 := by decide
/-- CT15, CT16. -/
theorem test_sne_reg : (run 0x9010 (regs [(0, 1), (1, 2)])).map State.pc = some 0x204 ∧ (run 0x9010 (regs [(0, 1), (1, 1)])).map State.pc = some 0x202 := by decide
/-- CT21: no fault in this step. -/
theorem test_skip_past_the_end : (runAt 0xFFC 0x3000 State.reset).map (fun t => (t.pc, t.fault)) = some (0x1000, none) := by decide
/-- CT18: the sum is not masked. -/
theorem test_jp_v0 : (run 0xBFFF (regs [(0, 0xFF)])).map State.pc = some 0x10FE := by decide
/-- CT20: the x field names no register. -/
theorem test_jp_v0_reads_v0 : (run 0xB5FF (regs [(5, 3)])).map State.pc = some 0x5FF := by decide

/-! ### Register arithmetic and logic -/

/-- AL2. -/
theorem test_ld_imm : (run 0x6F42 (regs [])).map (seen 15) = some (some 0x42, some 0x42, 0x202) := by decide
/-- AL3: no flag. -/
theorem test_add_imm : (run 0x71FF (regs [(1, 5), (15, 0x55)])).map (seen 1) = some (some 0x04, some 0x55, 0x202) := by decide
/-- AL4: no carry. -/
theorem test_add_imm_wraps : (run 0x7001 (regs [(0, 0xFF), (15, 0x55)])).map (seen 0) = some (some 0, some 0x55, 0x202) := by decide
/-- AL5. -/
theorem test_ld_reg : (run 0x8120 (regs [(2, 0x33)])).map (seen 1) = some (some 0x33, some 0, 0x202) := by decide
/-- AL6. -/
theorem test_or_reg : (run 0x8011 (regs [(0, 0xF0), (1, 0x0F), (15, 0x55)])).map (seen 0) = some (some 0xFF, some 0x55, 0x202) := by decide
/-- AL7. -/
theorem test_and_reg : (run 0x8012 (regs [(0, 0xF3), (1, 0x3F), (15, 0x55)])).map (seen 0) = some (some 0x33, some 0x55, 0x202) := by decide
/-- AL8. -/
theorem test_xor_reg : (run 0x8013 (regs [(0, 0xFF), (1, 0x0F), (15, 0x55)])).map (seen 0) = some (some 0xF0, some 0x55, 0x202) := by decide
/-- AL10, the carry. -/
theorem test_add_reg : (run 0x8014 (regs [(0, 200), (1, 100)])).map (seen 0) = some (some 0x2C, some 1, 0x202) := by decide
/-- AL15: y = F. -/
theorem test_add_reg_reads_old_vf : (run 0x80F4 (regs [(0, 1), (15, 0xFF)])).map (seen 0) = some (some 0, some 1, 0x202) := by decide
/-- AL14: x = F under either FLAG_LAST. -/
theorem test_add_reg_to_vf : (run 0x8F14 (regs [(15, 200), (1, 100)])).map (seen 1) = some (some 100, some 1, 0x202) ∧ (run 0x8F14 (withParams (fun q => { q with flagLast := false }) (regs [(15, 200), (1, 100)]))).map (seen 1) = some (some 100, some 0x2C, 0x202) := by decide
/-- AL17. -/
theorem test_sub_reg_borrow : (run 0x8015 (regs [(0, 3), (1, 5)])).map (seen 0) = some (some 0xFE, some 0, 0x202) := by decide
/-- AL18: no borrow. -/
theorem test_sub_reg_equal : (run 0x8015 (regs [(0, 7), (1, 7)])).map (seen 0) = some (some 0, some 1, 0x202) := by decide
/-- AL22: both values of SHIFT_SRC. -/
theorem test_shr : (run 0x8016 (regs [(0, 1), (1, 0xFF)])).map (seen 0) = some (some 0, some 1, 0x202) ∧ (run 0x8016 (withParams (fun q => { q with shiftSrc := .vy }) (regs [(0, 1), (1, 0xFF)]))).map (seen 0) = some (some 0x7F, some 1, 0x202) := by decide
/-- AL26. -/
theorem test_subn : (run 0x8017 (regs [(0, 5), (1, 3)])).map (seen 0) = some (some 0xFE, some 0, 0x202) := by decide
/-- AL25. -/
theorem test_subn_no_borrow : (run 0x8017 (regs [(0, 3), (1, 5)])).map (seen 0) = some (some 0x02, some 1, 0x202) := by decide
/-- AL29. -/
theorem test_shl : (run 0x800E (regs [(0, 0x81)])).map (seen 0) = some (some 0x02, some 1, 0x202) := by decide
/-- AL30. -/
theorem test_shl_no_carry : (run 0x800E (regs [(0, 0x7F)])).map (seen 0) = some (some 0xFE, some 0, 0x202) := by decide
/-- AL33: the draw 0xA5 masked with 0x0F. -/
theorem test_rnd_masks (h : Config.randDraw 0 = 0xA5#8) : (after (exec (.rnd 3 0x0F#8) State.reset)).map (fun t => t.getV 3) =
    some (some 0x05) := by
  simp [exec, execRnd, after, State.reset, h]
/-- AL34: mask 0, whatever the draw. -/
theorem test_rnd_mask_zero : (after (exec (.rnd 3 0x00#8) State.reset)).map (fun t => t.getV 3) = some (some 0) := by
  simp [exec, execRnd, after]

/-! ### Index register and memory -/

/-- M1. -/
theorem test_ld_i : (run 0xA300 State.reset).map State.getI = some (some 0x300) := by decide
/-- M3: past 0xFFF, no flag. -/
theorem test_add_i : (run 0xF01E ((regs [(0, 1), (15, 0x55)]).setI 0xFFF)).map (fun t => (t.getI, t.getV .VF)) = some (some 0x1000, some 0x55) := by decide
/-- M4. -/
theorem test_add_i_wraps : (run 0xF01E ((regs [(0, 2)]).setI 0xFFFF)).map State.getI = some (some 0x0001) := by decide
/-- M6: the low nibble only. -/
theorem test_ld_f : (run 0xF029 (regs [(0, 0x1A)])).map State.getI = some (some 0x032) := by decide
/-- M8. -/
theorem test_ld_b : (run 0xF033 ((regs [(0, 254)]).setI 0x300)).map (fun t => (t.byte 0x300, t.byte 0x301, t.byte 0x302, t.getI)) = some (some 2, some 5, some 4, some 0x300) := by decide
/-- M14: nothing is written. -/
theorem test_ld_b_out_of_range : (run 0xF033 ((regs [(0, 123)]).setI 0xFFE)).map (fun t => (t.byte 0xFFE, t.byte 0xFFF, t.fault)) = some (some 0, some 0, some ⟨.memoryOutOfBounds, 0x200, some 0xF033, some 0x1000⟩) := by decide
/-- M16. -/
theorem test_ld_mem : (run 0xF155 ((regs [(0, 0x0B), (1, 5), (2, 9)]).setI 0x310)).map (fun t => (t.byte 0x310, t.byte 0x311, t.byte 0x312, t.getI)) = some (some 0x0B, some 5, some 0, some 0x310) := by decide
/-- M18. -/
theorem test_ld_mem_out_of_range : (run 0xFF55 ((regs [(0, 1)]).setI 0xFF1)).map (fun t => (t.byte 0xFF1, t.fault)) = some (some 0, some ⟨.memoryOutOfBounds, 0x200, some 0xFF55, some 0x1000⟩) := by decide
/-- M19. -/
theorem test_ld_from_mem : (run 0xF265 ((State.reset.setBytes 0x300 [2, 5, 4, 7]).setI 0x300)).map (fun t => (t.getV 0, t.getV 1, t.getV 2, t.getV 3, t.getI)) = some (some 2, some 5, some 4, some 0, some 0x300) := by decide
/-- M22. -/
theorem test_ld_from_mem_out_of_range : (run 0xF165 ((regs [(0, 8)]).setI 0xFFF)).map (fun t => (t.getV 0, t.getV 1, t.fault)) = some (some 8, some 0, some ⟨.memoryOutOfBounds, 0x200, some 0xF165, some 0x1000⟩) := by decide
/-- M23: INIT_STATE = unwritten. -/
theorem test_read_before_write : stop (step (place 0x200 0xF065 (bare.setI 0x300))) = some (.readBeforeWrite (.mem 0x300)) := by decide

/-! ### Framebuffer -/

/-- FB3: X = 64 is not wrapped, X = 65 is. -/
theorem test_draw_plot_alias : (run 0xD011 (((regs [(0, 60)]).setBytes 0x300 [0xFF]).setI 0x300)).map (fun t => (cells 128 t, t.getV .VF)) = some ([1, 2, 3, 60, 61, 62, 63, 64], some 0) := by decide
/-- FB18: y = F, the coordinate is read before VF is written. -/
theorem test_draw_collision : (run 0xD0F1 ((((regs [(15, 3)]).setBytes 0x300 [0x80]).setI 0x300).setFB (flipCell 192 State.reset.fb))).map (fun t => (cells 256 t, t.getV .VF)) = some ([], some 1) := by decide
/-- FB6: (100, 40) is (36, 8). -/
theorem test_draw_wraps_coordinates : (run 0xD011 (((regs [(0, 100), (1, 40)]).setBytes 0x300 [0x80]).setI 0x300)).map (fun t => t.cell (36 + 64 * 8)) = some true := by decide
/-- FB11: nothing is plotted, VF stays. -/
theorem test_draw_out : (run 0xD012 (((regs [(1, 31), (15, 9)]).setBytes 0x300 [0x80, 0x80]).setI 0x300)).map (fun t => (t.fb, t.getV .VF, t.fault)) = some (State.reset.fb, some 9, some ⟨.plotOutOfRange, 0x200, some 0xD012, none⟩) := by decide
/-- FB19: PLOT_ALIAS = fault. -/
theorem test_draw_alias_fault : (run 0xD011 (withParams (fun q => { q with plotAlias := .fault }) (((regs [(0, 60)]).setBytes 0x300 [0xFF]).setI 0x300))).map State.fault = some (some ⟨.plotOutOfRange, 0x200, some 0xD011, none⟩) := by decide
/-- FB23. -/
theorem test_draw_sprite_out_of_range : (run 0xD011 (State.reset.setI 0xFFFF)).map State.fault = some (some ⟨.memoryOutOfBounds, 0x200, some 0xD011, some 0xFFFF⟩) := by decide
/-- FB15: n = 0 reads nothing. -/
theorem test_draw_nothing : (run 0xD010 ((regs [(15, 1)]).setI 0xFFFF)).map (fun t => (t.fb, t.getV .VF, t.fault)) = some (State.reset.fb, some 0, none) := by decide
/-- FB22. -/
theorem test_cls : (run 0x00E0 ((regs [(15, 7)]).setFB (Vector.replicate 32 (BitVec.allOnes 64)))).map (fun t => (t.fb, t.getV .VF)) = some (State.reset.fb, some 7) := by decide

/-! ### Timers and keypad -/

/-- T1. -/
theorem test_ld_dt_read : (run 0xF107 (State.reset.setDT 3)).map (fun t => t.getV 1) = some (some 3) := by decide
/-- T2. -/
theorem test_ld_dt : (run 0xF015 (regs [(0, 3)])).map (fun t => (t.getDT, t.getST)) = some (some 3, some 0) := by decide
/-- T3. -/
theorem test_ld_st : (run 0xF018 (regs [(0, 1)])).map (fun t => (t.getDT, t.getST)) = some (some 0, some 1) := by decide
/-- T5: V3 is not written. -/
theorem test_ld_key : (run 0xF30A (regs [(3, 9)])).map (fun t => (t.paused, t.waitReg, t.pc, t.getV 3)) = some (true, some 3, 0x202, some 9) := by decide
/-- T11, T12. -/
theorem test_skp : (runAt 0x300 0xE29E ((regs [(2, 5)]).setKeys 0x0020)).map State.pc = some 0x304 ∧ (runAt 0x300 0xE29E (regs [(2, 5)])).map State.pc = some 0x302 := by decide
/-- T13, T14. -/
theorem test_sknp : (runAt 0x300 0xE2A1 (regs [(2, 5)])).map State.pc = some 0x304 ∧ (runAt 0x300 0xE2A1 ((regs [(2, 5)]).setKeys 0x0020)).map State.pc = some 0x302 := by decide
/-- T15: a code above 15 takes a draw. -/
theorem test_skp_high_code (h : Config.keyDraw 0 16#8 = true) :
    (after (exec (.skp 2) (State.reset.setV 2 16))).map (fun t => (t.pc, t.draws)) = some (0x202, 1) := by
  simp [exec, execSkp, withKey_eq, after, State.reset, h]

/-- T6. -/
theorem test_key_completes_wait : (after (transact (.keyDown 10) (State.reset.waitForKey 3))).map (fun t => (t.getV 3, t.paused, t.waitReg, t.keys)) = some (some 10, false, none, 0x0400) := by decide
/-- T10: still paused. -/
theorem test_key_on_halted_core : (after (transact (.keyDown 2) ((State.reset.waitForKey 3).raise .stackUnderflow 0x200 (some 0x00EE) none))).map (fun t => (t.getV 3, t.paused, t.waitReg, t.keys)) = some (some 0, true, some 3, 0x0004) := by decide
/-- T9. -/
theorem test_key_up : (after (transact (.keyUp 5) ((State.reset.waitForKey 3).setKeys 0x0021))).map (fun t => (t.paused, t.keys)) = some (true, 0x0001) := by decide
/-- T3, T4: the tick, then the tone command. -/
theorem test_cycle_end : (after (step ((State.reset.setST 2).setPhase (.cycle 0)))).map (fun t => (t.st, t.outputs)) = some (1, [.toneStart, .repaint State.reset.fb]) ∧ (after (step ((State.reset.setST 1).setPhase (.cycle 0)))).map (fun t => (t.st, t.outputs)) = some (0, [.toneStop, .repaint State.reset.fb]) := by decide
/-- T16: the timers stand, ToneStart goes out. -/
theorem test_paused_cycle : (after (cycle (((State.reset.setDT 5).setST 3).waitForKey 1))).map (fun t => (t.dt, t.st, t.outputs)) = some (5, 3, [.toneStart, .repaint State.reset.fb]) := by decide
/-- Y4. -/
theorem test_halted_core : (after (transact .cycle (State.reset.raise .unknownOpcode 0x202 (some 0) none))).map (fun t => (t.outputs, t.phase)) = some ([], .idle) := by decide
/-- Y5. -/
theorem test_reset_clears_fault : after (transact (.reset []) (State.reset.raise .unknownOpcode 0x202 (some 0) none)) = some State.reset := by decide
/-- 60_exceptions.md R310, the table of codes, and "Code 0 means no fault". -/
theorem test_fault_codes : (State.reset.faultCode, [FaultKind.unknownOpcode, .stackOverflow, .stackUnderflow, .memoryOutOfBounds, .plotOutOfRange].map fun k => (State.reset.raise k 0x200 none none).faultCode) = (0, [1, 2, 3, 4, 5]) := by decide
/-- 10_state.md R54: fault, paused and FB, of a waiting core with a cell set. -/
theorem test_status : ((State.reset.waitForKey 3).setFB (flipCell 5 State.reset.fb)).status = (none, true, flipCell 5 State.reset.fb) := by decide
/-- 70_reset_and_hazards.md R343. -/
theorem test_cycle_before_reset : refusal (step (State.beforeReset defaultParams)) = some .cycleBeforeReset := by decide

/-! ### Witnesses: a state and operands that meet the hypotheses of each statement, for each clause -/

/-- A core about to run the word w at the entry point. -/
def ready (w : Nat) : State := place 0x200 w State.reset

/-- Sixteen return addresses, as many as the stack holds. -/
def full : State := { State.reset with stack := List.replicate 16 0x202 }

/-- V0 = 200, V1 = 100, V3 = 0x42, VF = 9, I = 0xFFD. -/
def some3 : State := (regs [(0, 200), (1, 100), (3, 0x42), (15, 9)]).setI 0xFFD

theorem ready_to_run (w : Nat) : ReadyToRun (ready w) 1 := ⟨rfl, rfl, rfl⟩

theorem witness_DecodeOfEncode : (Instr.drw 1 2 15).wf = true ∧ (Instr.drw 1 2 0).wf = true := by decide
theorem witness_EncodeOfDecodedWord : decode .fault 0xD12F#16 = .instr (.drw 1 2 15) := by decide
theorem witness_DecoderAgrees : decode .fault 0xE39E#16 = .instr (.skp 3) ∧ (Instr.skp 0).row.fits 0xE39E#16 ∧
    (Instr.drw 0 0 0).row.fits 0xD12F#16 ∧ (Instr.drw 1 2 3).row.fits 0xD12F#16 :=
  ⟨by decide, (by decide : _ &&& _ = _), (by decide : _ &&& _ = _), (by decide : _ &&& _ = _)⟩
theorem witness_SubSelectors : fieldOp 0x0123#16 = 0 ∧ fieldN 0x5001#16 ≠ 0 ∧ fieldN 0x9011#16 ≠ 0 ∧
    fieldN 0x8018#16 = 8 ∧ fieldNN 0xE29F#16 = 0x9F#8 ∧ fieldNN 0xF2FF#16 = 0xFF#8 := by decide
theorem witness_FamilyZero : ∃ s : State, fieldOp 0x0123#16 = 0 ∧ 0x0123#16 ≠ 0x00E0#16 ∧ 0x0123#16 ≠ 0x00EE#16 ∧
    ReadyToRun s 1 ∧ WordAtPC s 0x0123#16 ∧ s.params.sysPolicy = .nop :=
  ⟨withParams (fun q => { q with sysPolicy := .nop }) (ready 0x0123), by decide, by decide, by decide, ⟨rfl, rfl, rfl⟩,
    ⟨by decide, 0x01, 0x23, by decide, by decide, by decide⟩, rfl⟩
theorem witness_StepRuns : ReadyToRun (ready 0x6F42) 1 ∧ WordAtPC (ready 0x6F42) 0x6F42#16 ∧
    decode (ready 0x6F42).params.sysPolicy 0x6F42#16 = .instr (.ldImm 15 0x42) :=
  ⟨ready_to_run _, ⟨by decide, 0x6F, 0x42, by decide, by decide, by decide⟩, by decide⟩
theorem witness_FetchOutOfRange : ReadyToRun ((ready 0).setPC 0xFFF) 1 ∧ 4096 ≤ ((ready 0).setPC 0xFFF).pc.toNat + 1 ∧
    ReadyToRun ((ready 0).setPC 0x1000) 1 ∧ 4096 ≤ ((ready 0).setPC 0x1000).pc.toNat + 1 :=
  ⟨⟨rfl, rfl, rfl⟩, by decide, ⟨rfl, rfl, rfl⟩, by decide⟩
theorem witness_UnknownWord : ReadyToRun (ready 0x5001) 1 ∧ WordAtPC (ready 0x5001) 0x5001#16 ∧
    decode (ready 0x5001).params.sysPolicy 0x5001#16 = .unknown :=
  ⟨ready_to_run _, ⟨by decide, 0x50, 0x01, by decide, by decide, by decide⟩, by decide⟩
theorem witness_Ret : (State.reset.push 0x206).stack = [] ++ [0x206] ∧ State.reset.stack = [] := by decide
theorem witness_Call : full.dropTop.stack.length < full.dropTop.params.stackCapacity ∧
    full.stack.length = full.params.stackCapacity := by decide
theorem witness_ReturnUndoesCall : full.dropTop.stack.length < full.dropTop.params.stackCapacity := by decide
theorem witness_SkipsOnImmediate : some3.getV 3 = some 0x42 := by decide
theorem witness_SkipsOnRegisters : (0 < 1 ∧ 1 < 16 ∧ 0 < 15 ∧ 15 < 16) ∧ some3.getV 0 = some 200 ∧ some3.getV 1 = some 100 := by decide
theorem witness_JpV0 : some3.getV 0 = some 200 := by decide
theorem witness_ImmediateLoadAndAdd : some3.getV 15 = some 9 := by decide
theorem witness_CopyAndLogic : some3.getV 0 = some 200 ∧ some3.getV 15 = some 9 := by decide
theorem witness_Add : some3.getV 15 = some 9 ∧ some3.getV 1 = some 100 := by decide
theorem witness_Subtracts : some3.getV 1 = some 100 ∧ some3.getV 15 = some 9 := by decide
theorem witness_Shifts : some3.getV (if some3.params.shiftSrc = .vx then 15 else 1) = some 9 := by decide
theorem witness_Rnd : (0#8 : Byte) = 0 := rfl
theorem witness_IndexRegisterWriters : some3.getV 1 = some 100 ∧ some3.getI = some 0xFFD := by decide
/-- I = 0xFFD is the last I that FX33 can store at, 0xFFE the first it cannot. -/
theorem witness_Bcd : some3.getV 0 = some 200 ∧ some3.getI = some 0xFFD ∧ (0xFFD#16).toNat + 2 < 4096 ∧
    (some3.setI 0xFFE).getV 0 = some 200 ∧ (some3.setI 0xFFE).getI = some 0xFFE ∧ 4096 ≤ (0xFFE#16).toNat + 2 := by decide
/-- I = 0xFFD is the last I that FX55 with x = 2 can store at, 0xFFE the first it cannot. -/
theorem witness_BlockStore : some3.getI = some 0xFFD ∧ (0xFFD#16).toNat + (2 : Reg).val < 4096 ∧
    (∀ r ≤ (2 : Reg), (some3.getV r).isSome) ∧ (some3.setI 0xFFE).getI = some 0xFFE ∧
    4096 ≤ (0xFFE#16).toNat + (2 : Reg).val := by decide
theorem witness_BlockLoad : some3.getI = some 0xFFD ∧ (0xFFD#16).toNat + (2 : Reg).val < 4096 ∧
    (∀ j ≤ 2, (some3.byte (0xFFD + j)).isSome) ∧ (some3.setI 0xFFE).getI = some 0xFFE ∧
    4096 ≤ (0xFFE#16).toNat + (2 : Reg).val := by decide
theorem witness_BlockLoadUndoesBlockStore : ∃ t u : State, some3.getI = some 0xFFD ∧ (0xFFD#16).toNat + (2 : Reg).val < 4096 ∧
    (∀ r ≤ (2 : Reg), (some3.getV r).isSome) ∧ exec (.ldMemVx 2) some3 = .next t ∧ u.getI = some 0xFFD ∧
    u.params = t.params ∧ u.mem = t.mem :=
  ⟨some3.setBytes 0xFFD [200, 100, 0], some3.setBytes 0xFFD [200, 100, 0], by decide, by decide, by decide, rfl, by decide,
    rfl, rfl⟩

/-- Sprite rows 0x80, 0x80 at I = 0x300, drawn at (V0, V1) = (0, 30), and at (0, 31), where the second row plots to OUT. -/
def sprite : State := ((State.reset.setBytes 0x300 [0x80, 0x80]).setI 0x300).setV 1 30

theorem sprite_row (r : Nat) (h : r < 2) : sprite.byte (0x300 + r) = some 0x80 := by
  rcases (by omega : r = 0 ∨ r = 1) with rfl | rfl <;> decide
theorem witness_DrawTurnsOver : (2 : Nat) ≤ 15 ∧ sprite.getV 0 = some 0 ∧ sprite.getV 1 = some 30 ∧
    sprite.getI = some 0x300 ∧ (0x300#16).toNat + 2 ≤ 4096 ∧ (∀ r < 2, sprite.byte (0x300 + r) = some 0x80) ∧
    ¬ PlotsOut .linear 0 30 2 (fun _ => 0x80) := by
  refine ⟨by decide, by decide, by decide, by decide, by decide, sprite_row, ?_⟩
  rintro ⟨r, c, hr, hc, hbit, hout⟩
  rcases (by omega : r = 0 ∨ r = 1) with rfl | rfl <;>
    rcases (by omega : c = 0 ∨ c = 1 ∨ c = 2 ∨ c = 3 ∨ c = 4 ∨ c = 5 ∨ c = 6 ∨ c = 7) with
      rfl | rfl | rfl | rfl | rfl | rfl | rfl | rfl <;> exact absurd hout (by decide)
/-- The range clause at its first faulting I, 0xFFF with two rows; the plot clause at the row below the grid. -/
theorem witness_DrawFaults : (sprite.setI 0xFFF).getI = some 0xFFF ∧ 0 < 2 ∧ 4096 ≤ (0xFFF#16).toNat + 2 - 1 ∧
    (sprite.setV 1 31).getV 1 = some 31 ∧ (sprite.setV 1 31).getI = some 0x300 ∧ (0x300#16).toNat + 2 ≤ 4096 ∧
    (∀ r < 2, (sprite.setV 1 31).byte (0x300 + r) = some 0x80) ∧ PlotsOut .linear 0 31 2 (fun _ => 0x80) :=
  ⟨by decide, by decide, by decide, by decide, by decide, by decide, sprite_row, 1, 0, by decide, by decide, by decide,
    by decide⟩
/-- Each clause of the table at the ends of its range: which land, and which are OUT (44_display.md R255, R256). -/
theorem witness_PlotIndex : plotIndex .linear 63 31 = some 2047 ∧ plotIndex .linear 64 30 = some 1984 ∧
    plotIndex .linear 65 31 = some 1985 ∧ plotIndex .linear 127 31 = some 2047 ∧ plotIndex .linear 128 30 = some 1984 ∧
    plotIndex .linear 129 30 = some 1985 ∧ plotIndex .linear 262 28 = some 1990 ∧ plotIndex .linear 0 33 = some 64 ∧
    plotIndex .linear 0 63 = some 1984 ∧ plotIndex .linear 0 32 = none ∧ plotIndex .linear 0 64 = none ∧
    plotIndex .linear 64 31 = none ∧ plotIndex .linear 192 30 = none ∧ plotIndex .linear 256 29 = none ∧
    plotIndex .fault 64 0 = none ∧ plotIndex .fault 127 31 = some 2047 ∧ plotIndex .fault 63 31 = some 2047 ∧
    plotIndex .fault 65 0 = some 1 ∧ plotIndex .fault 0 33 = some 64 ∧ plotIndex .fault 127 63 = some 2047 := by decide
theorem witness_PlotsDistinct : plotIndex .linear (60 + 4) (0 + 0) = some 64 ∧ plotIndex .linear (60 + 4) (0 + 0) = some 64 ∧
    plotIndex .fault (255 + 7) (31 + 0) = none ∧ plotIndex .fault (63 + 0) (31 + 0) = some 2047 := by decide
theorem witness_DrawingTwice : (0 : Reg) ≠ .VF ∧ (1 : Reg) ≠ .VF ∧ sprite.fault = none ∧
    (after (exec (.drw 0 1 2) sprite)).map State.fault = some none ∧
    (after (exec (.drw 0 1 2) sprite)).map (fun t => (t.fb, t.getI, t.getV 0, t.getV 1)) =
      (after (exec (.drw 0 1 2) sprite)).map (fun t => ((t.setPC 0).fb, (t.setPC 0).getI, (t.setPC 0).getV 0,
        (t.setPC 0).getV 1)) := ⟨by decide, by decide, by decide, by decide, rfl⟩
/-- The last code that is a key, and the first that is not. -/
theorem witness_KeySkips : (State.reset.setV 2 15).getV 2 = some 15 ∧ (15#8).toNat ≤ 15 ∧
    (State.reset.setV 2 16).getV 2 = some 16 ∧ 15 < (16#8).toNat := by decide
theorem witness_TimerMoves : (State.reset.setDT 3).getDT = some 3 ∧ some3.getV 3 = some 0x42 := by decide
theorem witness_OnlyNamedRegisters : exec (.ldImm 3 1) State.reset = .next (State.reset.setV 3 1) ∧
    (4 : Reg) ∉ writesV (.ldImm 3 1) := ⟨rfl, by decide⟩
theorem witness_OtherState : exec (.jp 0x234) State.reset = .next (State.reset.setPC 0x234) := rfl
/-- A clause of R26's table each: the jumps, the returns, every skip taken and not taken, a key code of 15 and of 16, and an
instruction that goes on to the next. -/
theorem witness_PcAfter : State.reset.fault = none ∧
    (exec (.jp 0x234) State.reset = .next (State.reset.setPC 0x234) ∧ (State.reset.setPC 0x234).fault = none) ∧
    (exec (.call 0x300) State.reset = .next ((State.reset.push 0x200).setPC 0x300) ∧
      ((State.reset.push 0x200).setPC 0x300).fault = none) ∧
    (exec .ret (State.reset.push 0x206) = .next (State.reset.setPC 0x206) ∧ (State.reset.push 0x206).fault = none) ∧
    (exec (.jpV0 0xFFF) (State.reset.setV 0 0xFF) = .next ((State.reset.setV 0 0xFF).setPC 0x10FE)) ∧
    (exec (.cls) State.reset = .next State.reset) := ⟨rfl, ⟨rfl, rfl⟩, ⟨rfl, rfl⟩, ⟨rfl, rfl⟩, rfl, rfl⟩
theorem witness_PcAfter_skips :
    (exec (.seImm 3 0) State.reset = .next (State.reset.setPC 0x202) ∧ exec (.seImm 3 1) State.reset = .next State.reset) ∧
    (exec (.sneImm 3 1) State.reset = .next (State.reset.setPC 0x202) ∧ exec (.sneImm 3 0) State.reset = .next State.reset) ∧
    (exec (.seReg 3 4) State.reset = .next (State.reset.setPC 0x202) ∧ exec (.seReg 0 1) some3 = .next some3) ∧
    (exec (.sneReg 0 1) some3 = .next (some3.setPC 0x202) ∧ exec (.sneReg 3 4) State.reset = .next State.reset) ∧
    some3.fault = none ∧ (some3.setPC 0x202).fault = none := ⟨⟨rfl, rfl⟩, ⟨rfl, rfl⟩, ⟨rfl, rfl⟩, ⟨rfl, rfl⟩, rfl, rfl⟩
/-- V2 = 15 with that key down, and up; V2 = 16, whatever the draw. -/
theorem witness_PcAfter_key_skips :
    (exec (.skp 2) ((State.reset.setV 2 15).setKeys 0x8000) = .next (((State.reset.setV 2 15).setKeys 0x8000).setPC 0x202) ∧
      exec (.sknp 2) ((State.reset.setV 2 15).setKeys 0x8000) = .next ((State.reset.setV 2 15).setKeys 0x8000)) ∧
    (exec (.skp 2) (State.reset.setV 2 15) = .next (State.reset.setV 2 15) ∧
      exec (.sknp 2) (State.reset.setV 2 15) = .next ((State.reset.setV 2 15).setPC 0x202)) ∧
    (exec (.skp 2) (State.reset.setV 2 16) =
        .next ((State.reset.setV 2 16).tookDraw.skipIf (Config.keyDraw 0 16#8)) ∧
      ((State.reset.setV 2 16).tookDraw.skipIf (Config.keyDraw 0 16#8)).fault = none) ∧
    (exec (.sknp 2) (State.reset.setV 2 16) =
        .next ((State.reset.setV 2 16).tookDraw.skipIf (!Config.keyDraw 0 16#8)) ∧
      ((State.reset.setV 2 16).tookDraw.skipIf (!Config.keyDraw 0 16#8)).fault = none) :=
  ⟨⟨rfl, rfl⟩, ⟨rfl, rfl⟩, ⟨rfl, by simp [State.reset]⟩, ⟨rfl, by simp [State.reset]⟩⟩
theorem witness_ExecuteFaults : full.fault = none ∧ exec (.call 0x300) full =
      .next (full.raiseIn (.call 0x300) .stackOverflow none) ∧
    (full.raiseIn (.call 0x300) .stackOverflow none).fault.isSome = true := ⟨rfl, rfl, rfl⟩
/-- Registers: FX55 with its range good, and an instruction that has no range to test; I; DT; the last byte of a sprite and of
FX65 at the last I in range; either byte of a fetch, at the last address a fetch is in range for. -/
theorem witness_ReadBeforeWrite :
    (5 ∈ readsV bare.params (.addReg 4 5) ∧ bare.getV 5 = none) ∧
    (2 ∈ readsV bare.params (.ldMemVx 2) ∧ (bare.setI 0xFFD).getV 2 = none ∧ (bare.setI 0xFFD).getI = some 0xFFD ∧
      (0xFFD#16).toNat + (2 : Reg).val < 4096) ∧
    ([Instr.drw 0 1 2, .addIVx 0, .ldBVx 0, .ldMemVx 0, .ldVxMem 0].all readsI = true ∧ bare.getI = none) ∧
    bare.getDT = none ∧
    ((bare.setI 0xFFE).getI = some 0xFFE ∧ (0xFFE#16).toNat + bytesRead (.drw 0 1 2) ≤ 4096 ∧ 1 < bytesRead (.drw 0 1 2) ∧
      (bare.setI 0xFFE).byte (0xFFE + 1) = none) ∧
    ((0xFFE#16).toNat + bytesRead (.ldVxMem 1) ≤ 4096 ∧ 1 < bytesRead (.ldVxMem 1)) := by decide
theorem witness_ReadBeforeWrite_fetch :
    ReadyToRun ((bare.setPC 0xFFE).setPhase (.cycle 2)) 1 ∧ ((bare.setPC 0xFFE).setPhase (.cycle 2)).pc.toNat + 1 < 4096 ∧
    ((bare.setPC 0xFFE).setPhase (.cycle 2)).byte 0xFFE = none ∧
    ReadyToRun (((bare.setPC 0xFFE).setBytes 0xFFE [1]).setPhase (.cycle 2)) 1 ∧
    (((bare.setPC 0xFFE).setBytes 0xFFE [1]).setPhase (.cycle 2)).byte 0xFFE = some 1 ∧
    (((bare.setPC 0xFFE).setBytes 0xFFE [1]).setPhase (.cycle 2)).byte (0xFFE + 1) = none :=
  ⟨⟨rfl, rfl, rfl⟩, by decide, by decide, ⟨rfl, rfl, rfl⟩, by decide, by decide⟩
theorem witness_MachineStops : State.reset.params.initState = .zero ∧ State.reset.unwritten = [] := by decide
theorem witness_StepsOfACycle : State.reset.phase = .idle ∧ State.reset.inbox = [] ∧
    ({ State.reset with inbox := [.cycle, .keyDown 4] } : State).inbox = .cycle :: [.keyDown 4] := by decide
theorem witness_PausedIteration : ((State.reset.waitForKey 3).setPhase (.cycle (0 + 1))).phase = .cycle (0 + 1) ∧
    ((State.reset.waitForKey 3).setPhase (.cycle (0 + 1))).paused = true ∧
    ((State.reset.waitForKey 3).setPhase (.cycle (0 + 1))).fault = none := by decide
theorem witness_CycleEnd : (State.reset.setPhase (.cycle 0)).phase = .cycle 0 ∧ (State.reset.setPhase (.cycle 0)).fault = none ∧
    ((State.reset.waitForKey 3).setPhase (.cycle 0)).paused = true := by decide
theorem witness_PausedCycle : (State.reset.waitForKey 3).phase = .idle ∧ (State.reset.waitForKey 3).paused = true ∧
    (State.reset.waitForKey 3).fault = none := by decide
theorem witness_SpeedZero : (withParams (fun q => { q with speed := 0 }) State.reset).params.speed = 0 ∧
    (withParams (fun q => { q with speed := 0 }) State.reset).phase = .idle ∧
    (withParams (fun q => { q with speed := 0 }) State.reset).fault = none := by decide
theorem witness_HaltedCore : (State.reset.raise .stackUnderflow 0x200 none none).fault.isSome = true ∧
    (State.reset.raise .stackUnderflow 0x200 none none).phase = .idle ∧ ([] : List Byte).length ≤ 3584 := by decide
theorem witness_HaltedCore_keeps : (∀ program, Transaction.keyDown 5 ≠ .reset program) ∧
    transact (.keyDown 5) (State.reset.raise .stackUnderflow 0x200 none none) =
      .next ((State.reset.raise .stackUnderflow 0x200 none none).keyLevelUp 5) := ⟨nofun, rfl⟩
/-- CT2: a jump to itself at 0x200, within a cycle and between cycles. -/
theorem witness_IdleState : IdleState (ready 0x1200) ∧ (ready 0x1200).phase = .cycle (1 + 1) ∧
    IdleState ((ready 0x1200).setPhase .idle) ∧ ((ready 0x1200).setPhase .idle).phase = .idle :=
  ⟨⟨rfl, rfl, by decide, 0x12, 0x00, by decide, by decide, by decide⟩, rfl,
    ⟨rfl, rfl, by decide, 0x12, 0x00, by decide, by decide, by decide⟩, rfl⟩
theorem witness_KeyDown : (State.reset.waitForKey 3).fault = none ∧ (State.reset.waitForKey 3).paused = true ∧
    (State.reset.waitForKey 3).waitReg = some 3 ∧ (4 : Reg) ≠ 3 ∧ State.reset.paused = false ∧
    (State.reset.raise .stackUnderflow 0x200 none none).fault ≠ none := by decide
theorem witness_OtherKeyEvents : (State.reset.waitForKey 3).fault = none ∧ (State.reset.waitForKey 3).paused = true ∧
    (State.reset.waitForKey 3).waitReg = some 3 := by decide
theorem witness_OldestTransactionIsTaken :
    ({ State.reset with inbox := [.keyUp 4, .cycle] } : State).phase = .idle ∧
    ({ State.reset with inbox := [.keyUp 4, .cycle] } : State).inbox = .keyUp 4 :: [.cycle] ∧
    ({ State.beforeReset defaultParams with inbox := [.reset [1]] } : State).phase = .awaitingReset ∧
    ({ State.beforeReset defaultParams with inbox := [.reset [1]] } : State).inbox = .reset [1] :: [] := by decide
theorem witness_NoTransactionWithinCycle : (State.reset.setPhase (.cycle 0)).phase = .cycle 0 ∧
    step (State.reset.setPhase (.cycle 0)) = .next (State.reset.setPhase (.cycle 0)).endCycle := ⟨rfl, rfl⟩
/-- The longest program, and addresses at the ends of what a one-byte program leaves. -/
theorem witness_ResetLeaves : (List.replicate 3584 (0 : Byte)).length ≤ 3584 ∧ State.reset.params.initState = .zero ∧
    bare.params.initState = .unwritten ∧ (80 ≤ 80 ∧ 80 < 0x200) ∧ (0x200 + [(7 : Byte)].length ≤ 0x201 ∧ 0xFFF < 4096) ∧
    0 < [(7 : Byte)].length := by
  rw [List.length_replicate]; decide
theorem witness_Refused : 3584 < (List.replicate 3585 (0 : Byte)).length ∧
    (State.beforeReset defaultParams).phase = .awaitingReset := by
  rw [List.length_replicate]; decide
theorem witness_ResetState : 80 ≤ 80 ∧ 80 < 4096 ∧ 80 ≤ 4095 ∧ 4095 < 4096 := by decide
theorem witness_EveryStepKeepsTheInvariant : MachineInv State.reset ∧ step State.reset = .next State.reset.startCycle :=
  ⟨⟨rfl, rfl, by decide, by simp [State.reset], by decide, by simp [State.reset], fun _ => rfl, by simp [State.reset]⟩, rfl⟩
theorem witness_ParametersNeverChange : step State.reset = .next State.reset.startCycle := rfl
theorem witness_RegistersAreSeparateCells : State.reset.getV 7 = some 0 ∧ (3 : Reg) ≠ 7 := by decide
/-- PC = I = 0xFFE: FX55 with x = 1 stores the whole next word, at the last I it can store at. -/
def storesNext : State := ((ready 0).setI 0xFFE).setPC 0xFFE

/-- PC = 0xFFC, I = 0xFFD, V3 = 254: FX33 stores over the second byte of the next word only. -/
def storesHalf : State := (((ready 0).setI 0xFFD).setPC 0xFFC).setV 3 254

theorem witness_FetchSeesTheStoreBefore :
    ReadyToRun storesNext 1 ∧ storesNext.getI = some 0xFFE ∧ storesNext.pc.toNat + 1 < 4096 ∧
    (0xFFE#16).toNat + (1 : Reg).val < 4096 ∧ (∀ r ≤ (1 : Reg), (storesNext.getV r).isSome) ∧
    byteAfterStore 0xFFE 2 (fun j => storesNext.getV (Fin.ofNat 16 j)) storesNext 0xFFE = some 0 ∧
    byteAfterStore 0xFFE 2 (fun j => storesNext.getV (Fin.ofNat 16 j)) storesNext (0xFFE + 1) = some 0 :=
  ⟨⟨rfl, rfl, rfl⟩, by decide, by decide, by decide, by decide, by decide, by decide⟩
theorem witness_FetchSeesTheStoreBefore_half :
    ReadyToRun storesHalf 1 ∧ storesHalf.getI = some 0xFFD ∧ storesHalf.pc.toNat + 1 < 4096 ∧ (0xFFD#16).toNat + 2 < 4096 ∧
    storesHalf.getV 3 = some 254 ∧
    byteAfterStore 0xFFD 3 (fun j => some (BitVec.ofNat 8 (254 / 10 ^ (2 - j) % 10))) storesHalf 0xFFC = some 0 ∧
    byteAfterStore 0xFFD 3 (fun j => some (BitVec.ofNat 8 (254 / 10 ^ (2 - j) % 10))) storesHalf (0xFFC + 1) = some 2 :=
  ⟨⟨rfl, rfl, rfl⟩, by decide, by decide, by decide, by decide, by decide, by decide⟩


end Sys2Proof.Tests
end

section
/-! SUPPORT. The proofs of the statements about the state (spec/10_state.md): the invariant of the machine, the frame of an
instruction, PC after each, reads of what holds no value, and the reset. -/

namespace Sys2Proof.Machine

/-! ### The operations that keep the machine invariant -/

/-- A record of MemoryOutOfBounds with an address out of range is well shaped, with or without a word (R310). -/
theorem recordOk_memoryOutOfBounds {p : Word} {o : Option Word} {a : Nat} (h : memSize ≤ a) :
    RecordOk ⟨.memoryOutOfBounds, p, o, some a⟩ :=
  ⟨by simp, fun _ ha => Option.some.inj ha ▸ h, fun _ => rfl⟩

/-- A record of another kind is well shaped when it has a word and no address (R310). -/
theorem recordOk_of_word {k : FaultKind} {p w : Word} (h : k ≠ .memoryOutOfBounds) : RecordOk ⟨k, p, some w, none⟩ :=
  ⟨by simp [h], by simp, by simp⟩

/-- What an instruction can raise gives a well-shaped record. -/
theorem MayRaise.recordOk {i : Instr} {s : State} {k : FaultKind} {a : Option Nat} (h : MayRaise i s k a) (p w : Word) :
    RecordOk ⟨k, p, some w, a⟩ := by
  cases i with
  | ret | call =>
    obtain ⟨-, rfl, rfl⟩ := h
    exact recordOk_of_word (by decide)
  | drw =>
    rcases h with ⟨rfl, b, rfl, hb⟩ | ⟨rfl, rfl⟩
    · exact recordOk_memoryOutOfBounds hb
    · exact recordOk_of_word (by decide)
  | ldBVx | ldMemVx | ldVxMem =>
    obtain ⟨rfl, b, rfl, hb⟩ := h
    exact recordOk_memoryOutOfBounds hb
  | _ => exact h.elim

theorem programWf_iff {program : List Byte} : programWf program = true ↔ program.length ≤ 3584 := decide_eq_true_iff

theorem toNat_add_two_le {w : Word} {m : Nat} (h : w.toNat ≤ m) : (w + 2).toNat ≤ m + 2 := by
  rw [BitVec.toNat_add]
  exact (Nat.mod_le _ _).trans (Nat.add_le_add_right h 2)

namespace MachineInv

variable {s : State}

theorem setV (h : MachineInv s) (x : Reg) (b : Byte) : MachineInv (s.setV x b) :=
  ⟨h.mem, h.keyWait, h.depth, h.returns, h.pc, h.phase, fun hz => by simp [h.unwritten hz], h.record⟩

theorem setVs (h : MachineInv s) (l : List (Reg × Byte)) : MachineInv (s.setVs l) := by
  induction l generalizing s with
  | nil => exact h
  | cons p l ih => exact ih (h.setV p.1 p.2)

theorem writeResultAndFlag (h : MachineInv s) (x : Reg) (r f : Byte) :
    MachineInv (Machine.writeResultAndFlag x r f s) := by
  unfold Machine.writeResultAndFlag
  split
  · exact (h.setV x r).setV .VF f
  · exact (h.setV .VF f).setV x r

theorem setI (h : MachineInv s) (w : Word) : MachineInv (s.setI w) :=
  ⟨h.mem, h.keyWait, h.depth, h.returns, h.pc, h.phase, fun hz => by simp [h.unwritten hz], h.record⟩

theorem setDT (h : MachineInv s) (b : Byte) : MachineInv (s.setDT b) :=
  ⟨h.mem, h.keyWait, h.depth, h.returns, h.pc, h.phase, fun hz => by simp [h.unwritten hz], h.record⟩

theorem setST (h : MachineInv s) (b : Byte) : MachineInv (s.setST b) :=
  ⟨h.mem, h.keyWait, h.depth, h.returns, h.pc, h.phase, fun hz => by simp [h.unwritten hz], h.record⟩

/-- Stores in range keep memory canonical. -/
theorem setBytes (h : MachineInv s) {a : Nat} {bs : List Byte} (ha : a + bs.length ≤ memSize) :
    MachineInv (s.setBytes a bs) :=
  { h with mem := Memory.wf_setAll bs ha h.mem }

theorem setPC (h : MachineInv s) {w : Word} (hw : w.toNat ≤ 0x10FE) : MachineInv (s.setPC w) :=
  { h with pc := hw }

theorem advance (h : MachineInv s) (hpc : s.pc.toNat + 2 ≤ 0x10FE) : MachineInv s.advance :=
  { h with pc := (toNat_add_two_le le_rfl).trans hpc }

theorem skipIf (h : MachineInv s) (hpc : s.pc.toNat + 2 ≤ 0x10FE) (c : Bool) : MachineInv (s.skipIf c) := by
  cases c with
  | false => exact h
  | true => exact h.advance hpc

/-- A push within the capacity, of an address a CALL can return to (R28, R30, R150). -/
theorem push (h : MachineInv s) {w : Word} (hd : s.stack.length < s.params.stackCapacity) (hw : w.toNat ≤ 0x1000) :
    MachineInv (s.push w) where
  __ := h
  depth := by simpa using hd
  returns a ha := by
    rcases List.mem_append.mp ha with ha | ha
    · exact h.returns a ha
    · exact List.mem_singleton.mp ha ▸ hw

theorem dropTop (h : MachineInv s) : MachineInv s.dropTop where
  __ := h
  depth := (by simp : s.stack.dropLast.length ≤ s.stack.length).trans h.depth
  returns a ha := h.returns a (List.mem_of_mem_dropLast ha)

theorem tookDraw (h : MachineInv s) : MachineInv s.tookDraw := { h with }

theorem setFB (h : MachineInv s) (f : FrameBuffer) : MachineInv (s.setFB f) := { h with }

theorem setKeys (h : MachineInv s) (ks : BitVec 16) : MachineInv (s.setKeys ks) := { h with }

theorem setOutputs (h : MachineInv s) (o : List Output) : MachineInv (s.setOutputs o) := { h with }

theorem setInbox (h : MachineInv s) (l : List Transaction) : MachineInv { s with inbox := l } := { h with }

theorem waitForKey (h : MachineInv s) (x : Reg) : MachineInv (s.waitForKey x) := { h with keyWait := rfl }

theorem endWait (h : MachineInv s) : MachineInv s.endWait := { h with keyWait := rfl }

theorem tick (h : MachineInv s) : MachineInv s.tick := by
  rw [tick_rest]
  exact { h with }

theorem setPhase_idle (h : MachineInv s) : MachineInv (s.setPhase .idle) := { h with phase := fun _ hn => nomatch hn }

theorem setPhase_cycle (h : MachineInv s) {n : Nat} (hn : n ≤ s.params.speed) (hf : s.fault = none) :
    MachineInv (s.setPhase (.cycle n)) :=
  { h with phase := fun _ hm => Phase.cycle.inj hm ▸ ⟨hn, hf⟩ }

/-- Taking a fault with a well-shaped record ends the cycle (R312). -/
theorem raise (h : MachineInv s) {k : FaultKind} {p : Word} {o : Option Word} {a : Option Nat} (hr : RecordOk ⟨k, p, o, a⟩) :
    MachineInv (s.raise k p o a) :=
  { h with phase := fun _ hn => (nomatch hn), record := fun _ he => Option.some.inj he ▸ hr }

theorem raiseIn (h : MachineInv s) {i : Instr} {k : FaultKind} {a : Option Nat} (hm : MayRaise i s k a) :
    MachineInv (s.raiseIn i k a) :=
  h.raise (hm.recordOk _ _)

theorem endCycle (h : MachineInv s) : MachineInv s.endCycle := (h.tick.setOutputs _).setPhase_idle

theorem startCycle (h : MachineInv s) (hf : s.fault = none) : MachineInv s.startCycle :=
  (h.setOutputs []).setPhase_cycle le_rfl hf

theorem keyLevelUp (h : MachineInv s) (k : Key) : MachineInv (s.keyLevelUp k) := (h.setKeys _).setOutputs []

theorem keyUp (h : MachineInv s) (k : Key) : MachineInv (s.keyUp k) := (h.setKeys _).setOutputs []

theorem keyDown (h : MachineInv s) (k : Key) : MachineInv (s.keyDown k) := by
  rcases keyDown_cases k s with he | ⟨-, -, ⟨x, -, he⟩ | ⟨-, he⟩⟩ <;> rw [he]
  · exact h.keyLevelUp k
  · exact ((h.keyLevelUp k).setV x _).endWait
  · exact (h.keyLevelUp k).endWait

/-- A reset with a program that fits establishes the invariant, whatever the core held (R340). -/
theorem afterReset {program : List Byte} (hw : programWf program = true) (s : State) :
    MachineInv (s.afterReset program) where
  mem := by
    have hlen : program.length ≤ 3584 := programWf_iff.mp hw
    exact Memory.wf_setAll program (by simp only [progBase, memSize]; omega) (Memory.wf_nil _)
  keyWait := rfl
  depth := Nat.zero_le _
  returns _ ha := nomatch ha
  pc := (by decide : (0x200#16).toNat ≤ 0x10FE)
  phase _ hn := nomatch hn
  unwritten hz := by
    have hz : s.params.initState = .zero := hz
    simp [State.afterReset, State.unwrittenAtReset, hz]
  record _ hr := nomatch hr

end MachineInv

/-! ### The instructions keep the machine invariant -/

theorem length_of_map_fst_eq_regsUpTo {x : Reg} {l : List (Reg × Byte)} (h : l.map Prod.fst = regsUpTo x) :
    l.length = x.val + 1 := by
  rw [← length_regsUpTo x, ← h, List.length_map]

theorem toNat_setWidth_addr (nnn : Addr) : (nnn.setWidth 16).toNat = nnn.toNat := by
  rw [BitVec.toNat_setWidth]
  omega

/-- The target of BNNN is the exact sum: it does not reach 2^16 (R157). -/
theorem toNat_jumpV0Target (nnn : Addr) (a : Byte) :
    (nnn.setWidth 16 + a.setWidth 16).toNat = nnn.toNat + a.toNat := by
  have := nnn.isLt
  have := a.isLt
  rw [BitVec.toNat_add, BitVec.toNat_setWidth, BitVec.toNat_setWidth]
  omega

/-- An instruction whose PC is A + 2 for a fetch in range (R90, R122) keeps the invariant when it completes. -/
theorem Completes.machineInv {i : Instr} {s t : State} (hc : Completes i s t) (h : MachineInv s)
    (hpc : s.pc.toNat ≤ 0x1000) : MachineInv t := by
  cases i with
  | cls => obtain rfl := hc; exact h.setFB _
  | ret =>
    obtain ⟨a, ha, rfl⟩ := hc
    have : a.toNat ≤ 0x1000 := h.returns a (List.mem_of_getLast? ha)
    exact h.dropTop.setPC (by omega)
  | jp nnn =>
    obtain rfl := hc
    exact h.setPC (by rw [toNat_setWidth_addr]; omega)
  | call nnn =>
    obtain ⟨hd, rfl⟩ := hc
    exact (h.push hd hpc).setPC (by rw [toNat_setWidth_addr]; omega)
  | jpV0 nnn =>
    obtain ⟨a, -, rfl⟩ := hc
    exact h.setPC (by rw [toNat_jumpV0Target]; omega)
  | seImm | sneImm => obtain ⟨a, -, rfl⟩ := hc; exact h.skipIf (by omega) _
  | seReg | sneReg => obtain ⟨a, b, -, -, rfl⟩ := hc; exact h.skipIf (by omega) _
  | skp | sknp =>
    obtain ⟨a, -, ⟨-, rfl⟩ | ⟨-, rfl⟩⟩ := hc
    · exact h.skipIf (by omega) _
    · exact h.tookDraw.skipIf (by simp; omega) _
  | ldImm => obtain rfl := hc; exact h.setV _ _
  | addImm | ldReg | ldVxDT => obtain ⟨a, -, rfl⟩ := hc; exact h.setV _ _
  | orReg | andReg | xorReg => obtain ⟨a, b, -, -, rfl⟩ := hc; exact h.setV _ _
  | addReg | subReg | subn => obtain ⟨a, b, -, -, rfl⟩ := hc; exact h.writeResultAndFlag _ _ _
  | shr | shl => obtain ⟨v, -, rfl⟩ := hc; exact h.writeResultAndFlag _ _ _
  | rnd => obtain rfl := hc; exact h.tookDraw.setV _ _
  | drw => obtain ⟨_, _, _, _, _, _, _, _, _, _, _, rfl⟩ := hc; exact (h.setV _ _).setFB _
  | ldVxK => obtain rfl := hc; exact h.waitForKey _
  | ldDTVx => obtain ⟨a, -, rfl⟩ := hc; exact h.setDT _
  | ldSTVx => obtain ⟨a, -, rfl⟩ := hc; exact h.setST _
  | ldI => obtain rfl := hc; exact h.setI _
  | addIVx => obtain ⟨a, w, -, -, rfl⟩ := hc; exact h.setI _
  | ldFVx => obtain ⟨a, -, rfl⟩ := hc; exact h.setI _
  | ldBVx => obtain ⟨a, w, -, -, hr, rfl⟩ := hc; exact h.setBytes hr
  | ldMemVx x =>
    obtain ⟨w, l, -, hr, hl, -, rfl⟩ := hc
    have hlen := length_of_map_fst_eq_regsUpTo hl
    exact h.setBytes (by rwa [List.length_map, hlen])
  | ldVxMem => obtain ⟨w, bs, -, -, -, -, rfl⟩ := hc; exact h.setVs _

theorem exec_machineInv {i : Instr} {s t : State} (he : exec i s = .next t) (h : MachineInv s)
    (hpc : s.pc.toNat ≤ 0x1000) : MachineInv t := by
  rcases exec_next he with hc | ⟨k, a, hm, rfl⟩
  · exact hc.machineInv h hpc
  · exact h.raiseIn hm

/-! ### O57, O56: the invariant of the machine -/

theorem iteration_machineInv {n : Nat} {s t : State} (hi : iteration n s = .next t) (h : MachineInv s)
    (hn : n ≤ s.params.speed) (hf : s.fault = none) : MachineInv t := by
  have h' : MachineInv (s.setPhase (.cycle n)) := h.setPhase_cycle hn hf
  rcases iteration_next hi with ⟨-, rfl⟩ | ⟨-, ⟨hr, rfl⟩ | ⟨hr, w, hrun⟩⟩
  · exact h'
  · exact h'.raise (recordOk_memoryOutOfBounds (le_fetchFaultAddr hr))
  · have hpc : s.pc.toNat + 2 ≤ 0x1000 := by simp only [memSize] at hr; omega
    have hadv : MachineInv (s.setPhase (.cycle n)).advance := h'.advance (by simp; omega)
    rcases hrun with ⟨i, -, he⟩ | rfl | rfl
    · exact exec_machineInv he hadv ((toNat_add_two_le le_rfl).trans hpc)
    · exact hadv
    · exact hadv.raise (recordOk_of_word (by decide))

theorem fault_eq_none_of_not_halted {s : State} (h : s.halted = false) : s.fault = none := by
  simpa [State.halted] using h

theorem transact_machineInv {x : Transaction} {s t : State} (hx : transact x s = .next t) (h : MachineInv s) :
    MachineInv t := by
  rcases transact_next hx with ⟨program, -, hw, rfl⟩ | ⟨-, -, ⟨-, rfl⟩ | ⟨hh, rfl⟩⟩ | ⟨k, -, rfl⟩ | ⟨k, -, rfl⟩
  · exact .afterReset hw s
  · exact h.setOutputs []
  · exact h.startCycle (fault_eq_none_of_not_halted hh)
  · exact h.keyDown k
  · exact h.keyUp k

/-- Settles O57: each thing a step can do, a transaction, an iteration or the end of a cycle, keeps the invariant. -/
theorem everyStepKeepsTheInvariant : Obligations.EveryStepKeepsTheInvariant := by
  unfold Obligations.EveryStepKeepsTheInvariant
  intro s t h hs
  rcases step_next hs with ⟨-, ht⟩ | ⟨n, -, -, rfl⟩ | ⟨-, -, rfl⟩ | ⟨n, hp, -, hi⟩
  · obtain ⟨x, rest, hx⟩ := takeTransaction_next ht
    exact transact_machineInv hx (h.setInbox rest)
  · exact h.setPhase_idle
  · exact h.endCycle
  · obtain ⟨hn, hf⟩ := h.phase _ hp
    exact iteration_machineInv hi h (by omega) hf

/-- State.reset is what Reset with the empty program leaves of it (R340; log entry 10). -/
theorem afterReset_nil_reset : State.reset.afterReset [] = State.reset := rfl

/-- Settles O56: State.reset is a state right after a reset, and every such state meets the invariant. -/
theorem invariantHoldsAtReset : Obligations.InvariantHoldsAtReset := by
  unfold Obligations.InvariantHoldsAtReset
  rw [← afterReset_nil_reset]
  exact .afterReset rfl State.reset

/-! ### The frame of each operation (R127) -/

namespace SameOutside

variable {ps qs : List Part} {s t u : State}

/-- A frame holds with more parts listed. -/
theorem mono (h : SameOutside ps s t) (hsub : ps ⊆ qs) : SameOutside qs s t where
  v x hx := h.v x fun hm => hx (hsub hm)
  i hx := h.i fun hm => hx (hsub hm)
  dt hx := h.dt fun hm => hx (hsub hm)
  st hx := h.st fun hm => hx (hsub hm)
  pc hx := h.pc fun hm => hx (hsub hm)
  stack hx := h.stack fun hm => hx (hsub hm)
  fb hx := h.fb fun hm => hx (hsub hm)
  keyWait hx := h.keyWait fun hm => hx (hsub hm)
  byte a hx := h.byte a fun hm => hx (hsub hm)
  draws hx := h.draws fun hm => hx (hsub hm)
  fault := h.fault
  phase := h.phase
  params := h.params
  keys := h.keys
  inbox := h.inbox
  outputs := h.outputs

/-- One update after another changes at most what either changes. -/
theorem trans (h : SameOutside ps s t) (h' : SameOutside qs t u) : SameOutside (ps ++ qs) s u := by
  have h := h.mono (List.subset_append_left ps qs)
  have h' := h'.mono (List.subset_append_right ps qs)
  constructor
  case v => exact fun x hx => (h'.v x hx).trans (h.v x hx)
  case byte => exact fun a hx => (h'.byte a hx).trans (h.byte a hx)
  case dt => exact fun hx => ⟨(h'.dt hx).1.trans (h.dt hx).1, (h'.dt hx).2.trans (h.dt hx).2⟩
  case st => exact fun hx => ⟨(h'.st hx).1.trans (h.st hx).1, (h'.st hx).2.trans (h.st hx).2⟩
  case keyWait => exact fun hx => ⟨(h'.keyWait hx).1.trans (h.keyWait hx).1, (h'.keyWait hx).2.trans (h.keyWait hx).2⟩
  case i => exact fun hx => (h'.i hx).trans (h.i hx)
  case pc => exact fun hx => (h'.pc hx).trans (h.pc hx)
  case stack => exact fun hx => (h'.stack hx).trans (h.stack hx)
  case fb => exact fun hx => (h'.fb hx).trans (h.fb hx)
  case draws => exact fun hx => (h'.draws hx).trans (h.draws hx)
  case fault => exact h'.fault.trans h.fault
  case phase => exact h'.phase.trans h.phase
  case params => exact h'.params.trans h.params
  case keys => exact h'.keys.trans h.keys
  case inbox => exact h'.inbox.trans h.inbox
  case outputs => exact h'.outputs.trans h.outputs

theorem setV (s : State) (x : Reg) (b : Byte) : SameOutside [.v x] s (s.setV x b) := by
  constructor <;> simp +contextual

theorem setI (s : State) (w : Word) : SameOutside [.i] s (s.setI w) := by
  constructor <;> simp

theorem setDT (s : State) (b : Byte) : SameOutside [.dt] s (s.setDT b) := by
  constructor <;> simp

theorem setST (s : State) (b : Byte) : SameOutside [.st] s (s.setST b) := by
  constructor <;> simp

theorem setPC (s : State) (w : Word) : SameOutside [.pc] s (s.setPC w) := by
  constructor <;> simp

theorem skipIf (s : State) (c : Bool) : SameOutside [.pc] s (s.skipIf c) := by
  constructor <;> simp

theorem push (s : State) (w : Word) : SameOutside [.stack] s (s.push w) := by
  constructor <;> simp

theorem dropTop (s : State) : SameOutside [.stack] s s.dropTop := by
  constructor <;> simp

theorem tookDraw (s : State) : SameOutside [.draws] s s.tookDraw := by
  constructor <;> simp

theorem setFB (s : State) (f : FrameBuffer) : SameOutside [.fb] s (s.setFB f) := by
  constructor <;> simp

theorem waitForKey (s : State) (x : Reg) : SameOutside [.keyWait] s (s.waitForKey x) := by
  constructor <;> simp

/-- Several registers written: only the named ones change. -/
theorem setVs (s : State) (l : List (Reg × Byte)) : SameOutside ((l.map Prod.fst).map .v) s (s.setVs l) := by
  constructor
  case v => exact fun x hx => State.getV_setVs_of_not_mem l s x fun hm => hx (List.mem_map_of_mem hm)
  all_goals simp

/-- The result and the flag: only Vx and VF change (R128). -/
theorem writeResultAndFlag (s : State) (x : Reg) (r f : Byte) :
    SameOutside [.v x, .v .VF] s (Machine.writeResultAndFlag x r f s) := by
  constructor
  case v =>
    intro y hy
    have hyx : y ≠ x ∧ y ≠ .VF := by simpa using hy
    simp [getV_writeResultAndFlag, hyx]
  all_goals simp

end SameOutside

/-- The parts of n bytes from `base` on. -/
def bytesFrom (base n : Nat) : List Part := (List.range n).map fun j => .byte (base + j)

theorem mem_bytesFrom {base n a : Nat} : Part.byte a ∈ bytesFrom base n ↔ base ≤ a ∧ a < base + n := by
  simp only [bytesFrom, List.mem_map, List.mem_range, Part.byte.injEq]
  exact ⟨fun ⟨j, hj, he⟩ => by omega, fun h => ⟨a - base, by omega, by omega⟩⟩

/-- Bytes stored from `base` on: only those bytes change. -/
theorem SameOutside.setBytes (s : State) (base : Nat) (bs : List Byte) :
    SameOutside (bytesFrom base bs.length) s (s.setBytes base bs) := by
  constructor
  case byte => exact fun a ha => by rw [State.byte_setBytes, if_neg (mt mem_bytesFrom.mpr ha)]
  all_goals simp

/-! ### The frame of each instruction -/

/-- What an instruction may write besides the general registers of `writesV` (R29 to R34, R61). The bytes of FX33 and FX55
are those from I on. -/
def otherWrites (s : State) : Instr → List Part
  | .jp _ | .jpV0 _ | .seImm _ _ | .sneImm _ _ | .seReg _ _ | .sneReg _ _ => [.pc]
  | .skp _ | .sknp _ => [.draws, .pc]
  | .ret | .call _ => [.stack, .pc]
  | .cls | .drw _ _ _ => [.fb]
  | .ldI _ | .addIVx _ | .ldFVx _ => [.i]
  | .ldDTVx _ => [.dt]
  | .ldSTVx _ => [.st]
  | .ldVxK _ => [.keyWait]
  | .rnd _ _ => [.draws]
  | .ldBVx _ => bytesFrom s.i.toNat 3
  | .ldMemVx x => bytesFrom s.i.toNat (x.val + 1)
  | .ldImm _ _ | .addImm _ _ | .ldReg _ _ | .orReg _ _ | .andReg _ _ | .xorReg _ _ | .addReg _ _ | .subReg _ _ | .shr _ _
  | .subn _ _ | .shl _ _ | .ldVxDT _ | .ldVxMem _ => []

/-- All that an instruction may write. -/
def partsWritten (s : State) (i : Instr) : List Part := (writesV i).map .v ++ otherWrites s i

theorem v_mem_partsWritten {s : State} {i : Instr} {r : Reg} (h : Part.v r ∈ partsWritten s i) : r ∈ writesV i := by
  have hother : Part.v r ∉ otherWrites s i := by cases i <;> simp [otherWrites, bytesFrom]
  simpa [partsWritten, hother] using h

theorem State.eq_i_of_getI {s : State} {w : Word} (h : s.getI = some w) : w = s.i := by
  unfold State.getI at h
  split at h
  · cases h
  · exact (Option.some.inj h).symm

/-- The frame rule (R127): an instruction that completes changes at most the parts of `partsWritten`. -/
theorem Completes.sameOutside {i : Instr} {s t : State} (h : Completes i s t) : SameOutside (partsWritten s i) s t := by
  cases i with
  | cls => obtain rfl := h; exact .setFB ..
  | ret => obtain ⟨a, -, rfl⟩ := h; exact (SameOutside.dropTop s).trans (.setPC ..)
  | jp => obtain rfl := h; exact .setPC ..
  | call => obtain ⟨-, rfl⟩ := h; exact (SameOutside.push ..).trans (.setPC ..)
  | seImm | sneImm => obtain ⟨a, -, rfl⟩ := h; exact .skipIf ..
  | seReg | sneReg => obtain ⟨a, b, -, -, rfl⟩ := h; exact .skipIf ..
  | ldImm => obtain rfl := h; exact .setV ..
  | addImm | ldReg | ldVxDT => obtain ⟨a, -, rfl⟩ := h; exact .setV ..
  | orReg | andReg | xorReg => obtain ⟨a, b, -, -, rfl⟩ := h; exact .setV ..
  | addReg | subReg | subn => obtain ⟨a, b, -, -, rfl⟩ := h; exact .writeResultAndFlag ..
  | shr | shl => obtain ⟨v, -, rfl⟩ := h; exact .writeResultAndFlag ..
  | ldI => obtain rfl := h; exact .setI ..
  | jpV0 => obtain ⟨a, -, rfl⟩ := h; exact .setPC ..
  | rnd =>
    obtain rfl := h
    exact ((SameOutside.tookDraw s).trans (.setV ..)).mono (by simp [partsWritten, writesV, otherWrites])
  | drw => obtain ⟨_, _, _, _, _, _, _, _, _, _, _, rfl⟩ := h; exact (SameOutside.setV ..).trans (.setFB ..)
  | skp | sknp =>
    obtain ⟨a, -, ⟨-, rfl⟩ | ⟨-, rfl⟩⟩ := h
    · exact (SameOutside.skipIf ..).mono (by simp [partsWritten, otherWrites])
    · exact (SameOutside.tookDraw s).trans (.skipIf ..)
  | ldVxK => obtain rfl := h; exact .waitForKey ..
  | ldDTVx => obtain ⟨a, -, rfl⟩ := h; exact .setDT ..
  | ldSTVx => obtain ⟨a, -, rfl⟩ := h; exact .setST ..
  | addIVx => obtain ⟨a, w, -, -, rfl⟩ := h; exact .setI ..
  | ldFVx => obtain ⟨a, -, rfl⟩ := h; exact .setI ..
  | ldBVx =>
    obtain ⟨a, w, -, hw, -, rfl⟩ := h
    rw [State.eq_i_of_getI hw]
    exact SameOutside.setBytes s s.i.toNat (bcdDigits a)
  | ldMemVx x =>
    obtain ⟨w, l, hw, -, hl, -, rfl⟩ := h
    have hlen := length_of_map_fst_eq_regsUpTo hl
    rw [State.eq_i_of_getI hw]
    exact (SameOutside.setBytes ..).mono (by simp [partsWritten, writesV, otherWrites, hlen])
  | ldVxMem x =>
    obtain ⟨w, bs, -, -, hlen, -, rfl⟩ := h
    have hfst : ((regsUpTo x).zip bs).map Prod.fst = regsUpTo x := List.map_fst_zip (by simp [hlen])
    exact (SameOutside.setVs ..).mono (by simp [partsWritten, writesV, otherWrites, hfst])

/-- An instruction that leaves no fault latched has completed. -/
theorem exec_completes {i : Instr} {s t : State} (h : exec i s = .next t) (hf : t.fault = none) : Completes i s t := by
  rcases exec_next h with hc | ⟨k, a, -, rfl⟩
  · exact hc
  · simp at hf

/-! ### O37, O39: registers and PC after each instruction -/

/-- Settles O37: the frame of an instruction that completes, and a fault changes no register. -/
theorem onlyNamedRegistersChange : Obligations.OnlyNamedRegistersChange := by
  unfold Obligations.OnlyNamedRegistersChange
  intro i s t h r hr
  rcases exec_next h with hc | ⟨k, a, -, rfl⟩
  · exact hc.sameOutside.v r (mt v_mem_partsWritten hr)
  · exact State.getV_raiseIn ..

theorem State.pc_skipIf_not (s : State) (c : Bool) : (s.skipIf (!c)).pc = if c then s.pc else s.pc + 2 := by
  cases c <;> rfl

/-- Settles O39: an instruction without a fault has completed, so its rule gives PC for the jumps and skips and its frame
keeps it for the others. -/
theorem pcAfterEachInstruction : Obligations.PcAfterEachInstruction := by
  unfold Obligations.PcAfterEachInstruction
  intro i s t _ h hf
  have hc := exec_completes h hf
  cases i with
  | jp nnn => obtain rfl := hc; exact toNat_setWidth_addr nnn
  | call nnn => obtain ⟨-, rfl⟩ := hc; exact ⟨toNat_setWidth_addr nnn, rfl⟩
  | ret => obtain ⟨a, ha, rfl⟩ := hc; exact ha
  | jpV0 nnn => obtain ⟨a, ha, rfl⟩ := hc; exact ⟨a, ha, toNat_jumpV0Target nnn a⟩
  | seImm | sneImm => obtain ⟨a, ha, rfl⟩ := hc; simp [ha]
  | seReg | sneReg => obtain ⟨a, b, ha, hb, rfl⟩ := hc; simp [ha, hb]
  | skp =>
    obtain ⟨a, ha, ⟨hk, rfl⟩ | ⟨hk, rfl⟩⟩ := hc
    · exact ⟨a, ha, by simp [hk]⟩
    · exact ⟨a, ha, by simp [Nat.not_le.mpr hk]⟩
  | sknp =>
    obtain ⟨a, ha, ⟨hk, rfl⟩ | ⟨hk, rfl⟩⟩ := hc
    · exact ⟨a, ha, (State.pc_skipIf_not ..).trans (by simp [hk])⟩
    · exact ⟨a, ha, (State.pc_skipIf_not ..).trans (by simp [Nat.not_le.mpr hk])⟩
  | _ => exact hc.sameOutside.pc (by simp [partsWritten, otherWrites, bytesFrom])

/-! ### O58: the parameters -/

theorem exec_params {i : Instr} {s t : State} (h : exec i s = .next t) : t.params = s.params := by
  rcases exec_next h with hc | ⟨k, a, -, rfl⟩
  · exact hc.sameOutside.params
  · rfl

theorem iteration_params {n : Nat} {s t : State} (h : iteration n s = .next t) : t.params = s.params := by
  rcases iteration_next h with ⟨-, rfl⟩ | ⟨-, ⟨-, rfl⟩ | ⟨-, w, ⟨i, -, he⟩ | rfl | rfl⟩⟩
  case inr.inr.inl => exact (exec_params he).trans rfl
  all_goals rfl

theorem keyDown_params (k : Key) (s : State) : (s.keyDown k).params = s.params := by
  rcases keyDown_cases k s with he | ⟨-, -, ⟨x, -, he⟩ | ⟨-, he⟩⟩ <;> rw [he] <;> rfl

theorem transact_params {x : Transaction} {s t : State} (h : transact x s = .next t) : t.params = s.params := by
  rcases transact_next h with ⟨program, -, -, rfl⟩ | ⟨-, -, ⟨-, rfl⟩ | ⟨-, rfl⟩⟩ | ⟨k, -, rfl⟩ | ⟨k, -, rfl⟩
  case inr.inr.inl => exact keyDown_params k s
  all_goals rfl

theorem endCycle_params (s : State) : s.endCycle.params = s.params := by
  rw [State.endCycle, State.setPhase_params, State.setOutputs_params, tick_rest]

/-- Settles O58: a transaction, an iteration and the end of a cycle each keep the parameters. -/
theorem parametersNeverChange : Obligations.ParametersNeverChange := by
  unfold Obligations.ParametersNeverChange
  intro s t h
  rcases step_next h with ⟨-, ht⟩ | ⟨n, -, -, rfl⟩ | ⟨-, -, rfl⟩ | ⟨n, -, -, hi⟩
  · obtain ⟨x, rest, hx⟩ := takeTransaction_next ht
    exact (transact_params hx).trans rfl
  · rfl
  · exact endCycle_params s
  · exact iteration_params hi

/-! ### What an instruction has read when it answers a next state -/

/-- Every register of the read column of R23 held a value. FX55 tests its range before it reads V0..Vx (R224), so for those
the range must be good. -/
theorem exec_next_readsV {i : Instr} {s t : State} (h : exec i s = .next t)
    (hrange : ∀ x w, i = .ldMemVx x → s.getI = some w → w.toNat + x.val < 4096) :
    ∀ r ∈ readsV s.params i, s.getV r ≠ none := by
  cases i with
  | cls | jp | ldImm | ldI | rnd | ldVxK | ret | call | ldVxDT | ldVxMem => simp [readsV]
  | seImm | sneImm | addImm | jpV0 | ldDTVx | ldSTVx | ldFVx | skp | sknp | addIVx | ldBVx | ldReg =>
    obtain ⟨a, ha, -⟩ := withV_next h
    simp [readsV, ha]
  | shr x y | shl x y =>
    obtain ⟨a, ha, -⟩ := withV_next h
    unfold shiftReg at ha
    cases hsrc : s.params.shiftSrc <;> simp [hsrc] at ha <;> simp [readsV, hsrc, ha]
  | seReg | sneReg | orReg | andReg | xorReg | addReg | subReg | subn | drw =>
    obtain ⟨a, ha, h⟩ := withV_next h
    obtain ⟨b, hb, -⟩ := withV_next h
    simp [readsV, ha, hb]
  | ldMemVx x =>
    obtain ⟨w, hw, h⟩ := withI_next h
    have hr : w.toNat + x.val < 4096 := hrange x w rfl hw
    rw [checkRange_pass _ (.inr (by simp only [memSize]; omega))] at h
    obtain ⟨l, hl, hs, -⟩ := withVs_next h
    intro r (hmem : r ∈ regsUpTo x)
    obtain ⟨p, hp, rfl⟩ := List.mem_map.mp (hl.symm ▸ hmem : r ∈ l.map Prod.fst)
    simp [hs p hp]

theorem exec_next_readsI {i : Instr} {s t : State} (h : exec i s = .next t) (hi : readsI i = true) : s.getI ≠ none := by
  cases i with
  | drw =>
    obtain ⟨a, -, h⟩ := withV_next h
    obtain ⟨b, -, h⟩ := withV_next h
    obtain ⟨w, hw, -⟩ := withI_next h
    simp [hw]
  | addIVx | ldBVx =>
    obtain ⟨a, -, h⟩ := withV_next h
    obtain ⟨w, hw, -⟩ := withI_next h
    simp [hw]
  | ldMemVx | ldVxMem =>
    obtain ⟨w, hw, -⟩ := withI_next h
    simp [hw]
  | _ => cases hi

theorem exec_next_readsDT {x : Reg} {s t : State} (h : exec (.ldVxDT x) s = .next t) : s.getDT ≠ none := by
  obtain ⟨d, hd, -⟩ := withDT_next h
  simp [hd]

/-- A block read whose range is good has read only bytes that hold values. -/
theorem checkRange_withBytes_next {i : Instr} {a n : Nat} {s t : State} {k : List Byte → Result} (hr : a + n ≤ 4096)
    (h : checkRange i a n s (withBytes a n s k) = .next t) : ∀ j < n, s.byte (a + j) ≠ none := by
  rw [checkRange_pass _ (.inr hr)] at h
  obtain ⟨bs, hlen, hbs, -⟩ := withBytes_next h
  intro j hj
  simp [hbs j hj, hlen, hj]

/-- The bytes read through I, where their range is good, all hold values (R225, R253). -/
theorem exec_next_readsBytes {i : Instr} {s t : State} {w : Word} (h : exec i s = .next t) (hw : s.getI = some w)
    (hr : w.toNat + bytesRead i ≤ 4096) : ∀ j < bytesRead i, s.byte (w.toNat + j) ≠ none := by
  cases i with
  | drw =>
    obtain ⟨a, -, h⟩ := withV_next h
    obtain ⟨b, -, h⟩ := withV_next h
    rw [withI_some _ hw] at h
    exact checkRange_withBytes_next hr h
  | ldVxMem =>
    rw [exec, execLdVxMem, withI_some _ hw] at h
    exact checkRange_withBytes_next hr h
  | _ => exact fun j hj => absurd hj (Nat.not_lt_zero j)

/-- An instruction that answers no next state stops on a location without a value: exec refuses nothing. -/
theorem exec_stops {i : Instr} {s : State} (h : ∀ t, exec i s ≠ .next t) :
    ∃ l, HoldsNoValue s l ∧ exec i s = .fault (.readBeforeWrite l) := by
  cases he : exec i s with
  | next t => exact absurd he (h t)
  | refused r => exact absurd he (exec_ne_refused i s r)
  | fault f =>
    obtain ⟨l, rfl, hl⟩ := exec_fault he
    exact ⟨l, hl, rfl⟩

/-- A fetch in range with a byte that holds no value stops on such a byte, the one at PC first (R90, R44). -/
theorem fetch_stops {s : State} (k : Word → State → Result) (hr : s.pc.toNat + 1 < memSize)
    (hb : s.byte s.pc.toNat = none ∨ s.byte (s.pc.toNat + 1) = none) :
    ∃ a, (a = s.pc.toNat ∨ a = s.pc.toNat + 1) ∧ s.byte a = none ∧ fetch s k = .fault (.readBeforeWrite (.mem a)) := by
  rw [fetch, if_neg (by omega)]
  rcases withByte_cases (rfl : withByte s.pc.toNat s _ = _) with ⟨hi, hhi, he⟩ | ⟨hn, he⟩
  · have hlo : s.byte (s.pc.toNat + 1) = none := hb.resolve_left (by simp [hhi])
    refine ⟨_, .inr rfl, hlo, he.symm.trans ?_⟩
    simp [withByte, hlo]
  · exact ⟨_, .inl rfl, hn, he⟩

/-- Settles O41: an instruction that answered a next state would have read each of these locations. -/
theorem readBeforeWriteStops : Obligations.ReadBeforeWriteStops := by
  unfold Obligations.ReadBeforeWriteStops
  constructor
  · intro i s hmissing
    refine exec_stops fun t ht => ?_
    rcases hmissing with ⟨⟨r, hr, hv⟩, hrange⟩ | ⟨hi, hn⟩ | ⟨⟨x, rfl⟩, hn⟩ | ⟨w, hw, hr, j, hj, hn⟩
    · exact exec_next_readsV ht hrange r hr hv
    · exact exec_next_readsI ht hi hn
    · exact exec_next_readsDT ht hn
    · exact exec_next_readsBytes ht hw hr j hj hn
  · rintro s left ⟨hphase, hpaused, hfault⟩ hr hb
    rw [step_of_running hphase hpaused hfault]
    exact fetch_stops (s := s.setPhase (.cycle left)) _ hr hb

/-! ### O53, O54, O55: reset -/

theorem transact_reset {program : List Byte} (h : program.length ≤ 3584) (s : State) :
    transact (.reset program) s = .next (s.afterReset program) :=
  if_pos (programWf_iff.mpr h)

/-- The font stands below the program (R70). -/
theorem byte_afterReset_font (program : List Byte) (s : State) (j : Fin 80) :
    (s.afterReset program).byte j.val = some s.params.font[j.val] := by
  rw [byte_afterReset, if_neg (by simp only [progBase]; omega), Memory.resetByte, dif_pos j.isLt]

theorem byte_afterReset_program (program : List Byte) (s : State) {j : Nat} (hj : j < program.length) :
    (s.afterReset program).byte (0x200 + j) = program[j]? := by
  rw [byte_afterReset, if_pos (by simp only [progBase]; omega), Nat.add_sub_cancel_left]

/-- An address outside the font reads as INIT_STATE says (R44). -/
theorem Memory.resetByte_zero {p : Config.Params} {a : Nat} (hz : p.initState = .zero) (ha : 80 ≤ a) :
    Memory.resetByte p a = some 0 := by
  rw [Memory.resetByte, dif_neg (by omega), hz]

theorem Memory.resetByte_unwritten {p : Config.Params} {a : Nat} (hu : p.initState = .unwritten) (ha : 80 ≤ a) :
    Memory.resetByte p a = none := by
  rw [Memory.resetByte, dif_neg (by omega), hu]

theorem byte_afterReset_outside (program : List Byte) (s : State) {a : Nat}
    (hp : a < 0x200 ∨ 0x200 + program.length ≤ a) : (s.afterReset program).byte a = Memory.resetByte s.params a := by
  rw [byte_afterReset, if_neg (by simp only [progBase]; omega)]

/-- Under INIT_STATE = zero every register holds 0 after a reset (R41). -/
theorem registers_afterReset_zero (program : List Byte) {s : State} (hz : s.params.initState = .zero) :
    (∀ x, (s.afterReset program).getV x = some 0) ∧ (s.afterReset program).getI = some 0 ∧
      (s.afterReset program).getDT = some 0 ∧ (s.afterReset program).getST = some 0 := by
  simp [State.getV, State.getI, State.getDT, State.getST, State.afterReset, State.unwrittenAtReset, hz]

/-- Under INIT_STATE = unwritten no register holds a value after a reset (R41). -/
theorem registers_afterReset_unwritten (program : List Byte) {s : State} (hz : s.params.initState = .unwritten) :
    (∀ x, (s.afterReset program).getV x = none) ∧ (s.afterReset program).getI = none ∧
      (s.afterReset program).getDT = none ∧ (s.afterReset program).getST = none := by
  have hu : (s.afterReset program).unwritten = Reg.all.map .v ++ [.i, .dt, .st] := by
    simp only [State.afterReset, State.unwrittenAtReset, hz]
  have hv : ∀ x, RegName.v x ∈ (s.afterReset program).unwritten := by rw [hu]; decide
  exact ⟨fun x => if_pos (hv x), if_pos (by simp [hu]), if_pos (by simp [hu]), if_pos (by simp [hu])⟩

/-- Settles O53: what holds of State.afterReset, piece by piece. -/
theorem resetLeavesTheResetState : Obligations.ResetLeavesTheResetState := by
  unfold Obligations.ResetLeavesTheResetState
  intro s program hlen
  refine ⟨_, transact_reset hlen s, rfl, rfl, rfl, rfl, rfl, fun k => cellOf_clear k, rfl, rfl,
    byte_afterReset_font program s, fun j hj => byte_afterReset_program program s hj, fun hz => ?_, fun hu => ?_,
    fun s' hp => ?_⟩
  · obtain ⟨hv, hi, hdt, hst⟩ := registers_afterReset_zero program hz
    exact ⟨hv, hi, hdt, hst, fun a hf _ hout =>
      (byte_afterReset_outside program s hout).trans (Memory.resetByte_zero hz hf)⟩
  · obtain ⟨hv, hi, hdt, hst⟩ := registers_afterReset_unwritten program hu
    exact ⟨hv, hi, hdt, hst, fun a hf _ hout =>
      (byte_afterReset_outside program s hout).trans (Memory.resetByte_unwritten hu hf)⟩
  · rw [transact_reset hlen]
    simp only [State.afterReset, hp]

/-- Settles O54: each transaction fails the test it begins with. -/
theorem refusedTransactions : Obligations.RefusedTransactions := by
  unfold Obligations.RefusedTransactions
  constructor
  · intro s program hlen
    exact if_neg (by rw [programWf_iff]; omega)
  · intro s hp
    simp only [transact, doCycle, hp]

/-- Settles O55: the rules of a reset, for the state it makes of State.reset with the empty program. -/
theorem resetStateHoldsTheResetValues : Obligations.ResetStateHoldsTheResetValues := by
  unfold Obligations.ResetStateHoldsTheResetValues
  obtain ⟨hv, hi, hdt, hst⟩ := registers_afterReset_zero (s := State.reset) [] rfl
  refine ⟨rfl, hv, hi, hdt, hst, rfl, rfl, rfl, rfl, fun k => cellOf_clear k, byte_afterReset_font [] State.reset,
    fun a hf _ => ?_⟩
  exact (byte_afterReset_outside [] State.reset (by simp only [List.length_nil]; omega)).trans
    (Memory.resetByte_zero rfl hf)

/-! ### O59: the registers -/

/-- Settles O59: both instructions write through setV, and a read after it sees Vx alone changed. -/
theorem registersAreSeparateCells : Obligations.RegistersAreSeparateCells := by
  unfold Obligations.RegistersAreSeparateCells
  intro s x y nn a ha
  have hy : (s.setV x nn).getV y = some (if y = x then nn else a) := by
    rw [State.getV_setV, ha]
    split <;> rfl
  refine ⟨s.setV x nn, (s.setV x nn).setV y (if y = x then nn else a), rfl, withV_some _ hy, by simp, fun z hz => ?_⟩
  by_cases hzy : z = y
  · subst hzy
    simp [hz, ha]
  · simp [hz, hzy]

end Sys2Proof.Machine
end

section
/-! SUPPORT. The proof of the statement about memory (spec/20_memory.md): the fetch sees the bytes a store has just left. -/

namespace Sys2Proof.Machine

/-- A core ready to run, with the word w at PC, runs w (R90, R120). -/
theorem runsWord_of_wordAtPC {t : State} {left : Nat} {w : Word} (hready : ReadyToRun t left) (hw : WordAtPC t w) :
    RunsWord t left w := by
  obtain ⟨hphase, hpaused, hfault⟩ := hready
  obtain ⟨hrange, hi, lo, hhi, hlo, rfl⟩ := hw
  unfold RunsWord
  rw [step_of_running hphase hpaused hfault, runInstruction,
    fetch_of_bytes (s := t.setPhase (.cycle left)) _ hrange hhi hlo, State.advance_params, State.setPhase_params]
  cases decode t.params.sysPolicy (wordOfBytes hi lo) with
  | instr i => rfl
  | sys nnn => rfl
  | unknown => simp [State.fetchAddr, State.raise, State.advance, State.setPhase]

/-- What byteAfterStore says of a store of the bytes `value 0` and so on is what the store leaves (R68, R75). -/
theorem byte_setBytes_eq_byteAfterStore {bs : List Byte} {value : Nat → Option Byte}
    (hvalue : ∀ j < bs.length, bs[j]? = value j) (s : State) (base a : Nat) :
    (s.setBytes base bs).byte a = byteAfterStore base bs.length value s a := by
  rw [State.byte_setBytes, byteAfterStore]
  split
  · exact hvalue _ (by omega)
  · rfl

/-- A store keeps PC and leaves the core ready, so the step after it runs the word its bytes form at PC (R78, R346). -/
theorem runsWord_setBytes {s : State} {left base : Nat} {bs : List Byte} {value : Nat → Option Byte} {hi lo : Byte}
    (hready : ReadyToRun s left) (hpc : s.pc.toNat + 1 < memSize) (hvalue : ∀ j < bs.length, bs[j]? = value j)
    (hhi : byteAfterStore base bs.length value s s.pc.toNat = some hi)
    (hlo : byteAfterStore base bs.length value s (s.pc.toNat + 1) = some lo) :
    RunsWord (s.setBytes base bs) left (wordOfBytes hi lo) :=
  runsWord_of_wordAtPC hready ⟨hpc, hi, lo, (byte_setBytes_eq_byteAfterStore hvalue ..).trans hhi,
    (byte_setBytes_eq_byteAfterStore hvalue ..).trans hlo, rfl⟩

/-- FX55 in range stores the values of V0..Vx, in their order, from I on (R224). -/
theorem exec_ldMemVx_of_inRange {s : State} {w : Word} {x : Reg} (hw : s.getI = some w) (hr : w.toNat + x.val < memSize)
    (hv : ∀ r ≤ x, (s.getV r).isSome) :
    ∃ bs : List Byte, bs.length = x.val + 1 ∧ (∀ j < x.val + 1, bs[j]? = s.getV (Fin.ofNat 16 j)) ∧
      exec (.ldMemVx x) s = .next (s.setBytes w.toNat bs) := by
  obtain ⟨f, hf⟩ : ∃ f : Reg → Byte, ∀ r ≤ x, s.getV r = some (f r) :=
    ⟨fun r => s.v[r.val], fun r hrx => by simpa [State.getV] using hv r hrx⟩
  refine ⟨(regsUpTo x).map f, by simp, fun j hj => ?_, ?_⟩
  · have hjx : Fin.ofNat 16 j ≤ x := by rw [Fin.le_def, Fin.val_ofNat]; omega
    have hreg : (regsUpTo x)[j]? = some (Fin.ofNat 16 j) := by
      rw [← getElem?_regsUpTo x _ hjx, Fin.val_ofNat, Nat.mod_eq_of_lt (by omega)]
    rw [List.getElem?_map, hreg, hf _ hjx, Option.map_some]
  · rw [exec, execLdMemVx, withI_some _ hw, checkRange_pass _ (.inr (by omega)),
      withVs_some _ s f _ fun r hmem => hf r (mem_regsUpTo.mp hmem), List.map_map]
    rfl

/-- FX33 in range stores the three digits of Vx from I on (R223). -/
theorem exec_ldBVx_of_inRange {s : State} {w : Word} {x : Reg} {a : Byte} (hw : s.getI = some w)
    (hr : w.toNat + 2 < memSize) (ha : s.getV x = some a) :
    exec (.ldBVx x) s = .next (s.setBytes w.toNat (bcdDigits a)) := by
  rw [exec, execLdBVx, withV_some _ ha, withI_some _ hw, checkRange_pass _ (.inr (by omega))]

@[simp] theorem length_bcdDigits (a : Byte) : (bcdDigits a).length = 3 := rfl

/-- The digit at place j of the three, hundreds first (R223). -/
theorem getElem?_bcdDigits (a : Byte) {j : Nat} (hj : j < 3) :
    (bcdDigits a)[j]? = some (BitVec.ofNat 8 (a.toNat / 10 ^ (2 - j) % 10)) := by
  have hhundreds : a.toNat / 100 % 10 = a.toNat / 100 := by have := a.isLt; omega
  match j, hj with
  | 0, _ => simp [bcdDigits, hhundreds]
  | 1, _ => simp [bcdDigits]
  | 2, _ => simp [bcdDigits]

/-- Settles O60: FX55 and FX33 each complete with a store from I on, and the fetch after a store reads what it left. -/
theorem fetchSeesTheStoreBefore : Obligations.FetchSeesTheStoreBefore := by
  unfold Obligations.FetchSeesTheStoreBefore
  intro s w x left hready hw hpc
  constructor
  · intro hr hv
    obtain ⟨bs, hlen, hbs, hexec⟩ := exec_ldMemVx_of_inRange hw hr hv
    rw [← hlen] at hbs ⊢
    exact ⟨_, hexec, fun hi lo hhi hlo => ⟨rfl, runsWord_setBytes hready hpc hbs hhi hlo⟩⟩
  · intro hr a ha
    exact ⟨_, exec_ldBVx_of_inRange hw hr ha, fun hi lo hhi hlo =>
      ⟨rfl, runsWord_setBytes hready hpc (fun _ => getElem?_bcdDigits a) hhi hlo⟩⟩

end Sys2Proof.Machine
end

section
/-! SUPPORT. The proofs of the statements about the encoding (spec/30_encoding.md): the fields of a word made by a format, the
encoder and the decoder as inverses of each other, the opcode table, the Unknown words, and the fetch. -/

namespace Sys2Proof

/-! ### The fields of a word made by a format (R92, R94) -/

@[simp] theorem fieldOp_formatA {op : Nat} (nnn : Addr) (h : op < 16) : fieldOp (formatA op nnn) = op := by
  rw [formatA, fieldOp_ofNat _ (by omega)]; omega

@[simp] theorem fieldNNN_formatA {op : Nat} (nnn : Addr) (h : op < 16) : fieldNNN (formatA op nnn) = nnn :=
  fieldNNN_ofNat _ nnn (by omega) (by omega)

@[simp] theorem fieldOp_formatXK {op : Nat} (x : Reg) (nn : Byte) (h : op < 16) : fieldOp (formatXK op x nn) = op := by
  rw [formatXK, fieldOp_ofNat _ (by omega)]; omega

@[simp] theorem fieldX_formatXK {op : Nat} (x : Reg) (nn : Byte) (h : op < 16) : fieldX (formatXK op x nn) = x :=
  fieldX_ofNat _ x (by omega) (by omega)

@[simp] theorem fieldNN_formatXK {op : Nat} (x : Reg) (nn : Byte) (h : op < 16) : fieldNN (formatXK op x nn) = nn :=
  fieldNN_ofNat _ nn (by omega) (by omega)

@[simp] theorem fieldOp_formatXYN {op n : Nat} (x y : Reg) (h : op < 16) (hn : n < 16) :
    fieldOp (formatXYN op x y n) = op := by
  rw [formatXYN, assemble, fieldOp_ofNat _ (by omega)]; omega

@[simp] theorem fieldX_formatXYN {op n : Nat} (x y : Reg) (h : op < 16) (hn : n < 16) :
    fieldX (formatXYN op x y n) = x :=
  fieldX_ofNat _ x (by omega) (by omega)

@[simp] theorem fieldY_formatXYN {op n : Nat} (x y : Reg) (h : op < 16) (hn : n < 16) :
    fieldY (formatXYN op x y n) = y :=
  fieldY_ofNat _ y (by omega) (by omega)

@[simp] theorem fieldN_formatXYN {op n : Nat} (x y : Reg) (h : op < 16) (hn : n < 16) :
    fieldN (formatXYN op x y n) = n := by
  rw [formatXYN, assemble, fieldN_ofNat _ (by omega)]; omega

/-! ### A format gives a word back from its fields -/

section
variable {w : Word} {op n : Nat} {nn : Byte}

theorem formatA_fields (hop : fieldOp w = op) : formatA op (fieldNNN w) = w := by
  subst hop
  apply BitVec.eq_of_toNat_eq
  rw [toNat_formatA _ _ (fieldOp_lt w), toNat_fieldNNN, toNat_eq_nibbles w]; omega

theorem formatXK_fields (hop : fieldOp w = op) (hnn : fieldNN w = nn) : formatXK op (fieldX w) nn = w := by
  subst hop hnn
  apply BitVec.eq_of_toNat_eq
  rw [toNat_formatXK _ _ _ (fieldOp_lt w), toNat_fieldNN, toNat_eq_nibbles w]; omega

theorem formatXYN_fields (hop : fieldOp w = op) (hn : fieldN w = n) : formatXYN op (fieldX w) (fieldY w) n = w := by
  subst hop hn
  apply BitVec.eq_of_toNat_eq
  rw [toNat_formatXYN _ _ _ _ (fieldOp_lt w) (fieldN_lt w), ← toNat_eq_nibbles w]

end

/-! ### O2: decoding an encoding -/

/-- Settles O2: the decoder reads back, in the family of the format's op, the selector and the operands the format was given. -/
theorem decodeOfEncodeIsTheInstruction : Obligations.DecodeOfEncodeIsTheInstruction := by
  unfold Obligations.DecodeOfEncodeIsTheInstruction
  intro pol i hwf
  cases i with
  | cls | ret => rfl
  | jp | call | ldI | jpV0 | seImm | sneImm | ldImm | addImm | rnd | seReg | sneReg => simp [encode, decode, decodeFamily]
  | ldReg | orReg | andReg | xorReg | addReg | subReg | shr | subn | shl => simp [encode, decode, decodeFamily, decode8]
  | drw x y n =>
    have hn : n < 16 := of_decide_eq_true hwf
    simp [encode, decode, decodeFamily, hn]
  | skp | sknp => simp [encode, decode, decodeFamily, decodeE]
  | ldVxDT | ldVxK | ldDTVx | ldSTVx | addIVx | ldFVx | ldBVx | ldMemVx | ldVxMem =>
    simp [encode, decode, decodeFamily, decodeF]

/-! ### O3: encoding a decoded word -/

section
variable {pol : Config.SysPolicy} {w : Word} {i : Instr}

theorem wf_and_encode_of_decode0 (h : decode0 pol w = .instr i) : i.wf = true ∧ encode i = w := by
  unfold decode0 at h
  split at h
  case isTrue hw => cases h; exact ⟨rfl, hw.symm⟩
  split at h
  case isTrue hw => cases h; exact ⟨rfl, hw.symm⟩
  cases pol <;> cases h

theorem wf_and_encode_of_decode8 (hop : fieldOp w = 8) {n : Nat} (hn : fieldN w = n) (h : decode8 w n = .instr i) :
    i.wf = true ∧ encode i = w := by
  unfold decode8 at h
  split at h <;> cases h
  all_goals exact ⟨rfl, formatXYN_fields hop hn⟩

theorem wf_and_encode_of_decodeE (hop : fieldOp w = 0xE) (h : decodeE w = .instr i) : i.wf = true ∧ encode i = w := by
  unfold decodeE at h
  split_ifs at h with hnn hnn <;> cases h
  all_goals exact ⟨rfl, formatXK_fields hop hnn⟩

theorem wf_and_encode_of_decodeF (hop : fieldOp w = 0xF) (h : decodeF w = .instr i) : i.wf = true ∧ encode i = w := by
  unfold decodeF at h
  split_ifs at h with hnn hnn hnn hnn hnn hnn hnn hnn hnn <;> cases h
  all_goals exact ⟨rfl, formatXK_fields hop hnn⟩

end

/-- Settles O3: in each family the format of the decoded instruction gives the word back from its fields. -/
theorem encodeOfDecodedWordIsTheWord : Obligations.EncodeOfDecodedWordIsTheWord := by
  unfold Obligations.EncodeOfDecodedWordIsTheWord
  intro pol w i h
  unfold decode at h
  generalize hop : fieldOp w = op at h
  unfold decodeFamily at h
  -- The arms in the decoder's order: h_1 is family 0, h_2 family 1, and so on.
  split at h
  case h_1 => exact wf_and_encode_of_decode0 h
  case h_9 => exact wf_and_encode_of_decode8 hop rfl h
  case h_15 => exact wf_and_encode_of_decodeE hop h
  case h_16 => exact wf_and_encode_of_decodeF hop h
  case h_6 | h_10 =>
    split_ifs at h with hn
    cases h
    exact ⟨rfl, formatXYN_fields hop hn⟩
  case h_14 => cases h; exact ⟨decide_eq_true (fieldN_lt w), formatXYN_fields hop rfl⟩
  case h_2 | h_3 | h_11 | h_12 => cases h; exact ⟨rfl, formatA_fields hop⟩
  case h_4 | h_5 | h_7 | h_8 | h_13 => cases h; exact ⟨rfl, formatXK_fields hop rfl⟩
  case h_17 => cases h

/-! ### O4: the opcode table -/

section
variable {w : Word} {op : Nat}

/-- What a masked comparison with the op and the k lowest bits tells: the op and those bits are the pattern's. -/
theorem fieldOp_and_low_of_and_mask {k m : Nat} (hk : k ≤ 8) (hop : op < 16) (hm : m < 2 ^ k)
    (h : w &&& (0xF000#16 ||| BitVec.ofNat 16 (2 ^ k - 1)) = BitVec.ofNat 16 (op * 4096 + m)) :
    fieldOp w = op ∧ w.toNat % 2 ^ k = m := by
  rw [and_mask w k (by omega)] at h
  have hlow : w.toNat % 2 ^ k < 2 ^ k := Nat.mod_lt _ (by positivity)
  have hpow : 2 ^ k ≤ 2 ^ 8 := Nat.pow_le_pow_right (by decide) hk
  have hnat := congrArg BitVec.toNat h
  have := w.isLt
  rw [BitVec.toNat_ofNat, BitVec.toNat_ofNat] at hnat
  simp only [fieldOp, bits]
  omega

theorem fieldOp_of_fits (hop : op < 16) (h : OpcodeRow.fits ⟨BitVec.ofNat 16 (op * 4096), 0xF000#16⟩ w) :
    fieldOp w = op :=
  (fieldOp_and_low_of_and_mask (k := 0) (m := 0) (by decide) hop (by decide) (by rwa [Nat.add_zero])).1

theorem fieldOp_fieldN_of_fits {n : Nat} (hop : op < 16) (hn : n < 16)
    (h : OpcodeRow.fits ⟨BitVec.ofNat 16 (op * 4096 + n), 0xF00F#16⟩ w) : fieldOp w = op ∧ fieldN w = n := by
  obtain ⟨hw, hlow⟩ := fieldOp_and_low_of_and_mask (k := 4) (by decide) hop hn h
  exact ⟨hw, by simp only [fieldN, bits]; omega⟩

theorem fieldOp_fieldNN_of_fits {nn : Byte} (hop : op < 16)
    (h : OpcodeRow.fits ⟨BitVec.ofNat 16 (op * 4096 + nn.toNat), 0xF0FF#16⟩ w) : fieldOp w = op ∧ fieldNN w = nn := by
  obtain ⟨hw, hlow⟩ := fieldOp_and_low_of_and_mask (k := 8) (by decide) hop nn.isLt h
  refine ⟨hw, BitVec.eq_of_toNat_eq ?_⟩
  simp only [fieldNN, bits, BitVec.toNat_ofNat]; omega

theorem formatXYN_of_fits {n : Nat} (hop : op < 16) (hn : n < 16)
    (h : OpcodeRow.fits ⟨BitVec.ofNat 16 (op * 4096 + n), 0xF00F#16⟩ w) :
    formatXYN op (fieldX w) (fieldY w) n = w :=
  (fieldOp_fieldN_of_fits hop hn h).elim formatXYN_fields

theorem formatXK_of_fits {nn : Byte} (hop : op < 16)
    (h : OpcodeRow.fits ⟨BitVec.ofNat 16 (op * 4096 + nn.toNat), 0xF0FF#16⟩ w) : formatXK op (fieldX w) nn = w :=
  (fieldOp_fieldNN_of_fits hop h).elim formatXK_fields

/-- A row that fixes the whole word (R97). -/
theorem eq_of_fits_allOnes {c : Word} (h : OpcodeRow.fits ⟨c, 0xFFFF#16⟩ w) : w = c :=
  BitVec.and_allOnes.symm.trans h

end

/-- The instruction of the same row with the operands a word holds in its fields (R92). -/
def Instr.withFieldsOf (w : Word) : Instr → Instr
  | .cls => .cls
  | .ret => .ret
  | .jp _ => .jp (fieldNNN w)
  | .call _ => .call (fieldNNN w)
  | .seImm _ _ => .seImm (fieldX w) (fieldNN w)
  | .sneImm _ _ => .sneImm (fieldX w) (fieldNN w)
  | .seReg _ _ => .seReg (fieldX w) (fieldY w)
  | .ldImm _ _ => .ldImm (fieldX w) (fieldNN w)
  | .addImm _ _ => .addImm (fieldX w) (fieldNN w)
  | .ldReg _ _ => .ldReg (fieldX w) (fieldY w)
  | .orReg _ _ => .orReg (fieldX w) (fieldY w)
  | .andReg _ _ => .andReg (fieldX w) (fieldY w)
  | .xorReg _ _ => .xorReg (fieldX w) (fieldY w)
  | .addReg _ _ => .addReg (fieldX w) (fieldY w)
  | .subReg _ _ => .subReg (fieldX w) (fieldY w)
  | .shr _ _ => .shr (fieldX w) (fieldY w)
  | .subn _ _ => .subn (fieldX w) (fieldY w)
  | .shl _ _ => .shl (fieldX w) (fieldY w)
  | .sneReg _ _ => .sneReg (fieldX w) (fieldY w)
  | .ldI _ => .ldI (fieldNNN w)
  | .jpV0 _ => .jpV0 (fieldNNN w)
  | .rnd _ _ => .rnd (fieldX w) (fieldNN w)
  | .drw _ _ _ => .drw (fieldX w) (fieldY w) (fieldN w)
  | .skp _ => .skp (fieldX w)
  | .sknp _ => .sknp (fieldX w)
  | .ldVxDT _ => .ldVxDT (fieldX w)
  | .ldVxK _ => .ldVxK (fieldX w)
  | .ldDTVx _ => .ldDTVx (fieldX w)
  | .ldSTVx _ => .ldSTVx (fieldX w)
  | .addIVx _ => .addIVx (fieldX w)
  | .ldFVx _ => .ldFVx (fieldX w)
  | .ldBVx _ => .ldBVx (fieldX w)
  | .ldMemVx _ => .ldMemVx (fieldX w)
  | .ldVxMem _ => .ldVxMem (fieldX w)

namespace Instr

@[simp] theorem row_withFieldsOf (w : Word) (i : Instr) : (i.withFieldsOf w).row = i.row := by
  cases i <;> rfl

@[simp] theorem wf_withFieldsOf (w : Word) (i : Instr) : (i.withFieldsOf w).wf = true := by
  cases i with
  | drw => exact decide_eq_true (fieldN_lt w)
  | _ => rfl

/-- A word of an instruction's row is the encoding of the row's instruction with the word's own operands. -/
theorem encode_withFieldsOf {w : Word} {i : Instr} (h : i.row.fits w) : encode (i.withFieldsOf w) = w := by
  cases i with
  | cls | ret => exact (eq_of_fits_allOnes h).symm
  | jp | call | ldI | jpV0 => exact formatA_fields (fieldOp_of_fits (by decide) h)
  | seImm | sneImm | ldImm | addImm | rnd => exact formatXK_fields (fieldOp_of_fits (by decide) h) rfl
  | drw => exact formatXYN_fields (fieldOp_of_fits (by decide) h) rfl
  | seReg | sneReg | ldReg | orReg | andReg | xorReg | addReg | subReg | shr | subn | shl =>
    exact formatXYN_of_fits (by decide) (by decide) h
  | skp | sknp | ldVxDT | ldVxK | ldDTVx | ldSTVx | addIVx | ldFVx | ldBVx | ldMemVx | ldVxMem =>
    exact formatXK_of_fits (by decide) h

/-- A word of an instruction's row decodes to an instruction of that row. -/
theorem decode_of_fits (pol : Config.SysPolicy) {w : Word} {i : Instr} (h : i.row.fits w) :
    decode pol w = .instr (i.withFieldsOf w) := by
  have hdec := decodeOfEncodeIsTheInstruction pol _ (wf_withFieldsOf w i)
  rwa [encode_withFieldsOf h] at hdec

/-- The encoding of a well-formed instruction is a word of its row: the lemmas RowMatch, put together. -/
theorem row_fits_encode : ∀ i : Instr, Laws.RowMatch.Statement i
  | .cls => Laws.RowMatch.cls
  | .ret => Laws.RowMatch.ret
  | .jp nnn => Laws.RowMatch.jp nnn
  | .call nnn => Laws.RowMatch.call nnn
  | .seImm x nn => Laws.RowMatch.seImm x nn
  | .sneImm x nn => Laws.RowMatch.sneImm x nn
  | .seReg x y => Laws.RowMatch.seReg x y
  | .ldImm x nn => Laws.RowMatch.ldImm x nn
  | .addImm x nn => Laws.RowMatch.addImm x nn
  | .ldReg x y => Laws.RowMatch.ldReg x y
  | .orReg x y => Laws.RowMatch.orReg x y
  | .andReg x y => Laws.RowMatch.andReg x y
  | .xorReg x y => Laws.RowMatch.xorReg x y
  | .addReg x y => Laws.RowMatch.addReg x y
  | .subReg x y => Laws.RowMatch.subReg x y
  | .shr x y => Laws.RowMatch.shr x y
  | .subn x y => Laws.RowMatch.subn x y
  | .shl x y => Laws.RowMatch.shl x y
  | .sneReg x y => Laws.RowMatch.sneReg x y
  | .ldI nnn => Laws.RowMatch.ldI nnn
  | .jpV0 nnn => Laws.RowMatch.jpV0 nnn
  | .rnd x nn => Laws.RowMatch.rnd x nn
  | .drw x y n => Laws.RowMatch.drw x y n
  | .skp x => Laws.RowMatch.skp x
  | .sknp x => Laws.RowMatch.sknp x
  | .ldVxDT x => Laws.RowMatch.ldVxDT x
  | .ldVxK x => Laws.RowMatch.ldVxK x
  | .ldDTVx x => Laws.RowMatch.ldDTVx x
  | .ldSTVx x => Laws.RowMatch.ldSTVx x
  | .addIVx x => Laws.RowMatch.addIVx x
  | .ldFVx x => Laws.RowMatch.ldFVx x
  | .ldBVx x => Laws.RowMatch.ldBVx x
  | .ldMemVx x => Laws.RowMatch.ldMemVx x
  | .ldVxMem x => Laws.RowMatch.ldVxMem x

end Instr

/-- Settles O4: a decoded word is the encoding of its instruction; a word of a row decodes to an instruction of the row; and
as decoding is a function, a word is of one row at most. -/
theorem decoderAgreesWithTheOpcodeTable : Obligations.DecoderAgreesWithTheOpcodeTable := by
  unfold Obligations.DecoderAgreesWithTheOpcodeTable
  refine ⟨fun pol w i h => ?_, fun pol w i h => ⟨_, Instr.decode_of_fits pol h, Instr.row_withFieldsOf w i⟩,
    fun w i j hi hj => ?_⟩
  · obtain ⟨hwf, rfl⟩ := encodeOfDecodedWordIsTheWord pol w i h
    exact Instr.row_fits_encode i hwf
  · have hij : i.withFieldsOf w = j.withFieldsOf w :=
      Decoded.instr.inj ((Instr.decode_of_fits .fault hi).symm.trans (Instr.decode_of_fits .fault hj))
    rw [← Instr.row_withFieldsOf w i, hij, Instr.row_withFieldsOf]

/-! ### O5: the Unknown words -/

theorem decode0_fault_eq_unknown {w : Word} : decode0 .fault w = .unknown ↔ w ≠ 0x00E0#16 ∧ w ≠ 0x00EE#16 := by
  unfold decode0
  split_ifs <;> simp [*]

theorem decode8_eq_unknown {w : Word} {n : Nat} : decode8 w n = .unknown ↔ n ∉ [0, 1, 2, 3, 4, 5, 6, 7, 0xE] := by
  unfold decode8
  split <;> simp_all

theorem decodeE_eq_unknown {w : Word} : decodeE w = .unknown ↔ fieldNN w ∉ [0x9E#8, 0xA1#8] := by
  unfold decodeE
  split_ifs <;> simp [*]

theorem decodeF_eq_unknown {w : Word} : decodeF w = .unknown ↔
    fieldNN w ∉ [0x07#8, 0x0A#8, 0x15#8, 0x18#8, 0x1E#8, 0x29#8, 0x33#8, 0x55#8, 0x65#8] := by
  unfold decodeF
  split_ifs <;> simp [*]

/-- Settles O5: family by family, the Unknown words of the families that have a selector. -/
theorem subSelectorsMatchExactly : Obligations.SubSelectorsMatchExactly := by
  unfold Obligations.SubSelectorsMatchExactly
  intro w
  have hlt := fieldOp_lt w
  unfold decode
  generalize fieldOp w = op at hlt
  unfold decodeFamily
  -- The arms in the decoder's order, as for O3.
  split
  case h_1 => simp [decode0_fault_eq_unknown]
  case h_6 | h_10 => simp
  case h_9 => simp [decode8_eq_unknown]
  case h_15 => simp [decodeE_eq_unknown]
  case h_16 => simp [decodeF_eq_unknown]
  case h_17 => interval_cases op <;> contradiction
  all_goals simp

/-! ### O1: the words of the spec's examples -/

/-- Settles O1, by decoding the eleven words. -/
theorem decodesWordsOfTheSpec : Obligations.DecodesWordsOfTheSpec := by
  unfold Obligations.DecodesWordsOfTheSpec
  decide

end Sys2Proof

namespace Sys2Proof.Machine

/-! ### O6, O9, O8: what a step does with such a word, and without a word -/

/-- Settles O9: the arm of RunsWord for an Unknown word. -/
theorem unknownWordFaultsWithoutEffect : Obligations.UnknownWordFaultsWithoutEffect := by
  unfold Obligations.UnknownWordFaultsWithoutEffect
  intro s left w hready hw hdec
  have hrun := runsWord_of_wordAtPC hready hw
  rwa [RunsWord, hdec] at hrun

/-- SYS nnn does nothing beyond the PC advance (R99). -/
theorem step_of_decode_sys {s : State} {left : Nat} {w : Word} {nnn : Addr} (hready : ReadyToRun s left)
    (hw : WordAtPC s w) (hdec : decode s.params.sysPolicy w = .sys nnn) :
    step s = .next { s with pc := s.pc + 2, phase := .cycle left } := by
  have hrun := runsWord_of_wordAtPC hready hw
  rwa [RunsWord, hdec] at hrun

/-- Settles O6: family 0 compares the whole word, and what is neither of its two words is left to SYS_POLICY. -/
theorem familyZeroFollowsSysPolicy : Obligations.FamilyZeroFollowsSysPolicy := by
  unfold Obligations.FamilyZeroFollowsSysPolicy
  intro w hop hcls hret
  have hdec (pol : Config.SysPolicy) : decode pol w = decode0 pol w := by rw [decode, hop, decodeFamily]
  have hnop : decode .nop w = .sys (fieldNNN w) := by simp [hdec, decode0, hcls, hret]
  exact ⟨by simp [hdec, decode0, hcls, hret], hnop, fun s left hready hw hpol =>
    step_of_decode_sys hready hw (by rw [hpol, hnop])⟩

/-- A fetch without two bytes in range faults before it reads or advances (R90). -/
theorem fetch_of_out_of_range {s : State} (k : Word → State → Result) (hr : memSize ≤ s.pc.toNat + 1) :
    fetch s k = .next (s.raise .memoryOutOfBounds s.pc none (some (fetchFaultAddr s.pc.toNat))) :=
  if_pos hr

/-- Settles O8: the step of a running core is its fetch, which is out of range here. -/
theorem fetchOutOfRangeFaultsPrecisely : Obligations.FetchOutOfRangeFaultsPrecisely := by
  unfold Obligations.FetchOutOfRangeFaultsPrecisely
  rintro s left ⟨hphase, hpaused, hfault⟩ hpc
  rw [step_of_running hphase hpaused hfault]
  exact fetch_of_out_of_range (s := s.setPhase (.cycle left)) _ hpc

end Sys2Proof.Machine
end

section
/-! SUPPORT. The proofs of the statements about execution (spec/40_execution.md): what an instruction writes besides the
registers, the faults of the execute stage, the steps of a cycle, its end, and the key events. -/

namespace Sys2Proof.Machine

/-! ### O38, O40: the frame and the faults of an instruction -/

theorem SameOutside.refl (ps : List Part) (s : State) : SameOutside ps s s := by
  constructor <;> simp

/-- Whether an instruction completes or faults, it changes at most the parts of `partsWritten`, the fault latch and the
phase (R123, R127). -/
theorem exec_sameOutside {i : Instr} {s t : State} (h : exec i s = .next t) :
    SameOutside (partsWritten s i) s { t with fault := s.fault, phase := s.phase } := by
  rcases exec_next h with hc | ⟨k, a, -, rfl⟩
  · exact { hc.sameOutside with fault := rfl, phase := rfl }
  · exact .refl _ s

/-- Settles O38: the frame of an instruction, whose parts are those its rule writes. -/
theorem otherStateChangesOnlyByItsInstructions : Obligations.OtherStateChangesOnlyByItsInstructions := by
  unfold Obligations.OtherStateChangesOnlyByItsInstructions
  intro i s t h
  have hframe := exec_sameOutside h
  refine ⟨fun hldI haddI hldF => hframe.i ?_, fun hcall hret => hframe.stack ?_, fun hldDT => (hframe.dt ?_).1,
    fun hldST => (hframe.st ?_).1, fun hcls hdrw => hframe.fb ?_, fun hldB hldMem a => hframe.byte a ?_,
    fun hldK => hframe.keyWait ?_, fun hrnd hskp hsknp => hframe.draws ?_, hframe.params, hframe.keys, hframe.inbox,
    hframe.outputs⟩
  · cases i with
    | ldI nnn => exact absurd rfl (hldI nnn)
    | addIVx x => exact absurd rfl (haddI x)
    | ldFVx x => exact absurd rfl (hldF x)
    | _ => simp [partsWritten, otherWrites, bytesFrom]
  · cases i with
    | call nnn => exact absurd rfl (hcall nnn)
    | ret => exact absurd rfl hret
    | _ => simp [partsWritten, otherWrites, bytesFrom]
  · cases i with
    | ldDTVx x => exact absurd rfl (hldDT x)
    | _ => simp [partsWritten, otherWrites, bytesFrom]
  · cases i with
    | ldSTVx x => exact absurd rfl (hldST x)
    | _ => simp [partsWritten, otherWrites, bytesFrom]
  · cases i with
    | cls => exact absurd rfl hcls
    | drw x y n => exact absurd rfl (hdrw x y n)
    | _ => simp [partsWritten, otherWrites, bytesFrom]
  · cases i with
    | ldBVx x => exact absurd rfl (hldB x)
    | ldMemVx x => exact absurd rfl (hldMem x)
    | _ => simp [partsWritten, otherWrites]
  · cases i with
    | ldVxK x => exact absurd rfl (hldK x)
    | _ => simp [partsWritten, otherWrites, bytesFrom]
  · cases i with
    | rnd x nn => exact absurd rfl (hrnd x nn)
    | skp x => exact absurd rfl (hskp x)
    | sknp x => exact absurd rfl (hsknp x)
    | _ => simp [partsWritten, otherWrites, bytesFrom]

/-- Settles O40: an instruction that completes latches nothing, so the record is that of a fault it may raise. -/
theorem executeFaultsArePreciseAndListed : Obligations.ExecuteFaultsArePreciseAndListed := by
  unfold Obligations.ExecuteFaultsArePreciseAndListed
  intro i s t r hnone h hsome
  rcases exec_next h with hc | ⟨k, a, hraise, rfl⟩
  · rw [hc.sameOutside.fault, hnone] at hsome
    cases hsome
  · obtain rfl := Option.some.inj hsome
    refine ⟨rfl, rfl, rfl, ?_⟩
    cases i with
    | call | ret => obtain ⟨-, hkind, -⟩ := hraise; exact hkind
    | ldBVx | ldMemVx | ldVxMem => obtain ⟨hkind, -⟩ := hraise; exact hkind
    | drw => exact hraise.imp And.left And.left
    | _ => exact hraise

/-! ### O7, O44: a step within a cycle -/

/-- Settles O7: the arm of RunsWord for an instruction. -/
theorem stepRunsTheDecodedInstruction : Obligations.StepRunsTheDecodedInstruction := by
  unfold Obligations.StepRunsTheDecodedInstruction
  intro s left w i hready hw hdec
  have hrun := runsWord_of_wordAtPC hready hw
  rwa [RunsWord, hdec] at hrun

/-- Within a cycle of a core that is not halted, a step is an iteration of the loop of R130 while one is left. -/
theorem step_of_cycle_succ {s : State} {left : Nat} (hp : s.phase = .cycle (left + 1)) (hf : s.fault = none) :
    step s = iteration left s := by
  simp [step, advanceMachine, hp, State.halted_of_none hf]

/-- When none is left, a step ends the cycle (R130). -/
theorem step_of_cycle_zero {s : State} (hp : s.phase = .cycle 0) (hf : s.fault = none) : step s = .next s.endCycle := by
  simp [step, advanceMachine, hp, State.halted_of_none hf]

theorem iteration_of_paused {s : State} (hw : s.paused = true) (left : Nat) :
    iteration left s = .next (s.setPhase (.cycle left)) :=
  if_pos hw

/-- Settles O44: the step is an iteration, which runs nothing while paused. -/
theorem pausedIterationRunsNoStep : Obligations.PausedIterationRunsNoStep := by
  unfold Obligations.PausedIterationRunsNoStep
  intro s left hp hw hf
  rw [step_of_cycle_succ hp hf, iteration_of_paused hw]

/-! ### O43: the steps of a cycle are the cycle -/

/-- An iteration that latches no fault leaves `left` iterations to run. -/
theorem iteration_phase {left : Nat} {s t : State} (h : iteration left s = .next t) (hf : t.fault = none) :
    t.phase = .cycle left := by
  rcases iteration_next h with ⟨-, rfl⟩ | ⟨-, ⟨-, rfl⟩ | ⟨-, w, ⟨i, -, he⟩ | rfl | rfl⟩⟩
  · rfl
  · simp at hf
  · exact (exec_completes he hf).sameOutside.phase
  · rfl
  · simp at hf

theorem run_one (s : State) : core.run 1 s = step s := by
  cases h : step s with
  | next t => exact run_next core (m := 0) h
  | fault r => exact run_fault core (m := 0) h
  | refused r => exact run_refused core (m := 0) h

theorem finishCycle_succ_of_next {left : Nat} {s t : State} (h : iteration left s = .next t) :
    finishCycle (left + 1) s = if t.halted then .next t else finishCycle left t := by
  simp only [finishCycle, h]

/-- Within a cycle, `left` iterations and the end, or fewer steps when one of them stops or faults, are the rest of the
cycle in one go. -/
theorem run_eq_finishCycle {s : State} {left : Nat} (hp : s.phase = .cycle left) (hf : s.fault = none) :
    ∃ n ≤ left + 1, core.run n s = finishCycle left s := by
  induction left generalizing s with
  | zero => exact ⟨1, le_rfl, (run_one s).trans (step_of_cycle_zero hp hf)⟩
  | succ left ih =>
    have hstep := step_of_cycle_succ hp hf
    cases hi : iteration left s with
    | next t =>
      rw [finishCycle_succ_of_next hi]
      cases hh : t.halted with
      | true => exact ⟨1, by omega, (run_one s).trans (hstep.trans hi)⟩
      | false =>
        have hft := fault_eq_none_of_not_halted hh
        obtain ⟨n, hn, hrun⟩ := ih (iteration_phase hi hft) hft
        exact ⟨n + 1, by omega, (run_next core (hstep.trans hi)).trans hrun⟩
    | fault r => exact ⟨1, by omega, by rw [run_one, hstep, finishCycle, hi]⟩
    | refused r => exact ⟨1, by omega, by rw [run_one, hstep, finishCycle, hi]⟩

/-- An idle core whose host has asked for a cycle, or for nothing, begins one unless it is halted (R51, R312). -/
theorem step_of_idle_cycle {s : State} {rest : List Transaction} (hp : s.phase = .idle)
    (hin : s.inbox = .cycle :: rest ∨ (s.inbox = [] ∧ rest = [])) :
    step s = if s.halted then .next (State.setOutputs [] { s with inbox := rest })
      else .next (State.startCycle { s with inbox := rest }) := by
  have htake : takeTransaction s = doCycle { s with inbox := rest } := by
    rcases hin with hin | ⟨hin, rfl⟩
    · simp only [takeTransaction, hin, transact]
    · have hs : { s with inbox := [] } = s := by rw [← hin]
      rw [hs, takeTransaction, hin, transact]
  simp only [step, advanceMachine, hp, htake, doCycle, State.halted]

/-- Settles O43: the first step begins the cycle or finds the core halted; those after it are the rest of the cycle. -/
theorem stepsOfACycleAreTheCycle : Obligations.StepsOfACycleAreTheCycle := by
  unfold Obligations.StepsOfACycleAreTheCycle
  intro (s : State) rest hp hin
  have hstep := step_of_idle_cycle hp hin
  cases hh : s.halted with
  | true =>
    rw [if_pos hh] at hstep
    exact ⟨1, by omega, (run_one s).trans (hstep.trans (if_pos hh).symm)⟩
  | false =>
    have hh' := Bool.eq_false_iff.mp hh
    rw [if_neg hh'] at hstep
    obtain ⟨n, hn, hrun⟩ := run_eq_finishCycle (s := State.startCycle { s with inbox := rest }) rfl
      (fault_eq_none_of_not_halted hh)
    exact ⟨n + 1, Nat.succ_le_succ hn, (run_next core hstep).trans (hrun.trans (if_neg hh').symm)⟩

/-! ### O45, O47: the end of a cycle -/

theorem toNat_countDown (b : Byte) : (State.countDown b).toNat = b.toNat - 1 := by
  unfold State.countDown
  split
  · simp [*]
  · bv_omega

theorem dt_tick (s : State) : s.tick.dt = if s.paused then s.dt else State.countDown s.dt := by
  unfold State.tick; split <;> rfl

theorem st_tick (s : State) : s.tick.st = if s.paused then s.st else State.countDown s.st := by
  unfold State.tick; split <;> rfl

theorem toNat_dt_tick (s : State) : s.tick.dt.toNat = if s.paused then s.dt.toNat else s.dt.toNat - 1 := by
  rw [dt_tick, apply_ite BitVec.toNat, toNat_countDown]

theorem toNat_st_tick (s : State) : s.tick.st.toNat = if s.paused then s.st.toNat else s.st.toNat - 1 := by
  rw [st_tick, apply_ite BitVec.toNat, toNat_countDown]

theorem toneCommand_eq (s : State) : s.toneCommand = if 0 < s.st.toNat then .toneStart else .toneStop := by
  unfold State.toneCommand
  by_cases h : s.st = 0
  · simp [h]
  · rw [if_neg h, if_pos (by bv_omega)]

/-- All that the end of a cycle writes: the timers, the outputs and the phase (R132 to R134). -/
theorem endCycle_eq (s : State) : s.endCycle = { s with
    dt := s.tick.dt, st := s.tick.st, outputs := [s.tick.toneCommand, .repaint s.fb], phase := .idle } := by
  rw [State.endCycle, tick_rest]
  rfl

/-- Settles O45: the step ends the cycle, which writes the timers, the outputs and the phase. -/
theorem cycleEndTicksAndEmits : Obligations.CycleEndTicksAndEmits := by
  unfold Obligations.CycleEndTicksAndEmits
  intro s hp hf
  have hpaused : s.paused = true → s.tick.dt = s.dt ∧ s.tick.st = s.st := fun hw =>
    ⟨(dt_tick s).trans (if_pos hw), (st_tick s).trans (if_pos hw)⟩
  refine ⟨s.endCycle, step_of_cycle_zero hp hf, ?_⟩
  rw [endCycle_eq, toneCommand_eq]
  exact ⟨toNat_dt_tick s, toNat_st_tick s, rfl, rfl, rfl, hpaused, fun _ => rfl, rfl, rfl, rfl, rfl, rfl, rfl, rfl, rfl, rfl,
    rfl, rfl, rfl, fun _ => rfl⟩

/-- What the outputs and the phase were makes no difference to the end of a cycle. -/
theorem endCycle_setOutputs_setPhase (s : State) (o : List Output) (p : Phase) :
    ((s.setOutputs o).setPhase p).endCycle = s.endCycle := by
  simp only [endCycle_eq, State.toneCommand, dt_tick, st_tick]
  rfl

theorem cycle_eq_finishCycle {s : State} (hf : s.fault = none) : cycle s = finishCycle s.params.speed s.startCycle := by
  simp [cycle, State.halted_of_none hf]

/-- Settles O47: with no iteration to run, the cycle is its end. -/
theorem speedZeroCycleTicksAndEmits : Obligations.SpeedZeroCycleTicksAndEmits := by
  unfold Obligations.SpeedZeroCycleTicksAndEmits
  intro s hspeed hp hf
  have hcycle : cycle s = .next s.endCycle := by
    rw [cycle_eq_finishCycle hf, hspeed, finishCycle, State.startCycle, endCycle_setOutputs_setPhase]
  refine ⟨s.endCycle, hcycle, ?_⟩
  rw [endCycle_eq, toneCommand_eq, ← hp]
  exact ⟨rfl, toNat_dt_tick s, toNat_st_tick s, rfl⟩

/-! ### O46, O49: cycles whose iterations do nothing -/

/-- When a step does nothing but use up an iteration, however many are left, the rest of the cycle is its end. -/
theorem finishCycle_of_still {s : State} (hf : s.fault = none)
    (hstill : ∀ n, step (s.setPhase (.cycle (n + 1))) = .next (s.setPhase (.cycle n))) (left : Nat) :
    finishCycle left (s.setPhase (.cycle left)) = .next (s.setPhase (.cycle 0)).endCycle := by
  induction left with
  | zero => rfl
  | succ left ih =>
    have hi : iteration left (s.setPhase (.cycle (left + 1))) = .next (s.setPhase (.cycle left)) :=
      (step_of_cycle_succ (s := s.setPhase (.cycle (left + 1))) rfl hf).symm.trans (hstill left)
    rw [finishCycle_succ_of_next hi, State.halted_of_none (s := s.setPhase (.cycle left)) hf, ← ih]
    rfl

theorem cycle_of_still {s : State} (hf : s.fault = none)
    (hstill : ∀ n, step ((s.setOutputs []).setPhase (.cycle (n + 1))) = .next ((s.setOutputs []).setPhase (.cycle n))) :
    cycle s = .next s.endCycle := by
  rw [cycle_eq_finishCycle hf, State.startCycle, finishCycle_of_still (s := s.setOutputs []) hf hstill,
    endCycle_setOutputs_setPhase]

/-- Settles O46: no iteration of a paused cycle does anything, and its end does not tick. -/
theorem pausedCycleOnlyEmits : Obligations.PausedCycleOnlyEmits := by
  unfold Obligations.PausedCycleOnlyEmits
  intro s hp hw hf
  have hcycle : cycle s = .next s.endCycle :=
    cycle_of_still hf fun n => pausedIterationRunsNoStep ((s.setOutputs []).setPhase (.cycle (n + 1))) n rfl hw hf
  have htick : s.tick = s := if_pos hw
  rw [hcycle, endCycle_eq, htick, ← hp]
  rfl

/-- The word `1NNN` with nnn = PC decodes to the jump to PC. -/
theorem decode_jumpToPC (pol : Config.SysPolicy) {pc : Word} (h : pc.toNat < memSize) :
    decode pol (BitVec.ofNat 16 (0x1000 + pc.toNat)) = .instr (.jp (pc.setWidth 12)) := by
  have hpc : (pc.setWidth 12).toNat = pc.toNat := by rw [BitVec.toNat_setWidth, Nat.mod_eq_of_lt h]
  have henc : encode (.jp (pc.setWidth 12)) = BitVec.ofNat 16 (0x1000 + pc.toNat) := by rw [encode, formatA, hpc]
  rw [← henc]
  exact decodeOfEncodeIsTheInstruction pol (.jp (pc.setWidth 12)) rfl

/-- In an idle state a step runs the jump to PC, which leaves PC where it was (R140). -/
theorem step_of_idleState {s : State} {left : Nat} (hidle : IdleState s) (hp : s.phase = .cycle (left + 1)) :
    step s = .next (s.setPhase (.cycle left)) := by
  obtain ⟨hf, hw, hword⟩ := hidle
  have hpc : s.pc.toNat < memSize := Nat.lt_of_succ_lt hword.1
  have htarget : (s.pc.setWidth 12).setWidth 16 = s.pc := by
    apply BitVec.eq_of_toNat_eq
    rw [toNat_setWidth_addr, BitVec.toNat_setWidth, Nat.mod_eq_of_lt hpc]
  rw [stepRunsTheDecodedInstruction s left _ _ ⟨hp, hw, hf⟩ hword (decode_jumpToPC _ hpc), exec, execJp, htarget]
  rfl

/-- Settles O49: no iteration of a cycle from an idle state does anything, and its end writes the timers and the outputs. -/
theorem idleStateStaysIdle : Obligations.IdleStateStaysIdle := by
  unfold Obligations.IdleStateStaysIdle
  refine ⟨fun s left hidle hp => step_of_idleState hidle hp, fun s hidle hp => ?_⟩
  obtain ⟨hf, hw, -⟩ := id hidle
  have hcycle : cycle s = .next s.endCycle :=
    cycle_of_still hf fun n => step_of_idleState (s := (s.setOutputs []).setPhase (.cycle (n + 1))) hidle rfl
  have hrun : ¬s.paused = true := by simp [hw]
  refine ⟨s.endCycle, hcycle, ?_⟩
  rw [endCycle_eq]
  exact ⟨hidle, ⟨fun _ => rfl, rfl, rfl, rfl, rfl, rfl, rfl, rfl, rfl, rfl, rfl, rfl, rfl, rfl⟩, rfl,
    (toNat_dt_tick s).trans (if_neg hrun), (toNat_st_tick s).trans (if_neg hrun)⟩

/-! ### O50, O51: key events -/

/-- The levels after KeyDown: the one of k is set (R52). -/
theorem getLsbD_keys_keyLevelUp (k : Key) (s : State) {j : Nat} (hj : j < 16) :
    (s.keyLevelUp k).keys.getLsbD j = (s.keys.getLsbD j || decide (j = k.val)) := by
  simp [State.keyLevelUp, hj]

/-- The levels after KeyUp: the one of k is cleared (R52). -/
theorem getLsbD_keys_keyUp (k : Key) (s : State) {j : Nat} (hj : j < 16) :
    (s.keyUp k).keys.getLsbD j = (s.keys.getLsbD j && decide (j ≠ k.val)) := by
  simp [State.keyUp, hj]

/-- KeyDown on a core that waits for a key and is not halted (R136). -/
theorem keyDown_of_waiting {s : State} {x : Reg} (k : Key) (hf : s.fault = none) (hw : s.paused = true)
    (hx : s.waitReg = some x) : s.keyDown k = ((s.keyLevelUp k).setV x (BitVec.ofNat 8 k.val)).endWait := by
  simp [State.keyDown, State.keyLevelUp, State.halted, hf, hw, hx]

/-- KeyDown on a halted core or one that does not wait (R136, R137, R312). -/
theorem keyDown_of_not_waiting {s : State} (k : Key) (h : s.fault ≠ none ∨ s.paused = false) :
    s.keyDown k = s.keyLevelUp k := by
  rcases keyDown_cases k s with he | ⟨hf, hw, -⟩
  · exact he
  · simp [hf, hw] at h

/-- Settles O50: KeyDown with and without a wait to end. -/
theorem keyDownCompletesTheWait : Obligations.KeyDownCompletesTheWait := by
  unfold Obligations.KeyDownCompletesTheWait
  intro s k
  constructor
  · intro x hf hw hx
    refine ⟨s.keyDown k, rfl, ?_⟩
    rw [keyDown_of_waiting k hf hw hx]
    exact ⟨by simp, fun r hr => by simp [State.keyLevelUp, hr], fun q hq => by simp [State.keyLevelUp, hq],
      fun j hj => getLsbD_keys_keyLevelUp k s hj, rfl⟩
  · intro h
    refine ⟨s.keyDown k, rfl, ?_⟩
    rw [keyDown_of_not_waiting k h]
    exact ⟨rfl, fun j hj => getLsbD_keys_keyLevelUp k s hj⟩

/-- Settles O51: KeyUp writes the levels alone, and so does a KeyDown on the core that the first one has ended the wait of. -/
theorem otherKeyEventsChangeOnlyLevels : Obligations.OtherKeyEventsChangeOnlyLevels := by
  unfold Obligations.OtherKeyEventsChangeOnlyLevels
  intro s k
  refine ⟨⟨s.keyUp k, rfl, rfl, fun j hj => getLsbD_keys_keyUp k s hj⟩, fun x k' hf hw hx => ?_⟩
  have hrun : (s.keyDown k).paused = false := by rw [keyDown_of_waiting k hf hw hx]; rfl
  refine ⟨s.keyDown k, (s.keyDown k).keyDown k', rfl, rfl, ?_⟩
  rw [keyDown_of_not_waiting k' (.inr hrun)]
  refine ⟨rfl, ?_⟩
  rw [keyDown_of_waiting k hf hw hx]
  simp [State.keyLevelUp]

end Sys2Proof.Machine
end

section
/-! SUPPORT. The proofs of the statements about control transfer (spec/41_control_flow.md): the words of the jumps, the call,
the return and the skips, where each leaves PC and the stack, and the two stack faults. -/

namespace Sys2Proof.Machine

/-! ### The words of the instructions -/

/-- The number of an instruction's own encoding decodes to it. -/
theorem encodes_of_encode_eq {i : Instr} {n : Nat} (hwf : i.wf = true) (h : encode i = BitVec.ofNat 16 n) :
    Encodes n i :=
  fun pol => h ▸ decodeOfEncodeIsTheInstruction pol i hwf

/-- In families 5 and 9 the low nibble must be 0 (R155, R156). -/
theorem decode_formatXYN_eq_unknown (pol : Config.SysPolicy) (op : Nat) (x y : Reg) {n : Nat} (hop : op = 5 ∨ op = 9)
    (h0 : 0 < n) (hn : n < 16) :
    decode pol (formatXYN op x y n) = .unknown := by
  have hsel : n ≠ 0 := by omega
  rcases hop with rfl | rfl <;> simp [decode, decodeFamily, hn, hsel]

/-! ### O10, O12, O13: the stack -/

/-- To raise a fault is to latch its record and end the cycle, with A two below PC (R11, R123). -/
theorem faultsWith_of_exec_raiseIn {i : Instr} {s : State} {kind : FaultKind} {addr : Option Nat}
    (h : exec i s = .next (s.raiseIn i kind addr)) : FaultsWith i s kind addr := h

@[simp] theorem State.dropTop_push (s : State) (w : Word) : (s.push w).dropTop = s := by
  simp [State.push, State.dropTop]

/-- RET takes the top of a stack that is not empty into PC (R150). -/
theorem exec_ret_of_getLast? {s : State} {a : Word} (h : s.stack.getLast? = some a) :
    exec .ret s = .next (s.dropTop.setPC a) := by
  simp [exec, execRet, h]

/-- CALL pushes PC where the stack has room and jumps (R152). -/
theorem exec_call_of_room {s : State} (nnn : Addr) (h : s.stack.length < s.params.stackCapacity) :
    exec (.call nnn) s = .next ((s.push s.pc).setPC (nnn.setWidth 16)) :=
  if_pos h

/-- Settles O10: RET on a stack with a top and on the empty stack. -/
theorem retPopsTheReturnAddress : Obligations.RetPopsTheReturnAddress := by
  unfold Obligations.RetPopsTheReturnAddress
  refine ⟨encodes_of_encode_eq rfl rfl, fun s l a hs => ?_, fun s hs => ?_⟩
  · refine ⟨s.dropTop.setPC a, exec_ret_of_getLast? (by simp [hs]), rfl, by simp [hs], ?_⟩
    exact ((SameOutside.dropTop s).trans (.setPC ..)).mono (by simp)
  · exact faultsWith_of_exec_raiseIn (by simp [exec, execRet, hs])

/-- Settles O12: CALL below the capacity of the stack and at it. -/
theorem callPushesTheReturnAddress : Obligations.CallPushesTheReturnAddress := by
  unfold Obligations.CallPushesTheReturnAddress
  refine fun nnn => ⟨encodes_of_encode_eq rfl rfl, fun s hroom => ?_, fun s hfull => ?_⟩
  · refine ⟨_, exec_call_of_room nnn hroom, toNat_setWidth_addr nnn, rfl, ?_⟩
    exact ((SameOutside.push ..).trans (.setPC ..)).mono (by simp)
  · exact faultsWith_of_exec_raiseIn (if_neg (Nat.not_lt.mpr hfull.ge))

/-- Settles O13: the top that RET takes is the PC that CALL has pushed, and under it is the stack as it was. -/
theorem returnUndoesCall : Obligations.ReturnUndoesCall := by
  unfold Obligations.ReturnUndoesCall
  intro nnn s pc' hroom
  refine ⟨_, _, exec_call_of_room nnn hroom, exec_ret_of_getLast? (a := s.pc) (by simp), ?_⟩
  change (s.push s.pc).dropTop.setPC s.pc = s
  rw [State.dropTop_push]
  rfl

/-! ### O11, O16: the jumps -/

/-- Settles O11: the 12-bit address fits in PC. -/
theorem jpSetsPC : Obligations.JpSetsPC := by
  unfold Obligations.JpSetsPC
  exact fun nnn => ⟨encodes_of_encode_eq rfl rfl, fun s => ⟨_, rfl, toNat_setWidth_addr nnn, .setPC ..⟩⟩

/-- Settles O16: the sum of the address and V0 fits in PC. -/
theorem jpV0AddsV0 : Obligations.JpV0AddsV0 := by
  unfold Obligations.JpV0AddsV0
  exact fun nnn => ⟨encodes_of_encode_eq rfl rfl, fun s a ha =>
    ⟨_, withV_some _ ha, toNat_jumpV0Target nnn a, .setPC ..⟩⟩

/-! ### O14, O15: the skips -/

/-- Two registers that hold values are read one after the other. -/
theorem withV_withV_some {x y : Reg} {s : State} {a b : Byte} (k : Byte → Byte → Result) (ha : s.getV x = some a)
    (hb : s.getV y = some b) : (withV x s fun a' => withV y s fun b' => k a' b') = k a b := by
  rw [withV_some _ ha, withV_some _ hb]

/-- An instruction that answers a conditional skip moves PC two further exactly when its condition holds, and changes nothing
else (R158). -/
theorem exists_skip_of_exec {i : Instr} {s : State} {c : Bool} {p : Prop} [Decidable p]
    (h : exec i s = .next (s.skipIf c)) (hc : c = true ↔ p) :
    ∃ t, exec i s = .next t ∧ t.pc = (if p then s.pc + 2 else s.pc) ∧ SameOutside [.pc] s t :=
  ⟨_, h, by simp [hc], .skipIf s c⟩

/-- Settles O14: each skip compares the register with the immediate. -/
theorem skipsOnImmediate : Obligations.SkipsOnImmediate := by
  unfold Obligations.SkipsOnImmediate
  exact fun x nn => ⟨encodes_of_encode_eq rfl rfl, encodes_of_encode_eq rfl rfl, fun s a ha =>
    ⟨exists_skip_of_exec (withV_some _ ha) beq_iff_eq, exists_skip_of_exec (withV_some _ ha) bne_iff_ne⟩⟩

/-- Settles O15: each skip compares the two registers, and the decoder lets no low nibble but 0 through. -/
theorem skipsOnRegisters : Obligations.SkipsOnRegisters := by
  unfold Obligations.SkipsOnRegisters
  refine fun x y => ⟨encodes_of_encode_eq rfl rfl, encodes_of_encode_eq rfl rfl, fun pol n h0 hn => ?_,
    fun s a b ha hb => ?_⟩
  · exact ⟨decode_formatXYN_eq_unknown pol 5 x y (.inl rfl) h0 hn,
      decode_formatXYN_eq_unknown pol 9 x y (.inr rfl) h0 hn⟩
  · exact ⟨exists_skip_of_exec (withV_withV_some _ ha hb) beq_iff_eq,
      exists_skip_of_exec (withV_withV_some _ ha hb) bne_iff_ne⟩

end Sys2Proof.Machine
end

section
/-! SUPPORT. The proofs of the statements about register arithmetic and logic (spec/42_alu.md): the words of the two-register
instructions, what Vx and VF hold after a write, and the model's results and flags as numbers. -/

namespace Sys2Proof.Machine

/-! ### The words of the two-register instructions -/

/-- The number of a format XY with the selector beside the family's nibble, as the opcode map lists it (R96). -/
theorem formatXYN_eq_ofNat (op : Nat) (x y : Reg) (n : Nat) :
    formatXYN op x y n = BitVec.ofNat 16 (op * 4096 + n + x.val * 256 + y.val * 16) :=
  congrArg (BitVec.ofNat 16) (by omega)

/-! ### What an instruction that writes one register leaves -/

section
variable {i : Instr} {s : State} {x : Reg} {r f r' f' : Byte}

theorem exists_setV_of_exec (h : exec i s = .next (s.setV x r)) :
    ∃ t, exec i s = .next t ∧ t.getV x = some r ∧ SameOutside [.v x] s t :=
  ⟨_, h, by simp, .setV ..⟩

theorem exists_setV_result_of_exec {P : Byte → Prop} (h : exec i s = .next (s.setV x r)) (hr : P r) :
    ∃ t r, exec i s = .next t ∧ t.getV x = some r ∧ SameOutside [.v x] s t ∧ P r :=
  let ⟨t, he, hx, hs⟩ := exists_setV_of_exec h
  ⟨t, r, he, hx, hs, hr⟩

/-- The two writes leave the result and the flag apart in Vx and VF, and for x = F the one that is written last (R128). -/
theorem resultAndFlag_writeResultAndFlag (x : Reg) (r f : Byte) (s : State) :
    ResultAndFlag x r f s (writeResultAndFlag x r f s) := by
  refine ⟨fun hx => ?_, fun hx => ?_⟩
  · simp [getV_writeResultAndFlag, hx, Ne.symm hx]
  · cases hl : s.params.flagLast <;> simp [getV_writeResultAndFlag, hx, hl]

theorem exists_resultAndFlag_of_exec (h : exec i s = .next (writeResultAndFlag x r f s)) (hr : r = r') (hf : f = f') :
    ∃ t, exec i s = .next t ∧ ResultAndFlag x r' f' s t ∧ SameOutside [.v x, .v .VF] s t :=
  ⟨_, h, hr ▸ hf ▸ resultAndFlag_writeResultAndFlag .., .writeResultAndFlag ..⟩

end

/-! ### The results and the flags as numbers (R24, R194) -/

theorem add_eq_ofNat_mod (a b : Byte) : a + b = BitVec.ofNat 8 ((a.toNat + b.toNat) % 256) :=
  BitVec.eq_of_toNat_eq (by simp)

theorem sub_eq_ofInt (a b : Byte) : a - b = BitVec.ofInt 8 ((a.toNat : Int) - b.toNat) := by
  apply BitVec.eq_of_toNat_eq
  rw [BitVec.toNat_sub, BitVec.toNat_ofInt]
  omega

theorem shiftRight_one_eq_ofNat (v : Byte) : v >>> 1 = BitVec.ofNat 8 (v.toNat / 2) :=
  BitVec.eq_of_toNat_eq (by simp [Nat.shiftRight_eq_div_pow]; omega)

theorem shiftLeft_one_eq_ofNat (v : Byte) : v <<< 1 = BitVec.ofNat 8 (v.toNat * 2 % 256) :=
  BitVec.eq_of_toNat_eq (by simp [Nat.shiftLeft_eq])

theorem flagByte_decide (p : Prop) [Decidable p] : flagByte (decide p) = if p then 1 else 0 := by
  simp [flagByte]

theorem flagByte_getLsbD (v : Byte) (k : Nat) : flagByte (v.getLsbD k) = BitVec.ofNat 8 (v.toNat / 2 ^ k % 2) := by
  rw [BitVec.getLsbD, Nat.testBit_eq_decide_div_mod_eq, flagByte_decide]
  rcases Nat.mod_two_eq_zero_or_one (v.toNat / 2 ^ k) with h | h <;> simp [h]

theorem shrFlag_eq_ofNat (v : Byte) : shrFlag v = BitVec.ofNat 8 (v.toNat % 2) := by
  rw [shrFlag, flagByte_getLsbD, Nat.pow_zero, Nat.div_one]

theorem shlFlag_eq_ofNat (v : Byte) : shlFlag v = BitVec.ofNat 8 (v.toNat / 128) :=
  (flagByte_getLsbD v 7).trans (congrArg _ (Nat.mod_eq_of_lt (by omega)))

theorem shiftReg_eq (s : State) (x y : Reg) : shiftReg s x y = if s.params.shiftSrc = .vx then x else y := by
  cases h : s.params.shiftSrc <;> simp [shiftReg, h]

/-! ### O19, O20, O21: the instructions that set a flag -/

/-- Settles O19: the carry is the 9-bit sum's excess over 255. -/
theorem addSetsCarry : Obligations.AddSetsCarry := by
  unfold Obligations.AddSetsCarry
  refine fun x y => ⟨encodes_of_encode_eq rfl (formatXYN_eq_ofNat 8 x y 4), fun s a b ha hb => ?_⟩
  exact exists_resultAndFlag_of_exec (withV_withV_some _ ha hb) (add_eq_ofNat_mod a b) (flagByte_decide _)

/-- Settles O20: SUB and SUBN take the same difference and the same flag, with the operands changed over. -/
theorem subtractsSetNoBorrow : Obligations.SubtractsSetNoBorrow := by
  unfold Obligations.SubtractsSetNoBorrow
  refine fun x y => ⟨encodes_of_encode_eq rfl (formatXYN_eq_ofNat 8 x y 5),
    encodes_of_encode_eq rfl (formatXYN_eq_ofNat 8 x y 7), fun s a b ha hb => ⟨?_, ?_⟩⟩
  · exact exists_resultAndFlag_of_exec (withV_withV_some _ ha hb) (sub_eq_ofInt a b) (flagByte_decide _)
  · exact exists_resultAndFlag_of_exec (withV_withV_some _ ha hb) (sub_eq_ofInt b a) (flagByte_decide _)

/-- Settles O21: both shifts read the register SHIFT_SRC names, and the flag is the bit that the result has lost. -/
theorem shiftsKeepTheBitShiftedOut : Obligations.ShiftsKeepTheBitShiftedOut := by
  unfold Obligations.ShiftsKeepTheBitShiftedOut
  refine fun x y => ⟨encodes_of_encode_eq rfl (formatXYN_eq_ofNat 8 x y 6),
    encodes_of_encode_eq rfl (formatXYN_eq_ofNat 8 x y 0xE), fun s v hv => ?_⟩
  rw [← shiftReg_eq] at hv
  exact ⟨exists_resultAndFlag_of_exec (withV_some _ hv) (shiftRight_one_eq_ofNat v) (shrFlag_eq_ofNat v),
    exists_resultAndFlag_of_exec (withV_some _ hv) (shiftLeft_one_eq_ofNat v) (shlFlag_eq_ofNat v)⟩

/-! ### O17, O18, O22: the instructions that set none -/

/-- Settles O17: both write Vx alone, with no flag. -/
theorem immediateLoadAndAdd : Obligations.ImmediateLoadAndAdd := by
  unfold Obligations.ImmediateLoadAndAdd
  refine fun x nn => ⟨encodes_of_encode_eq rfl rfl, encodes_of_encode_eq rfl rfl, fun s => ?_, fun s a ha => ?_⟩
  · exact exists_setV_of_exec rfl
  · rw [← add_eq_ofNat_mod]
    exact exists_setV_of_exec (withV_some _ ha)

/-- Settles O18: the operations on bit vectors are bitwise. -/
theorem copyAndLogic : Obligations.CopyAndLogic := by
  unfold Obligations.CopyAndLogic
  refine fun x y => ⟨encodes_of_encode_eq rfl rfl, encodes_of_encode_eq rfl (formatXYN_eq_ofNat 8 x y 1),
    encodes_of_encode_eq rfl (formatXYN_eq_ofNat 8 x y 2), encodes_of_encode_eq rfl (formatXYN_eq_ofNat 8 x y 3),
    fun s b hb => exists_setV_of_exec (withV_some _ hb), fun s a b ha hb => ⟨?_, ?_, ?_⟩⟩
  · exact exists_setV_result_of_exec (withV_withV_some _ ha hb) fun _ _ => BitVec.getLsbD_or
  · exact exists_setV_result_of_exec (withV_withV_some _ ha hb) fun _ _ => BitVec.getLsbD_and
  · exact exists_setV_result_of_exec (withV_withV_some _ ha hb) fun _ _ => BitVec.getLsbD_xor

/-- Settles O22: the mask is the only thing RND does to the draw, so a mask of 0 leaves 0 of any draw. -/
theorem rndMasksTheDraw : Obligations.RndMasksTheDraw := by
  unfold Obligations.RndMasksTheDraw
  refine fun x nn => ⟨encodes_of_encode_eq rfl rfl, fun s => ?_⟩
  refine ⟨s.tookDraw.setV x (Config.randDraw s.draws &&& nn), rfl, by simp, by simp, fun h0 => by simp [h0], ?_⟩
  exact ((SameOutside.tookDraw s).trans (.setV ..)).mono (by simp)

end Sys2Proof.Machine
end

section
/-! SUPPORT. The proofs of the statements about the index register and memory transfer (spec/43_index_memory.md): the words of
the family, the writers of I, the range test that faults, and the transfer between V0..Vx and the bytes from I on. -/

namespace Sys2Proof.Machine

/-! ### The words of the instructions -/

/-- The number of a format XK with the byte beside the family's nibble, as the opcode map lists the selectors of family F
(R96). -/
theorem formatXK_eq_ofNat (op : Nat) (x : Reg) (nn : Byte) :
    formatXK op x nn = BitVec.ofNat 16 (op * 4096 + nn.toNat + x.val * 256) :=
  congrArg (BitVec.ofNat 16) (Nat.add_right_comm ..)

/-! ### The range test and the bytes a store leaves -/

/-- An instruction whose range test meets an address of 4096 or more takes MemoryOutOfBounds and does nothing else (R62,
R123). -/
theorem faultsWith_of_checkRange {i : Instr} {s : State} {base n : Nat} {k : Result}
    (h : exec i s = checkRange i base (n + 1) s k) (hr : memSize ≤ base + n) :
    FaultsWith i s .memoryOutOfBounds (some (max base memSize)) :=
  faultsWith_of_exec_raiseIn (h.trans (checkRange_fault k n.succ_pos (by omega)))

/-- After a store from `base` on, the byte at place j is the stored one (R68, R75). -/
theorem byte_add_setBytes (s : State) (base : Nat) {bs : List Byte} {j : Nat} (hj : j < bs.length) :
    (s.setBytes base bs).byte (base + j) = bs[j]? := by
  rw [State.byte_setBytes, if_pos (by omega), Nat.add_sub_cancel_left]

/-! ### O24: the decimal digits -/

/-- Settles O24: the three digits go to I, I + 1 and I + 2, or the range test of three bytes faults. -/
theorem bcdStoresThreeDigits : Obligations.BcdStoresThreeDigits := by
  unfold Obligations.BcdStoresThreeDigits
  refine fun x => ⟨encodes_of_encode_eq rfl (formatXK_eq_ofNat 0xF x 0x33), fun s a w ha hw =>
    ⟨fun hr => ?_, fun hr => ?_⟩⟩
  · exact ⟨_, exec_ldBVx_of_inRange hw hr ha, byte_add_setBytes s w.toNat (j := 0) (by simp),
      byte_add_setBytes s w.toNat (j := 1) (by simp), byte_add_setBytes s w.toNat (j := 2) (by simp),
      .setBytes s w.toNat (bcdDigits a)⟩
  · exact faultsWith_of_checkRange ((withV_some _ ha).trans (withI_some _ hw)) hr

/-! ### O25, O26, O27: the block transfers -/

section
variable {s : State} {w : Word} {x : Reg}

/-- FX55 in range leaves Vr in byte I + r for r ≤ x (R224). -/
theorem exists_blockStore (hw : s.getI = some w) (hr : w.toNat + x.val < memSize) (hv : ∀ r ≤ x, (s.getV r).isSome) :
    ∃ t, exec (.ldMemVx x) s = .next t ∧ (∀ r ≤ x, t.byte (w.toNat + r.val) = s.getV r) ∧
      SameOutside (bytesFrom w.toNat (x.val + 1)) s t := by
  obtain ⟨bs, hlen, hbs, hexec⟩ := exec_ldMemVx_of_inRange hw hr hv
  refine ⟨_, hexec, fun r hrx => ?_, hlen ▸ .setBytes s w.toNat bs⟩
  have hrx : r.val < x.val + 1 := Nat.lt_succ_of_le hrx
  rw [byte_add_setBytes s w.toNat (hlen ▸ hrx), hbs _ hrx, Fin.ofNat_val_eq_self]

/-- FX65 in range writes the bytes from I on, in their order, to V0..Vx (R225). -/
theorem exec_ldVxMem_of_inRange (hw : s.getI = some w) (hr : w.toNat + x.val < memSize)
    (hb : ∀ j ≤ x.val, (s.byte (w.toNat + j)).isSome) :
    ∃ bs : List Byte, bs.length = x.val + 1 ∧ (∀ j < x.val + 1, s.byte (w.toNat + j) = bs[j]?) ∧
      exec (.ldVxMem x) s = .next (s.setVs ((regsUpTo x).zip bs)) := by
  have hexec : exec (.ldVxMem x) s =
      withBytes w.toNat (x.val + 1) s fun bs => .next (s.setVs ((regsUpTo x).zip bs)) :=
    (withI_some _ hw).trans (checkRange_pass _ (.inr (by omega)))
  rcases withBytes_cases hexec.symm with ⟨bs, hlen, hbs, hnext⟩ | ⟨j, hj, hnone, -⟩
  · exact ⟨bs, hlen, hbs, hnext.symm⟩
  · have := hb j (by omega)
    simp [hnone] at this

theorem map_fst_zip_regsUpTo {bs : List Byte} (hlen : bs.length = x.val + 1) :
    ((regsUpTo x).zip bs).map Prod.fst = regsUpTo x :=
  List.map_fst_zip (by simp [hlen])

/-- Of the values written to V0..Vx in order, Vr gets the one at place r. -/
theorem getV_setVs_zip_regsUpTo (s : State) {bs : List Byte} (hlen : bs.length = x.val + 1) {r : Reg} (hr : r ≤ x) :
    (s.setVs ((regsUpTo x).zip bs)).getV r = bs[r.val]? := by
  have hlt : r.val < bs.length := hlen ▸ Nat.lt_succ_of_le hr
  have hmem : (r, bs[r.val]) ∈ (regsUpTo x).zip bs :=
    List.mem_of_getElem? (List.getElem?_zip_eq_some.mpr ⟨getElem?_regsUpTo x r hr, List.getElem?_eq_getElem hlt⟩)
  rw [List.getElem?_eq_getElem hlt]
  exact State.getV_setVs_of_mem _ s r _ (by rw [map_fst_zip_regsUpTo hlen]; exact regsUpTo_nodup x) hmem

/-- FX65 in range leaves byte I + r in Vr for r ≤ x (R225). -/
theorem exists_blockLoad (hw : s.getI = some w) (hr : w.toNat + x.val < memSize)
    (hb : ∀ j ≤ x.val, (s.byte (w.toNat + j)).isSome) :
    ∃ t, exec (.ldVxMem x) s = .next t ∧ (∀ r ≤ x, t.getV r = s.byte (w.toNat + r.val)) ∧
      SameOutside ((regsUpTo x).map .v) s t := by
  obtain ⟨bs, hlen, hbs, hexec⟩ := exec_ldVxMem_of_inRange hw hr hb
  refine ⟨_, hexec, fun r hrx => ?_, ?_⟩
  · rw [getV_setVs_zip_regsUpTo s hlen hrx, hbs _ (Nat.lt_succ_of_le hrx)]
  · have hframe := SameOutside.setVs s ((regsUpTo x).zip bs)
    rwa [map_fst_zip_regsUpTo hlen] at hframe

end

/-- Settles O25: the range test of x + 1 bytes faults, or it lets the store through. -/
theorem blockStoreWritesTheRange : Obligations.BlockStoreWritesTheRange := by
  unfold Obligations.BlockStoreWritesTheRange
  exact fun x => ⟨encodes_of_encode_eq rfl (formatXK_eq_ofNat 0xF x 0x55), fun s w hw =>
    ⟨exists_blockStore hw, faultsWith_of_checkRange (withI_some _ hw)⟩⟩

/-- Settles O26: the range test of x + 1 bytes faults, or it lets the load through. -/
theorem blockLoadReadsTheRange : Obligations.BlockLoadReadsTheRange := by
  unfold Obligations.BlockLoadReadsTheRange
  exact fun x => ⟨encodes_of_encode_eq rfl (formatXK_eq_ofNat 0xF x 0x65), fun s w hw =>
    ⟨exists_blockLoad hw, faultsWith_of_checkRange (withI_some _ hw)⟩⟩

/-- Settles O27: the load reads from I on the bytes that the store has left there, and each of them holds a value. -/
theorem blockLoadUndoesBlockStore : Obligations.BlockLoadUndoesBlockStore := by
  unfold Obligations.BlockLoadUndoesBlockStore
  intro x s w hw hr hv
  obtain ⟨t, hexec, hbytes, -⟩ := exists_blockStore hw hr hv
  refine ⟨t, hexec, fun u hu hparams hmem => ?_⟩
  have hstored : ∀ r ≤ x, u.byte (w.toNat + r.val) = s.getV r := fun r hrx =>
    (State.byte_congr _ hparams hmem).trans (hbytes r hrx)
  have hholds : ∀ j ≤ x.val, (u.byte (w.toNat + j)).isSome := fun j hj =>
    have hrx : (⟨j, by omega⟩ : Reg) ≤ x := hj
    hstored _ hrx ▸ hv _ hrx
  obtain ⟨v, hload, hregs, -⟩ := exists_blockLoad hu hr hholds
  exact ⟨v, hload, fun r hrx => (hregs r hrx).trans (hstored r hrx)⟩

/-! ### O23: the writers of I -/

/-- An instruction that writes I leaves its value there and changes nothing else, VF included (R220, R221, R222). -/
theorem exists_setI_of_exec {i : Instr} {s : State} {w : Word} {n : Nat} (h : exec i s = .next (s.setI w))
    (hn : w.toNat = n) : ∃ t w', exec i s = .next t ∧ t.getI = some w' ∧ w'.toNat = n ∧ SameOutside [.i] s t :=
  ⟨_, w, h, by simp, hn, .setI ..⟩

/-- The sum of I and a register is reduced at 16 bits, not at 12 (R221). -/
theorem toNat_add_setWidth (w : Word) (a : Byte) : (w + a.setWidth 16).toNat = (w.toNat + a.toNat) % 65536 := by
  rw [BitVec.toNat_add, BitVec.toNat_setWidth, Nat.add_mod_mod]

/-- The glyph address is five times the low nibble, which fits in I (R222). -/
theorem toNat_glyphAddr (a : Byte) :
    (BitVec.ofNat 16 (5 * (a.toNat % 16))).toNat = 5 * (a &&& 0x0F#8).toNat := by
  have hnibble : (a &&& 0x0F#8).toNat = a.toNat % 16 := Nat.and_two_pow_sub_one_eq_mod a.toNat 4
  rw [hnibble, BitVec.toNat_ofNat]
  omega

/-- Settles O23: each of the three writes I alone. -/
theorem indexRegisterWriters : Obligations.IndexRegisterWriters := by
  unfold Obligations.IndexRegisterWriters
  constructor
  · exact fun nnn => ⟨encodes_of_encode_eq rfl rfl, fun s => exists_setI_of_exec rfl (toNat_setWidth_addr nnn)⟩
  · refine fun x => ⟨encodes_of_encode_eq rfl (formatXK_eq_ofNat 0xF x 0x1E),
      encodes_of_encode_eq rfl (formatXK_eq_ofNat 0xF x 0x29), fun s a ha => ⟨fun w hw => ?_, ?_⟩⟩
    · exact exists_setI_of_exec ((withV_some _ ha).trans (withI_some _ hw)) (toNat_add_setWidth w a)
    · exact exists_setI_of_exec (withV_some _ ha) (toNat_glyphAddr a)

end Sys2Proof.Machine
end

section
/-! SUPPORT. The proofs of the statements about the framebuffer (spec/44_display.md): where a raw coordinate pair plots, the
plots of one sprite as a list of distinct cells, and what a draw leaves of the cells and of VF. -/

namespace Sys2Proof.Machine

/-! ### O28: the clear -/

/-- Settles O28: the framebuffer that CLS writes has no cell set. -/
theorem clsClearsEveryCell : Obligations.ClsClearsEveryCell := by
  unfold Obligations.ClsClearsEveryCell
  exact ⟨encodes_of_encode_eq rfl rfl, fun s => ⟨_, rfl, cellOf_clear, .setFB ..⟩⟩

/-! ### O31: where a raw coordinate pair plots -/

/-- One subtraction, only when strictly greater (R252). -/
theorem wrapOnce_cases (dim c : Nat) :
    (c ≤ dim ∧ wrapOnce dim c = c) ∨ (dim < c ∧ wrapOnce dim c = c - dim) := by
  unfold wrapOnce
  split <;> omega

/-- A coordinate up to twice the dimension is not wrapped a second time (R252). -/
theorem wrapOnce_sub {dim c : Nat} (h : dim < c) (h' : c ≤ 2 * dim) : wrapOnce dim (c - dim) = wrapOnce dim c := by
  have := wrapOnce_cases dim c
  have := wrapOnce_cases dim (c - dim)
  omega

/-- A plot depends on its row only through the wrapped row (R252). -/
theorem plotIndex_congr_row {Y Y' : Nat} (mode : Config.PlotAlias) (X : Nat) (h : wrapOnce 32 Y = wrapOnce 32 Y') :
    plotIndex mode X Y = plotIndex mode X Y' := by
  simp only [plotIndex, h]

theorem plotIndex_linear_eq_none {X Y : Nat} :
    plotIndex .linear X Y = none ↔ fbSize ≤ wrapOnce 64 X + 64 * wrapOnce 32 Y := by
  simp [plotIndex]

theorem plotIndex_fault_eq_none {X Y : Nat} :
    plotIndex .fault X Y = none ↔ 64 ≤ wrapOnce 64 X ∨ 32 ≤ wrapOnce 32 Y := by
  simp only [plotIndex, ite_eq_right_iff, reduceCtorEq, imp_false]
  omega

/-- Settles O31: two of the rows say that a coordinate and what is left of it plot alike, the others are the arithmetic of
the index and its bounds. -/
theorem plotIndexLandsWhereTheTablesSay : Obligations.PlotIndexLandsWhereTheTablesSay := by
  unfold Obligations.PlotIndexLandsWhereTheTablesSay
  intro X Y hX hY
  have hrow (mode) (h : 33 ≤ Y) (h' : Y ≤ 63) : plotIndex mode X Y = plotIndex mode X (Y - 32) :=
    plotIndex_congr_row mode X (wrapOnce_sub h (by omega)).symm
  have hwx := wrapOnce_cases 64 X
  have hwy := wrapOnce_cases 32 Y
  simp only [plotIndex_linear, plotIndex_linear_eq_none, plotIndex_fault, plotIndex_fault_eq_none, fbSize]
  refine ⟨?_, ?_, ?_, ?_, hrow .linear, ?_, ?_, ?_, ?_, ?_, ?_, ?_, hrow .fault⟩
  all_goals omega

/-! ### O32: the plots of one draw -/

/-- The wrap takes off the dimension or nothing. -/
theorem wrapOnce_mod (dim c : Nat) : wrapOnce dim c % dim = c % dim := by
  rcases wrapOnce_cases dim c with ⟨-, h⟩ | ⟨hlt, h⟩
  · rw [h]
  · rw [h, ← Nat.mod_eq_sub_mod hlt.le]

/-- A plot that is not OUT lands at the wrapped coordinates, under either PLOT_ALIAS (R252). -/
theorem wrapped_eq_of_plotIndex {mode : Config.PlotAlias} {X Y k : Nat} (h : plotIndex mode X Y = some k) :
    wrapOnce 64 X + 64 * wrapOnce 32 Y = k := by
  cases mode
  · exact (plotIndex_linear.mp h).1
  · exact (plotIndex_fault.mp h).1

/-- Two plots that reach one cell agree in the column modulo 64, hence in the wrapped row, hence in the row modulo 32
(R258). -/
theorem point_eq_of_plotIndex_eq {mode : Config.PlotAlias} {X0 Y0 r c r' c' k : Nat} (hr : r < 15) (hr' : r' < 15)
    (hc : c < 8) (hc' : c' < 8) (h : plotIndex mode (X0 + c) (Y0 + r) = some k)
    (h' : plotIndex mode (X0 + c') (Y0 + r') = some k) : r = r' ∧ c = c' := by
  have hindex := (wrapped_eq_of_plotIndex h).trans (wrapped_eq_of_plotIndex h').symm
  have hcol : c = c' := by
    have := wrapOnce_mod 64 (X0 + c)
    have := wrapOnce_mod 64 (X0 + c')
    omega
  have hwrapped : wrapOnce 32 (Y0 + r) = wrapOnce 32 (Y0 + r') := by
    rw [hcol] at hindex
    omega
  have hrow : (Y0 + r) % 32 = (Y0 + r') % 32 := by
    rw [← wrapOnce_mod 32 (Y0 + r), hwrapped, wrapOnce_mod]
  exact ⟨by omega, hcol⟩

/-- Settles O32: the start coordinates need no bound. -/
theorem plotsOfOneDrawAreDistinct : Obligations.PlotsOfOneDrawAreDistinct := by
  unfold Obligations.PlotsOfOneDrawAreDistinct
  exact fun mode X0 Y0 r c r' c' k _ _ hr hr' hc hc' => point_eq_of_plotIndex_eq hr hr' hc hc'

/-! ### The cells that a sprite plots -/

/-- The cells that the set bits of a sprite with rows row 0 .. row (n - 1) plot, in the order of the plots (R251). -/
def plottedCells (mode : Config.PlotAlias) (X0 Y0 n : Nat) (row : Nat → Byte) : List Nat :=
  (spritePlots mode X0 Y0 ((List.range n).map row)).filterMap id

section
variable {mode : Config.PlotAlias} {X0 Y0 n : Nat} {row : Nat → Byte}

/-- The plots of a sprite given by its rows (R251). -/
theorem mem_spritePlots_map_range {o : Option Nat} :
    o ∈ spritePlots mode X0 Y0 ((List.range n).map row) ↔
      ∃ r c, r < n ∧ c < 8 ∧ (row r).getLsbD (7 - c) = true ∧ plotIndex mode (X0 + c) (Y0 + r) = o := by
  rw [mem_spritePlots]
  refine exists_congr fun r => exists_congr fun c => ⟨fun ⟨b, hb, h⟩ => ?_, fun ⟨hr, h⟩ => ⟨row r, by simp [hr], h⟩⟩
  obtain ⟨hr, rfl⟩ : r < n ∧ row r = b := by simpa [List.getElem?_eq_some_iff] using hb
  exact ⟨hr, h⟩

/-- The draw's test for OUT finds the set bits that plot to OUT (R251). -/
theorem any_isNone_spritePlots :
    (spritePlots mode X0 Y0 ((List.range n).map row)).any Option.isNone = true ↔ PlotsOut mode X0 Y0 n row := by
  rw [PlotsOut, ← mem_spritePlots_map_range]
  simp

theorem mem_plottedCells {k : Nat} : k ∈ plottedCells mode X0 Y0 n row ↔ Plotted mode X0 Y0 n row k := by
  rw [Plotted, ← mem_spritePlots_map_range, plottedCells]
  simp

theorem lt_of_mem_plottedCells {k : Nat} (h : k ∈ plottedCells mode X0 Y0 n row) : k < fbSize := by
  obtain ⟨r, c, -, -, -, hk⟩ := mem_plottedCells.mp h
  exact plotIndex_lt hk

/-- No cell is plotted twice in one draw (R258). -/
theorem nodup_plottedCells (hn : n ≤ 15) : (plottedCells mode X0 Y0 n row).Nodup := by
  have hpoint {p : Nat × Nat} (hp : p ∈ spritePoints 0 ((List.range n).map row)) : p.1 < 15 ∧ p.2 < 8 := by
    obtain ⟨-, hc, b, hb, -⟩ := (mem_spritePoints ..).mp hp
    have hr : p.1 < n := by simpa using (List.getElem?_eq_some_iff.mp hb).1
    exact ⟨by omega, hc⟩
  rw [plottedCells, spritePlots, List.filterMap_map, List.Nodup, List.pairwise_filterMap]
  refine (spritePoints_nodup _ 0).imp_of_mem fun {p q} hp hq hne k hk k' hk' hkk => hne ?_
  obtain ⟨hrp, hcp⟩ := hpoint hp
  obtain ⟨hrq, hcq⟩ := hpoint hq
  obtain ⟨hrow, hcol⟩ := point_eq_of_plotIndex_eq hrp hrq hcp hcq hk (hkk ▸ hk')
  exact Prod.ext hrow hcol

end

/-! ### What the plots leave of the cells and of VF -/

theorem flagByte_eq_one {c : Bool} : flagByte c = 1 ↔ c = true := by
  cases c <;> simp [flagByte]

theorem flagByte_eq_one_or_zero (c : Bool) : flagByte c = 1 ∨ flagByte c = 0 := by
  cases c <;> simp [flagByte]

/-- The state after a draw that plots these cells: the cells turned over, and the collision in VF (R251, R254). -/
def State.afterPlots (ks : List Nat) (s : State) : State :=
  (s.setV .VF (flagByte (plotCells ks s.fb false).2)).setFB (plotCells ks s.fb false).1

section
variable {ks : List Nat} (s : State)

theorem getV_VF_afterPlots : (s.afterPlots ks).getV .VF = some (flagByte (plotCells ks s.fb false).2) := by
  simp [State.afterPlots]

theorem sameOutside_afterPlots : SameOutside [.v .VF, .fb] s (s.afterPlots ks) :=
  ((SameOutside.setV ..).trans (.setFB ..)).mono (by simp)

theorem getV_VF_afterPlots_eq_one_or_zero :
    (s.afterPlots ks).getV .VF = some 1 ∨ (s.afterPlots ks).getV .VF = some 0 := by
  rw [getV_VF_afterPlots]
  exact (flagByte_eq_one_or_zero _).imp (congrArg some) (congrArg some)

variable (hd : ks.Nodup) (hk : ∀ k ∈ ks, k < fbSize)
include hd hk

/-- Of distinct plots, each turns its cell over for good (R251). -/
theorem cell_afterPlots_ne_iff (k : Nat) : (s.afterPlots ks).cell k ≠ s.cell k ↔ k ∈ ks := by
  have hcell : (s.afterPlots ks).cell k = (s.cell k ^^ decide (k ∈ ks)) := cellOf_plotCells ks s.fb false hd hk k
  by_cases hmem : k ∈ ks <;> simp [hcell, hmem]

/-- Of distinct plots, each finds its cell as it was before the draw (R254). -/
theorem getV_VF_afterPlots_eq_one_iff : (s.afterPlots ks).getV .VF = some 1 ↔ ∃ k ∈ ks, s.cell k = true := by
  rw [getV_VF_afterPlots, Option.some_inj, flagByte_eq_one, hit_plotCells ks s.fb false hd hk, Bool.false_or,
    List.any_eq_true]
  rfl

end

/-! ### O29, O30, O33: the draw -/

section
variable {x y : Reg} {n : Nat} {s : State} {a b : Byte} {w : Word} {row : Nat → Byte}

/-- A draw that can read its rows takes PlotOutOfRange when a set bit plots to OUT, and otherwise plots (R251). -/
theorem exec_drw_of_inRange (ha : s.getV x = some a) (hb : s.getV y = some b) (hw : s.getI = some w)
    (hr : n = 0 ∨ w.toNat + n ≤ memSize) (hrow : ∀ r < n, s.byte (w.toNat + r) = some (row r)) :
    (PlotsOut s.params.plotAlias a.toNat b.toNat n row →
      exec (.drw x y n) s = .next (s.raiseIn (.drw x y n) .plotOutOfRange none)) ∧
    (¬ PlotsOut s.params.plotAlias a.toNat b.toNat n row →
      exec (.drw x y n) s = .next (s.afterPlots (plottedCells s.params.plotAlias a.toNat b.toNat n row))) := by
  rw [exec, execDrw, withV_some _ ha, withV_some _ hb, withI_some _ hw, checkRange_pass _ hr,
    withBytes_some n _ s row _ hrow, ← any_isNone_spritePlots]
  exact ⟨fun h => if_pos h, fun h => if_neg h⟩

/-- A draw that leaves no fault latched has read its operands and its rows, and no set bit plots to OUT. -/
theorem exists_rows_of_exec_drw {t : State} (h : exec (.drw x y n) s = .next t) (hf : t.fault = none) :
    ∃ (a b : Byte) (w : Word) (row : Nat → Byte), s.getV x = some a ∧ s.getV y = some b ∧ s.getI = some w ∧
      (n = 0 ∨ w.toNat + n ≤ memSize) ∧ (∀ r < n, s.byte (w.toNat + r) = some (row r)) ∧
      ¬ PlotsOut s.params.plotAlias a.toNat b.toNat n row := by
  obtain ⟨a, b, w, rows, ha, hb, hw, hr, hlen, hbytes, -, -⟩ := exec_completes h hf
  have hrow : ∀ r < n, s.byte (w.toNat + r) = some (rows.getD r 0) := fun r hrn => by
    simp [hbytes r hrn, hlen, hrn]
  refine ⟨a, b, w, _, ha, hb, hw, hr, hrow, fun hout => ?_⟩
  obtain rfl := next_inj (h.symm.trans ((exec_drw_of_inRange ha hb hw hr hrow).1 hout))
  simp at hf

end

/-- Settles O29: a draw in range plots distinct cells. -/
theorem drawTurnsOverThePlottedCells : Obligations.DrawTurnsOverThePlottedCells := by
  unfold Obligations.DrawTurnsOverThePlottedCells
  refine fun x y n hn => ⟨encodes_of_encode_eq (decide_eq_true (by omega)) rfl, ?_⟩
  intro s a b w row ha hb hw hr hrow hout
  have hd := nodup_plottedCells (mode := s.params.plotAlias) (X0 := a.toNat) (Y0 := b.toNat) (row := row) hn
  simp only [← mem_plottedCells]
  exact ⟨_, (exec_drw_of_inRange ha hb hw hr hrow).2 hout,
    cell_afterPlots_ne_iff s hd fun _ => lt_of_mem_plottedCells, getV_VF_afterPlots_eq_one_or_zero s,
    getV_VF_afterPlots_eq_one_iff s hd fun _ => lt_of_mem_plottedCells, sameOutside_afterPlots s⟩

/-- Settles O30: the range test comes before the test for OUT, and both before any write. -/
theorem drawFaultsBeforeAnyChange : Obligations.DrawFaultsBeforeAnyChange := by
  unfold Obligations.DrawFaultsBeforeAnyChange
  refine fun x y n s a b w ha hb hw => ⟨fun h0 hr => ?_, fun row hr hrow hout => ?_⟩
  · obtain ⟨m, rfl⟩ := Nat.exists_eq_add_one.mpr h0
    exact faultsWith_of_checkRange ((withV_withV_some _ ha hb).trans (withI_some _ hw)) hr
  · exact faultsWith_of_exec_raiseIn ((exec_drw_of_inRange ha hb hw (.inr hr) hrow).1 hout)

/-- A cell that two draws both turn over, or neither, is as it was before them. -/
theorem eq_of_turned_alike {before between after : Bool} (h : after ≠ between ↔ between ≠ before) : after = before := by
  decide +revert

/-- A cell that a draw has turned over and left set is one that it has turned on. -/
theorem turned_and_set_iff {before after : Bool} :
    after ≠ before ∧ after = true ↔ before = false ∧ after = true := by
  decide +revert

/-- Settles O33: both draws read the same operands and rows, so the second turns over the cells that the first has turned
over, and finds set exactly those that the first has turned on. -/
theorem drawingTwiceRestoresTheFramebuffer : Obligations.DrawingTwiceRestoresTheFramebuffer := by
  unfold Obligations.DrawingTwiceRestoresTheFramebuffer
  intro x y n s t t' hn hx hy _ hexec ht hfb hparams hi hbyte hvx hvy
  obtain ⟨a, b, w, row, ha, hb, hw, hr, hrow, hout⟩ := exists_rows_of_exec_drw hexec ht
  have hdraw := (drawTurnsOverThePlottedCells x y n hn).2
  obtain ⟨t₁, hexec₁, hcell, -, -, hframe⟩ := hdraw s a b w row ha hb hw hr hrow hout
  obtain rfl := next_inj (hexec.symm.trans hexec₁)
  have ha' : t'.getV x = some a := by rw [hvx, hframe.v x (by simpa using hx), ha]
  have hb' : t'.getV y = some b := by rw [hvy, hframe.v y (by simpa using hy), hb]
  have hw' : t'.getI = some w := by rw [hi, hframe.i (by simp), hw]
  have hrow' : ∀ r < n, t'.byte (w.toNat + r) = some (row r) := fun r hrn => by
    rw [hbyte, hframe.byte _ (by simp), hrow r hrn]
  have hparams' : t'.params = s.params := hparams.trans hframe.params
  have hcells : t'.cell = t₁.cell := by unfold State.cell; rw [hfb]
  obtain ⟨u, hexec', hcell', h01, hVF, hframe'⟩ := hdraw t' a b w row ha' hb' hw' hr hrow' (hparams' ▸ hout)
  rw [hparams', hcells] at hcell' hVF
  refine ⟨u, hexec', hframe'.fault, fun k => ?_, h01, hVF.trans (exists_congr fun k => ?_)⟩
  · exact eq_of_turned_alike ((hcell' k).trans (hcell k).symm)
  · exact (and_congr_left' (hcell k).symm).trans turned_and_set_iff

end Sys2Proof.Machine
end

section
/-! SUPPORT. The proofs of the statements about timers and keypad (spec/45_timers_keys.md): what a question about a key
answers, the skips that ask it, the moves between Vx and the timers, and the begin of a key-wait. -/

namespace Sys2Proof.Machine

/-! ### O34: the skips on a key -/

section
variable {c : Byte} {s : State} (k : Bool → State → Result)

/-- A code 0..15 names a key, whose level is the answer (R280). -/
theorem withKey_of_le (h : c.toNat ≤ 15) : withKey c s k = k (s.keys.getLsbD c.toNat) s :=
  (withKey_eq c s k).trans (if_pos h)

/-- A code above 15 names no key: the answer is a draw (R55, R280). -/
theorem withKey_of_lt (h : 15 < c.toNat) : withKey c s k = k (Config.keyDraw s.draws c) s.tookDraw :=
  (withKey_eq c s k).trans (if_neg (Nat.not_le.mpr h))

end

/-- A skip on a drawn answer writes PC and the count of draws alone (R280, R281). -/
theorem exists_drawnSkip_of_exec {i : Instr} {s : State} {c : Bool} {w : Word}
    (h : exec i s = .next (s.tookDraw.skipIf c)) (hpc : (s.tookDraw.skipIf c).pc = w) :
    ∃ t, exec i s = .next t ∧ t.pc = w ∧ t.draws = s.draws + 1 ∧ SameOutside [.pc, .draws] s t :=
  ⟨_, h, hpc, by simp, ((SameOutside.tookDraw s).trans (.skipIf ..)).mono (by simp)⟩

/-- Settles O34: both skips ask for the key Vx names, and SKNP negates the answer. -/
theorem keySkips : Obligations.KeySkips := by
  unfold Obligations.KeySkips
  refine fun x => ⟨encodes_of_encode_eq rfl (formatXK_eq_ofNat 0xE x 0x9E),
    encodes_of_encode_eq rfl (formatXK_eq_ofNat 0xE x 0xA1), fun s a ha => ⟨fun hle => ⟨?_, ?_⟩, fun hlt => ⟨?_, ?_⟩⟩⟩
  · exact exists_skip_of_exec ((withV_some _ ha).trans (withKey_of_le _ hle)) Iff.rfl
  · exact ⟨_, (withV_some _ ha).trans (withKey_of_le _ hle), State.pc_skipIf_not .., .skipIf ..⟩
  · exact exists_drawnSkip_of_exec ((withV_some _ ha).trans (withKey_of_lt _ hlt)) (by simp)
  · exact exists_drawnSkip_of_exec ((withV_some _ ha).trans (withKey_of_lt _ hlt)) (State.pc_skipIf_not ..)

/-! ### O35: the moves between Vx and the timers -/

/-- Settles O35: each of the three needs a value of its source alone and writes its target alone. -/
theorem timerMoves : Obligations.TimerMoves := by
  unfold Obligations.TimerMoves
  refine fun x => ⟨encodes_of_encode_eq rfl (formatXK_eq_ofNat 0xF x 0x07),
    encodes_of_encode_eq rfl (formatXK_eq_ofNat 0xF x 0x15), encodes_of_encode_eq rfl (formatXK_eq_ofNat 0xF x 0x18),
    fun s d hd => ?_, fun s a ha => ⟨?_, ?_⟩⟩
  · exact exists_setV_of_exec (withDT_some _ hd)
  · exact ⟨s.setDT a, withV_some _ ha, by simp, .setDT ..⟩
  · exact ⟨s.setST a, withV_some _ ha, by simp, .setST ..⟩

/-! ### O36: the begin of a key-wait -/

/-- Settles O36: the wait begins in every state, and no register is read or written. -/
theorem keyWaitBegins : Obligations.KeyWaitBegins := by
  unfold Obligations.KeyWaitBegins
  exact fun x => ⟨encodes_of_encode_eq rfl (formatXK_eq_ofNat 0xF x 0x0A), fun s =>
    ⟨s.waitForKey x, rfl, rfl, rfl, .waitForKey ..⟩⟩

end Sys2Proof.Machine
end

section
/-! SUPPORT. The proofs of the statements about exceptions (spec/60_exceptions.md): what stops the model, which transactions a
step takes, and what a halted core answers. -/

namespace Sys2Proof.Machine

/-! ### O48: the halted core -/

/-- After a Reset has been issued, Cycle() begins a cycle, or finds the core halted and emits nothing (R130, R312). -/
theorem transact_cycle_of_ne_awaitingReset {s : State} (hp : s.phase ≠ .awaitingReset) :
    transact .cycle s = if s.halted then .next (s.setOutputs []) else .next s.startCycle := by
  unfold transact doCycle
  cases h : s.phase with
  | awaitingReset => exact absurd h hp
  | idle | cycle => rfl

/-- On a halted core a transaction that is no Reset changes at most the key levels (R312). -/
theorem eq_setKeys_of_transact_halted {x : Transaction} {s t : State} (hf : s.fault ≠ none)
    (hx : ∀ program, x ≠ .reset program) (h : transact x s = .next t) : t = (s.setKeys t.keys).setOutputs [] := by
  rcases transact_next h with ⟨program, he, -⟩ | ⟨-, -, ⟨-, rfl⟩ | ⟨hh, -⟩⟩ | ⟨k, -, rfl⟩ | ⟨k, -, rfl⟩
  · exact absurd he (hx program)
  · rfl
  · exact absurd (fault_eq_none_of_not_halted hh) hf
  · rw [keyDown_of_not_waiting k (.inl hf)]
    rfl
  · rfl

/-- "Code 0 means no fault" (R310). -/
theorem faultCode_eq_zero_iff (s : State) : s.faultCode = 0 ↔ s.fault = none := by
  unfold State.faultCode
  split <;> simp [*]

/-- Settles O48: a Reset discards the record, and what any other transaction changes is not read by the code or the status. -/
theorem haltedCoreStaysHalted : Obligations.HaltedCoreStaysHalted := by
  unfold Obligations.HaltedCoreStaysHalted
  refine ⟨fun s r hr hp => ?_, fun s => ⟨rfl, faultCode_eq_zero_iff s, fun r hr => ?_⟩⟩
  · have hf : s.fault ≠ none := by simp [hr]
    refine ⟨?_, fun k => (keyDownCompletesTheWait s k).2 (.inl hf), fun k => ⟨s.keyUp k, rfl, rfl⟩,
      fun program hlen => ⟨_, transact_reset hlen s, rfl, rfl, rfl⟩, fun x t hx ht => ?_⟩
    · exact (transact_cycle_of_ne_awaitingReset (by simp [hp])).trans (if_pos (State.halted_of_some hr))
    · rw [eq_setKeys_of_transact_halted hf hx ht, ← hr]
      exact ⟨rfl, rfl⟩
  · obtain ⟨kind, pc, opcode, addr⟩ := r
    rw [State.faultCode, hr]
    cases kind <;> rfl

/-! ### O52: the transactions a step takes -/

/-- Outside a cycle a step takes a transaction (R317). -/
theorem step_between_cycles {s : State} (hp : s.phase = .idle ∨ s.phase = .awaitingReset) :
    step s = takeTransaction s := by
  unfold step advanceMachine
  rcases hp with hp | hp <;> rw [hp]

theorem takeTransaction_cons {s : State} {x : Transaction} {rest : List Transaction} (h : s.inbox = x :: rest) :
    takeTransaction s = transact x { s with inbox := rest } := by
  rw [takeTransaction, h]

/-- A host that has nothing else to ask asks for a cycle (R51). -/
theorem takeTransaction_nil {s : State} (h : s.inbox = []) : takeTransaction s = transact .cycle s := by
  rw [takeTransaction, h]

theorem exec_inbox_keys {i : Instr} {s t : State} (h : exec i s = .next t) : t.inbox = s.inbox ∧ t.keys = s.keys :=
  have hframe := exec_sameOutside h
  ⟨hframe.inbox, hframe.keys⟩

theorem iteration_inbox_keys {n : Nat} {s t : State} (h : iteration n s = .next t) :
    t.inbox = s.inbox ∧ t.keys = s.keys := by
  rcases iteration_next h with ⟨-, rfl⟩ | ⟨-, ⟨-, rfl⟩ | ⟨-, w, ⟨i, -, he⟩ | rfl | rfl⟩⟩
  case inr.inr.inl => simpa using exec_inbox_keys he
  all_goals exact ⟨rfl, rfl⟩

/-- Settles O52: neither an iteration nor the end of a cycle touches the inbox or the levels, and outside a cycle the step
takes the head of the inbox. -/
theorem noTransactionLandsWithinACycle : Obligations.NoTransactionLandsWithinACycle := by
  unfold Obligations.NoTransactionLandsWithinACycle
  constructor
  · intro s t n hp h
    rcases step_next h with ⟨hidle, -⟩ | ⟨-, -, -, rfl⟩ | ⟨-, -, rfl⟩ | ⟨m, -, -, hi⟩
    · simp [hp] at hidle
    · exact ⟨rfl, rfl⟩
    · rw [endCycle_eq]
      exact ⟨rfl, rfl⟩
    · exact iteration_inbox_keys hi
  · intro s x rest hp hin
    exact (step_between_cycles hp).trans (takeTransaction_cons hin)

/-! ### O42: what stops the model -/

/-- What a transaction can answer besides a next state: the refusals of R50 and R343. -/
theorem transact_next_or_refused (x : Transaction) (s : State) :
    (∃ t, transact x s = .next t) ∨
    (∃ program, x = .reset program ∧ 3584 < program.length ∧
      transact x s = .refused (.programTooLong program.length)) ∨
    (x = .cycle ∧ s.phase = .awaitingReset ∧ transact x s = .refused .cycleBeforeReset) := by
  cases x with
  | reset program =>
    rcases Nat.lt_or_ge 3584 program.length with hlen | hlen
    · exact .inr (.inl ⟨program, rfl, hlen, refusedTransactions.1 s program hlen⟩)
    · exact .inl ⟨_, transact_reset hlen s⟩
  | cycle =>
    by_cases hp : s.phase = .awaitingReset
    · exact .inr (.inr ⟨rfl, hp, refusedTransactions.2 s hp⟩)
    · rw [transact_cycle_of_ne_awaitingReset hp]
      exact .inl (by split <;> exact ⟨_, rfl⟩)
  | keyDown k => exact .inl ⟨_, rfl⟩
  | keyUp k => exact .inl ⟨_, rfl⟩

/-- A core that is halted within a cycle ends it at once (R130; log entry 17). -/
theorem step_of_cycle_halted {s : State} {n : Nat} (hp : s.phase = .cycle n) (hf : s.fault ≠ none) :
    step s = .next (s.setPhase .idle) := by
  have hh : s.halted = true := Option.isSome_iff_ne_none.mpr hf
  cases n <;> simp [step, advanceMachine, hp, hh]

section
variable {s : State} (hz : s.params.initState = .zero) (hu : s.unwritten = [])
include hz

/-- Under INIT_STATE = zero every byte holds a value (R44). -/
theorem byte_ne_none_of_zero (a : Nat) : s.byte a ≠ none := by
  unfold State.byte Memory.get Memory.resetByte
  rw [hz]
  split
  · simp
  · split <;> simp

include hu

/-- Under INIT_STATE = zero every location holds a value once every register does (R41, R44). -/
theorem not_holdsNoValue_of_zero : ∀ l, ¬HoldsNoValue s l
  | .reg (.v _) | .reg .i | .reg .dt | .reg .st => by
    simp [HoldsNoValue, State.getV, State.getI, State.getDT, State.getST, hu]
  | .mem a => byte_ne_none_of_zero hz a

/-- An instruction stops only on a location without a value, and there is none. -/
theorem exists_exec_next_of_zero (i : Instr) : ∃ t, exec i s = .next t := by
  by_contra hstop
  obtain ⟨l, hl, -⟩ := exec_stops fun t ht => hstop ⟨t, ht⟩
  exact not_holdsNoValue_of_zero hz hu l hl

theorem exists_runInstruction_next_of_zero : ∃ t, runInstruction s = .next t := by
  unfold runInstruction
  rcases Nat.lt_or_ge (s.pc.toNat + 1) memSize with hr | hr
  · obtain ⟨hi, hhi⟩ := Option.ne_none_iff_exists'.mp (byte_ne_none_of_zero hz s.pc.toNat)
    obtain ⟨lo, hlo⟩ := Option.ne_none_iff_exists'.mp (byte_ne_none_of_zero hz (s.pc.toNat + 1))
    rw [fetch_of_bytes _ hr hhi hlo]
    cases decode s.advance.params.sysPolicy (wordOfBytes hi lo) with
    | instr i => exact exists_exec_next_of_zero (s := s.advance) hz hu i
    | sys nnn => exact ⟨_, rfl⟩
    | unknown => exact ⟨_, rfl⟩
  · exact ⟨_, fetch_of_out_of_range _ hr⟩

theorem exists_iteration_next_of_zero (n : Nat) : ∃ t, iteration n s = .next t := by
  unfold iteration
  split
  · exact ⟨_, rfl⟩
  · exact exists_runInstruction_next_of_zero (s := s.setPhase (.cycle n)) hz hu

theorem exists_step_next_within_cycle_of_zero {n : Nat} (hp : s.phase = .cycle n) : ∃ t, step s = .next t := by
  by_cases hf : s.fault = none
  · cases n with
    | zero => exact ⟨_, step_of_cycle_zero hp hf⟩
    | succ n =>
      rw [step_of_cycle_succ hp hf]
      exact exists_iteration_next_of_zero hz hu n
  · exact ⟨_, step_of_cycle_halted hp hf⟩

end

/-- Settles O42: within a cycle a step stops on nothing, and outside one it can only refuse the transaction it takes. -/
theorem machineStopsOnlyOnARefusedTransaction : Obligations.MachineStopsOnlyOnARefusedTransaction := by
  unfold Obligations.MachineStopsOnlyOnARefusedTransaction
  intro s hz hu
  by_cases hp : s.phase = .idle ∨ s.phase = .awaitingReset
  · rw [step_between_cycles hp]
    cases hin : s.inbox with
    | nil =>
      rw [takeTransaction_nil hin]
      rcases transact_next_or_refused .cycle s with ht | ⟨program, he, -⟩ | ⟨-, hw, ht⟩
      · exact .inl ht
      · cases he
      · exact .inr (.inr ⟨hw, .inl rfl, ht⟩)
    | cons x rest =>
      rw [takeTransaction_cons hin]
      rcases transact_next_or_refused x { s with inbox := rest } with ht | ⟨program, rfl, hlen, ht⟩ | ⟨rfl, hw, ht⟩
      · exact .inl ht
      · exact .inr (.inl ⟨program, rest, rfl, hlen, ht⟩)
      · exact .inr (.inr ⟨hw, .inr ⟨rest, rfl⟩, ht⟩)
  · cases hphase : s.phase with
    | idle | awaitingReset => simp [hphase] at hp
    | cycle n => exact .inl (exists_step_next_within_cycle_of_zero hz hu hphase)

end Sys2Proof.Machine
end
